-- ==== Sys2Proof/Word.lean ====
section
/-! DEFINITION. The block's two machine words: the byte of the message buffer and the 32-bit word of a register.
Offsets, lengths and counts are natural numbers (00_scope.md R9: sums never wrap). -/

namespace Sys2Proof

/-- A byte of BUF (10_state.md R21); bit 7 is the most significant (00_scope.md R10). -/
abbrev Byte := BitVec 8

/-- A 32-bit word: the command word and the widest registers (10_state.md R22, 30_encoding.md R90). -/
abbrev Word := BitVec 32

end Sys2Proof
end

