-- ==== Sys2Proof/Config.lean ====
section
/-! DEFINITION. What is fixed for the machine: the source's constants (00_scope.md R7), the configuration record of R8 with
this hardware's values, and the one free value of the model, an unwritten byte of BUF (log 3). -/

namespace Sys2Proof.Config

/-- The configuration record of 00_scope.md R8, which the decoder, the decodes and the host's operations take as an argument;
State holds the one of the instance (log 8). RESULT_PORT is open: it has no value here (log 12). -/
structure Params where
  /-- BUF_MAX: capacity of the message buffer in bytes. -/
  bufMax : Nat
  /-- AW: width in bits of a command's OFFSET operand. -/
  aw : Nat
  /-- ACE_CASE_INSENSITIVE: whether `XN--`, `Xn--`, `xN--` count as the ACE prefix too. -/
  aceCaseInsensitive : Bool
  deriving DecidableEq, Repr

/-- "This hardware" of 00_scope.md R8. -/
def hw : Params := { bufMax := 65535, aw := 24, aceCaseInsensitive := false }

/-- The ranges of R8: BUF_MAX is at least 12, and AW is wide enough for it. -/
def Params.Valid (p : Params) : Prop := 12 ≤ p.bufMax ∧ p.bufMax < 2 ^ p.aw

/-- HDR_BYTES (R7). -/
def hdrBytes : Nat := 12
/-- LABEL_MAX (R7). -/
def labelMax : Nat := 63
/-- NAME_MAX (R7). -/
def nameMax : Nat := 255
/-- OPCODE_MAX (R7). -/
def opcodeMax : Nat := 2
/-- RCODE_MAX (R7). -/
def rcodeMax : Nat := 5
/-- TTL_MAX (R7). -/
def ttlMax : Nat := 0x7FFFFFFF
/-- TYPE_A (R7). -/
def typeA : Nat := 1
/-- A_RDLENGTH (R7). -/
def aRdlength : Nat := 4
/-- Q_FIXED (R7). -/
def qFixed : Nat := 4
/-- RR_FIXED (R7). -/
def rrFixed : Nat := 10
/-- The most passes of the loop of 42_name.md R184 (R186: 127 labels, one pointer, one last pass). -/
def namePasses : Nat := 129

/-- FREE VALUE (log 3): what a byte of BUF that nothing has written since reset number `resets` reads as, at an offset.
The spec leaves it open (10_state.md R44 "unspecified", 93_implementation_defined.md U5 "any value"). -/
opaque freeByte : (resets : Nat) → (offset : Nat) → Byte

end Sys2Proof.Config
end

