-- ==== Sys2Proof/Syntax.lean ====
section
/-! DEFINITION. The block's instructions, one constructor for each row of spec/opcode_table.json: the eight commands of
30_encoding.md R92 and the five octet classes of R99, which are the instructions of the name state machine (log 5). -/

namespace Sys2Proof

/-- An instruction with its operands: OFFSET as the natural number it is used as (30_encoding.md R91; how wide is a parameter,
00_scope.md R8), the octets' fields as wide as R99 gives them. -/
inductive Instr where
  /-- RD8 OFFSET: one byte (40_primitive_reader.md R131). -/
  | rd8 (offset : Nat)
  /-- RD16 OFFSET: two bytes, big-endian (R132). -/
  | rd16 (offset : Nat)
  /-- RD32 OFFSET: four bytes, big-endian (R133). -/
  | rd32 (offset : Nat)
  /-- HDR: decode the header (41_header.md R151). -/
  | hdr
  /-- NAME OFFSET: decode a name (42_name.md R170). -/
  | name (offset : Nat)
  /-- QUES OFFSET: decode a question (43_question.md R200). -/
  | ques (offset : Nat)
  /-- RR OFFSET: decode a resource record (44_resource_record.md R210). -/
  | rr (offset : Nat)
  /-- MSG: decode a whole message (45_message.md R230). -/
  | msg
  /-- OCT.TERM: the terminator octet 0x00 (42_name.md R174). -/
  | octTerm
  /-- OCT.LABEL LEN: a length octet 0x01..0x3F (R176). -/
  | octLabel (len : BitVec 6)
  /-- OCT.RSV01: an octet 0x40..0x7F (R175). -/
  | octRsv01 (any : BitVec 6)
  /-- OCT.RSV10: an octet 0x80..0xBF (R175). -/
  | octRsv10 (any : BitVec 6)
  /-- OCT.PTR TARGET: two octets, the first 0xC0..0xFF (R179). -/
  | octPtr (target : BitVec 14)
  deriving DecidableEq, Repr

/-- Where an instruction's bits stand: a command in the 32-bit register CMD (30_encoding.md R90; it has no byte order,
20_memory.md R63), an octet class in the bytes of the message at the name decoder's position (R99). -/
inductive Code where
  /-- A command word, as written to CMD. -/
  | command (w : Word)
  /-- The octets at the name decoder's position, lowest offset first. -/
  | octets (bytes : List Byte)
  deriving DecidableEq, Repr

end Sys2Proof
end

