-- ==== Sys2Proof/WellFormed.lean ====
section
/-! DEFINITION. Which instructions have an encoding of their own: OFFSET is below 2^AW (00_scope.md R8), and LEN = 0 belongs to
another row, OCT.TERM (opcode_table.json: "LEN in 1..63"). The other fields' widths are in the types. -/

namespace Sys2Proof

/-- A command's OFFSET is below 2^AW (00_scope.md R8, 30_encoding.md R91). -/
def offsetFits (p : Config.Params) (offset : Nat) : Bool := decide (offset < 2 ^ p.aw)

/-- An instruction is well formed when its fields hold values the encoding gives it (30_encoding.md R91, R99). -/
def Instr.wellFormed (p : Config.Params) : Instr → Bool
  | .rd8 offset => offsetFits p offset
  | .rd16 offset => offsetFits p offset
  | .rd32 offset => offsetFits p offset
  | .hdr => true
  | .name offset => offsetFits p offset
  | .ques offset => offsetFits p offset
  | .rr offset => offsetFits p offset
  | .msg => true
  | .octTerm => true
  | .octLabel len => len != 0
  | .octRsv01 _ => true
  | .octRsv10 _ => true
  | .octPtr _ => true

/-- The commands of R92, as against the octet classes of R99. -/
def Instr.isCommand : Instr → Bool
  | .rd8 _ => true
  | .rd16 _ => true
  | .rd32 _ => true
  | .hdr => true
  | .name _ => true
  | .ques _ => true
  | .rr _ => true
  | .msg => true
  | .octTerm => false
  | .octLabel _ => false
  | .octRsv01 _ => false
  | .octRsv10 _ => false
  | .octPtr _ => false

end Sys2Proof
end

