-- ==== Sys2Proof/Decode.lean ====
section
/-! DEFINITION. The decoder, total on every command word and every string of octets, and the encoder written from the same
tables of 30_encoding.md. -/

namespace Sys2Proof

/-! ## The command word (30_encoding.md R90 to R94)

The 28 bits below OPC are RSV above OFFSET, which is AW bits wide: for this hardware's AW = 24, bits 27:24 and 23:0 (R90). The
spec gives the layout for AW = 24 alone; that it splits at AW is log 15. -/

/-- OPC = bits 31:28 (R90). -/
def cmdOpc (w : Word) : BitVec 4 := w.extractLsb' 28 4

/-- RSV, the bits below OPC and above OFFSET (R90). -/
def cmdRsv (p : Config.Params) (w : Word) : Nat := w.toNat % 2 ^ 28 / 2 ^ p.aw

/-- OFFSET, the low AW bits (R90), zero-extended to a natural number (R91). -/
def cmdOffset (p : Config.Params) (w : Word) : Nat := w.toNat % 2 ^ 28 % 2 ^ p.aw

/-- Format O (R91): RSV = 0, any OFFSET. -/
def formatO (p : Config.Params) (w : Word) (row : Nat → Instr) : Option Instr :=
  if cmdRsv p w = 0 then some (row (cmdOffset p w)) else none

/-- Format Z (R91): RSV = 0, OFFSET = 0. -/
def formatZ (p : Config.Params) (w : Word) (row : Instr) : Option Instr :=
  if cmdRsv p w = 0 ∧ cmdOffset p w = 0 then some row else none

/-- Decoding of a word written to CMD by the opcode map of R92; `none` is an illegal word (R93). -/
def decodeCommand (p : Config.Params) (w : Word) : Option Instr :=
  match (cmdOpc w).toNat with
  | 1 => formatO p w .rd8
  | 2 => formatO p w .rd16
  | 3 => formatO p w .rd32
  | 4 => formatZ p w .hdr
  | 5 => formatO p w .name
  | 6 => formatO p w .ques
  | 7 => formatO p w .rr
  | 8 => formatZ p w .msg
  | _ => none

/-! ## The octets of a name (30_encoding.md R99, R102, R103) -/

/-- The top two bits of an octet, which give its class (R99). -/
def octetTop (b : Byte) : BitVec 2 := b.extractLsb' 6 2

/-- The low six bits of an octet: LEN, or the high part of a pointer's target (R99, R102). -/
def octetLow (b : Byte) : BitVec 6 := b.extractLsb' 0 6

/-- The pointer target: `b[5:0]` above the eight bits of the second octet (R103). -/
def pointerTarget (b b2 : Byte) : BitVec 14 := octetLow b ++ b2

/-- Decoding of the octets at the name decoder's position, with what is left of them. `none` only where no octet is
there, or the second octet of a pointer is not. -/
def decodeOctets : List Byte → Option (Instr × List Byte)
  | [] => none
  | b :: rest =>
    if b = 0 then some (.octTerm, rest)
    else match (octetTop b).toNat with
      | 0 => some (.octLabel (octetLow b), rest)
      | 1 => some (.octRsv01 (octetLow b), rest)
      | 2 => some (.octRsv10 (octetLow b), rest)
      | _ => match rest with
        | [] => none
        | b2 :: rest' => some (.octPtr (pointerTarget b b2), rest')

/-- The instruction at the front of a code. -/
def decode (p : Config.Params) : Code → Option Instr
  | .command w => decodeCommand p w
  | .octets bytes => (decodeOctets bytes).map Prod.fst

/-! ## The encoder, from the same tables -/

/-- The word of OPC and OFFSET with RSV = 0 (R90, R108: `(OPC << 28) | OFFSET`). -/
def commandWord (opc : BitVec 4) (offset : Nat) : Word := opc ++ BitVec.ofNat 28 offset

/-- The octet of a class and its low six bits (R99). -/
def octetOf (top : BitVec 2) (low : BitVec 6) : Byte := top ++ low

/-- The code of an instruction. -/
def encode : Instr → Code
  | .rd8 off => .command (commandWord 1 off)
  | .rd16 off => .command (commandWord 2 off)
  | .rd32 off => .command (commandWord 3 off)
  | .hdr => .command (commandWord 4 0)
  | .name off => .command (commandWord 5 off)
  | .ques off => .command (commandWord 6 off)
  | .rr off => .command (commandWord 7 off)
  | .msg => .command (commandWord 8 0)
  | .octTerm => .octets [0]
  | .octLabel len => .octets [octetOf 0 len]
  | .octRsv01 any => .octets [octetOf 1 any]
  | .octRsv10 any => .octets [octetOf 2 any]
  | .octPtr target => .octets [octetOf 3 (target.extractLsb' 8 6), target.extractLsb' 0 8]

/-! ## The rows of the opcode map as match and mask, for this hardware's AW (R92, R112) -/

/-- A row of R92: the bits a word must have (`pattern`) under `mask`. -/
structure CommandRow where
  pattern : Word
  mask : Word
  deriving DecidableEq, Repr

/-- The eight rows of R92 in their order. -/
def commandRows : List CommandRow :=
  [⟨0x10000000, 0xFF000000⟩, ⟨0x20000000, 0xFF000000⟩, ⟨0x30000000, 0xFF000000⟩, ⟨0x40000000, 0xFFFFFFFF⟩,
   ⟨0x50000000, 0xFF000000⟩, ⟨0x60000000, 0xFF000000⟩, ⟨0x70000000, 0xFF000000⟩, ⟨0x80000000, 0xFFFFFFFF⟩]

/-- "A word `w` encodes the command of a row when `w & mask = match`" (R92). -/
def CommandRow.holds (r : CommandRow) (w : Word) : Bool := w &&& r.mask == r.pattern

/-- The row of R92 that a command belongs to; the octet classes have none. -/
def Instr.row : Instr → Option CommandRow
  | .rd8 _ => commandRows[0]?
  | .rd16 _ => commandRows[1]?
  | .rd32 _ => commandRows[2]?
  | .hdr => commandRows[3]?
  | .name _ => commandRows[4]?
  | .ques _ => commandRows[5]?
  | .rr _ => commandRows[6]?
  | .msg => commandRows[7]?
  | .octTerm => none
  | .octLabel _ => none
  | .octRsv01 _ => none
  | .octRsv10 _ => none
  | .octPtr _ => none

/-! ## The table's numbering of bits -/

/-- The code of a table row's bits (log 6): 32 bits are a command word; 16 bits are the two octets of a pointer, the
first in bits 15:8; 8 bits are one octet, with a zero octet after it. -/
def tableCode (nbits w : Nat) : Option Code :=
  if 2 ^ nbits ≤ w then none
  else if nbits = 32 then some (.command (BitVec.ofNat 32 w))
  else if nbits = 16 then some (.octets [BitVec.ofNat 8 (w / 256), BitVec.ofNat 8 w])
  else if nbits = 8 then some (.octets [BitVec.ofNat 8 w, 0])
  else none

/-- What this hardware's decoder reads from a table row's bits. -/
def decodeTableWord (nbits w : Nat) : Option Instr := (tableCode nbits w).bind (decode Config.hw)

end Sys2Proof
end

