-- ==== Sys2Proof/Machine/State.lean ====
section
/-! DEFINITION. The state of the block as plain data: the host-visible registers (10_state.md R22 to R33), BUF (R21), the
engine's own state (R37, R38, R41, 42_name.md R171, 45_message.md R232), and the model's own record of the host (log 2, log 12).
Results are held as the abstract RESULT of R34; the result registers are its projections (Machine/Registers.lean). -/

namespace Sys2Proof.Machine

/-! ## Errors (60_exceptions.md R261, R264) -/

/-- ERR_KIND: the nine kinds of R261. -/
inductive ErrKind where
  | noError | tooShort | outOfBounds | invalidValue | invalidLabelSyntax | inconsistentFields | recursivePointer
  | countMismatch | illegalCommand
  deriving DecidableEq, Repr

/-- ERR_FIELD: the 21 fields of R264. -/
inductive ErrField where
  | none | raw | hdrLen | hdrOpcode | hdrAa | hdrZ | hdrRcode | nameLen | namePtr2 | namePtr | nameLabel | nameTotal
  | qQtype | qQclass | rrType | rrClass | rrTtl | rrRdlength | rrRdata | msgCount | cmd
  deriving DecidableEq, Repr

/-- How a decode ends other than by `return`. -/
inductive Stop where
  /-- `raise K(F, off, w)` (00_scope.md R11). -/
  | raise (kind : ErrKind) (field : ErrField) (off width : Nat)
  /-- More passes than 42_name.md R186 allows: no input gives this (log 10). -/
  | unfinished
  deriving DecidableEq, Repr

/-! ## Results (10_state.md R34) -/

/-- The source's Header (R29, R34). -/
structure Header where
  id : BitVec 16
  qr : Bool
  opcode : BitVec 4
  aa : Bool
  tc : Bool
  rd : Bool
  ra : Bool
  z : BitVec 3
  rcode : BitVec 4
  qdcount : BitVec 16
  ancount : BitVec 16
  nscount : BitVec 16
  arcount : BitVec 16
  deriving DecidableEq, Repr

/-- The bytes of a label (R34). -/
abbrev Label := List Byte

/-- The source's Name: the labels in wire order and the forward bytes consumed (R30, R34). -/
structure Name where
  labels : List Label
  consumed : Nat
  deriving DecidableEq, Repr

/-- The source's Question (R31, R34). -/
structure Question where
  name : Name
  qtype : BitVec 16
  qclass : BitVec 16
  deriving DecidableEq, Repr

/-- The source's ResourceRecord (R32, R34), RDATA as the span `BUF[rdoff .. rdoff + rdlength)` (log 11). -/
structure Record where
  name : Name
  rtype : BitVec 16
  rclass : BitVec 16
  ttl : BitVec 32
  rdlength : BitVec 16
  rdoff : Nat
  deriving DecidableEq, Repr

/-- MSG_STORE: the four sequences of records, each in wire order (R33). -/
structure MsgStore where
  questions : List Question
  answers : List Record
  authorities : List Record
  additionals : List Record
  deriving DecidableEq, Repr

/-- The source's Message (R33, R34). -/
structure Message where
  header : Header
  store : MsgStore
  deriving DecidableEq, Repr

/-- RESULT (R34). -/
inductive Result where
  | none
  | raw (v : Word)
  | hdr (h : Header)
  | nam (n : Name)
  | que (q : Question) (consumed : Nat)
  | rr (r : Record) (consumed : Nat)
  | msg (m : Message) (endOffset : Nat)
  deriving DecidableEq, Repr

/-! ## Status (10_state.md R24) -/

/-- STATUS: the three flags; the bits above them read 0. -/
structure Status where
  busy : Bool
  done : Bool
  err : Bool
  deriving DecidableEq, Repr

/-! ## The engine (10_state.md R37, R38) -/

/-- The states of the name state machine (42_name.md R171). -/
inductive NameSt where
  | readLength
  | readLabel (len : Nat)
  | followPointer (target at_ : Nat)
  | done
  deriving DecidableEq, Repr

/-- The variables of a name decode (R171). -/
structure Walk where
  o : Nat
  pos : Nat
  jumped : Bool
  fwd : Nat
  total : Nat
  labels : List Label
  st : NameSt
  deriving DecidableEq, Repr

/-- The four sections of a message in wire order (45_message.md R234). -/
inductive Section where
  | questions | answers | authorities | additionals
  deriving DecidableEq, Repr

/-- What MSG holds between records (R232). -/
structure MsgCtx where
  header : Header
  off : Nat
  sec : Section
  index : Nat
  store : MsgStore
  deriving DecidableEq, Repr

/-- What a name is being decoded for: NAME itself, or the name step of QUES, RR or a record of MSG. -/
inductive Task where
  | name
  | ques
  | rr
  | msg (c : MsgCtx)
  deriving DecidableEq, Repr

/-- Where the engine stands in a command. -/
inductive Engine where
  /-- No command is running; the engine has no state of its own (R44). -/
  | idle
  /-- START has accepted the word in CMD; the engine has yet to decode it (R41). -/
  | accepted
  /-- A name decode is in progress (42_name.md R171). -/
  | naming (w : Walk) (task : Task)
  /-- MSG stands at the top of an iteration (45_message.md R240). -/
  | records (c : MsgCtx)
  deriving DecidableEq, Repr

/-! ## Registers and the host -/

/-- The host-visible registers 0 to 24 and the two stores, in the order of R22. -/
inductive Reg where
  | cmd | status | bufLen | errKind | errField | errOffset | errWidth | resTag | resValue | resConsumed
  | hId | hFlags | hQdcount | hAncount | hNscount | hArcount | nNlabels | nWirelen | qQtype | qQclass
  | rType | rClass | rTtl | rRdlength | rRdoff | lbl | msgStore
  deriving DecidableEq, Repr

/-- What a READ returns: a register zero-extended to 32 bits, or the content of a store (log 12). -/
inductive HostValue where
  | word (v : Word)
  | lbl (bytes : List Byte)
  | store (m : MsgStore)
  deriving DecidableEq, Repr

/-- What the host does next (log 2). -/
inductive HostMove where
  /-- LOAD(bytes) (R40). -/
  | load (bytes : List Byte)
  /-- A write of one byte of BUF (70_reset_and_hazards.md R303 step 1). -/
  | writeByte (offset : Nat) (b : Byte)
  /-- A write of BUF_LEN (R25, R303 step 2). -/
  | writeLen (n : Nat)
  /-- START(w): a write of CMD (R41). -/
  | start (w : Word)
  /-- READ (R42). -/
  | read (r : Reg)
  /-- The hardware reset input (R300, R302). -/
  | reset
  /-- The host waits until BUSY = 0 (R307). -/
  | await
  /-- The host lets one transition of the engine pass (log 1). -/
  | tick
  deriving DecidableEq, Repr

/-! ## The state -/

/-- The block and the host's part of the model. -/
structure State where
  /-- The configuration of this instance of the block (00_scope.md R8, log 8). No step changes it. -/
  params : Config.Params
  /-- CMD (R23). -/
  cmd : Word
  /-- STATUS (R24). -/
  status : Status
  /-- BUF_LEN, a natural number up to BUF_MAX (R21, R25). -/
  bufLen : Nat
  /-- BUF (R21): the bytes written, offsets rising; an offset not listed is unwritten (log 3). -/
  buf : List Host.Cell
  /-- ERR_KIND (R26). -/
  errKind : ErrKind
  /-- ERR_FIELD (R26). -/
  errField : ErrField
  /-- ERR_OFFSET, a natural number below 2^AW (R26, 60_exceptions.md R265). -/
  errOffset : Nat
  /-- ERR_WIDTH (R26). -/
  errWidth : BitVec 16
  /-- RESULT (R34), the home of RES_TAG, registers 8 to 24, LBL and MSG_STORE. -/
  result : Result
  /-- The engine's own state (R37, R38). -/
  engine : Engine
  /-- The MODEL's own: the host moves still to come (log 2). -/
  host : List HostMove
  /-- The MODEL's own: what the host's last READ returned (log 12). -/
  hostSaw : Option HostValue
  /-- The MODEL's own: how many resets there have been, which feeds the free value of an unwritten byte (log 3). -/
  resets : Nat
  deriving DecidableEq, Repr

/-- This hardware's block right after reset (R44, 70_reset_and_hazards.md R300), with no host move to come. -/
def State.reset : State where
  params := Config.hw
  cmd := 0
  status := { busy := false, done := false, err := false }
  bufLen := 0
  buf := []
  errKind := .noError
  errField := .none
  errOffset := 0
  errWidth := 0
  result := .none
  engine := .idle
  host := []
  hostSaw := none
  resets := 0

/-! ## How a step can stop -/

/-- Faults: the machine stops. -/
inductive Fault where
  /-- Raised by a host write to an offset BUF does not have (R21: offsets 0 to BUF_MAX − 1). Safe. -/
  | noSuchByte (offset : Nat)
  /-- Raised where a name decode takes more passes than 42_name.md R186 allows. No state reaches it. Safe. -/
  | engineBound
  deriving DecidableEq, Repr

/-- Refusals: the model gives no meaning. -/
inductive Refusal where
  /-- An instruction without a meaning yet, by its mnemonic. Safe. -/
  | notModelled (mnemonic : String)
  /-- Raised by a READ of a register or store that holds no value (R35, 60_exceptions.md R280). Safe. -/
  | holdsNoValue (r : Reg)
  /-- Raised by a LOAD longer than BUF_MAX, or a write of BUF_LEN above it (93_implementation_defined.md U9, R25). Safe. -/
  | aboveBufMax (n : Nat)
  /-- Raised by an octet class executed where the name state machine is not in ReadLength (log 5). Safe. -/
  | notInReadLength
  deriving DecidableEq, Repr

end Sys2Proof.Machine
end

