-- ==== Sys2Proof/Machine/Flags.lean ====
section
/-! DEFINITION. STATUS and its values, the block's only flags (10_state.md R24, R39; there are no condition codes), and the
numeric codes of the error kinds and fields (60_exceptions.md R261, R264). -/

namespace Sys2Proof.Machine

/-- After reset: BUSY = 0, DONE = 0, ERR = 0 (R24). -/
def Status.idleFresh : Status := { busy := false, done := false, err := false }
/-- From START to completion: BUSY = 1, DONE = 0, ERR = 0 (R24, R41). -/
def Status.running : Status := { busy := true, done := false, err := false }
/-- After `return`: 0, 1, 0 (R24, R36). -/
def Status.doneOk : Status := { busy := false, done := true, err := false }
/-- After `raise`: 0, 1, 1 (R24, 60_exceptions.md R262). -/
def Status.doneError : Status := { busy := false, done := true, err := true }

/-- "Exactly one of these holds at any time" (R24). -/
def Status.legal (t : Status) : Bool :=
  t = .idleFresh || t = .running || t = .doneOk || t = .doneError

/-- STATUS as the host reads it: bit 0 BUSY, bit 1 DONE, bit 2 ERR, bits 31:3 read as 0 (R24). -/
def Status.word (t : Status) : Word :=
  (0 : BitVec 29) ++ (BitVec.ofBool t.err ++ (BitVec.ofBool t.done ++ BitVec.ofBool t.busy))

/-- The codes of ERR_KIND (60_exceptions.md R261). -/
def ErrKind.code : ErrKind → BitVec 4
  | .noError => 0
  | .tooShort => 1
  | .outOfBounds => 2
  | .invalidValue => 3
  | .invalidLabelSyntax => 4
  | .inconsistentFields => 5
  | .recursivePointer => 6
  | .countMismatch => 7
  | .illegalCommand => 8

/-- The codes of ERR_FIELD (60_exceptions.md R264). -/
def ErrField.code : ErrField → BitVec 5
  | .none => 0
  | .raw => 1
  | .hdrLen => 2
  | .hdrOpcode => 3
  | .hdrAa => 4
  | .hdrZ => 5
  | .hdrRcode => 6
  | .nameLen => 7
  | .namePtr2 => 8
  | .namePtr => 9
  | .nameLabel => 10
  | .nameTotal => 11
  | .qQtype => 12
  | .qQclass => 13
  | .rrType => 14
  | .rrClass => 15
  | .rrTtl => 16
  | .rrRdlength => 17
  | .rrRdata => 18
  | .msgCount => 19
  | .cmd => 20

end Sys2Proof.Machine
end

