-- ==== Sys2Proof/Machine/Operands.lean ====
section
/-! DEFINITION. The operand forms: a command's OFFSET (30_encoding.md R91), an octet's LEN and TARGET (R99, R103), and the
big-endian value of bytes (00_scope.md R10, 20_memory.md R63, R66). -/

namespace Sys2Proof.Machine

/-- OFFSET "is zero-extended to a natural number and used as is" (R91). -/
def offsetOperand (offset : Nat) : Nat := offset

/-- LEN of a label's length octet, 1..63 (R99). -/
def lenOperand (len : BitVec 6) : Nat := len.toNat

/-- TARGET of a pointer, an absolute offset 0..16383 (R102, R103). -/
def targetOperand (target : BitVec 14) : Nat := target.toNat

/-- The big-endian value of a byte sequence, Σ over i of `b[i]`·256^(n−1−i) (20_memory.md R66). -/
def beValue (bytes : List Byte) : Nat := bytes.foldl (fun v b => 256 * v + b.toNat) 0

/-- Two bytes as a 16-bit field, the first the more significant (R63). -/
def u16 (hi lo : Byte) : BitVec 16 := hi ++ lo

/-- The high and low byte of a 16-bit field (R63). -/
def u16Bytes (v : BitVec 16) : List Byte := [v.extractLsb' 8 8, v.extractLsb' 0 8]

end Sys2Proof.Machine
end

