-- ==== Sys2Proof/Machine/Ops.lean ====
section
/-! DEFINITION. The shared operations: BUF as sparse bytes (log 3), the message, the two reads of 20_memory.md R66 and R67, and
what ends a command: `return` (10_state.md R36) and `raise` (60_exceptions.md R262, the block's one exception entry; there is
no return from it, R271). -/

namespace Sys2Proof.Machine

/-! ## BUF (10_state.md R21) -/

/-- The byte written at an offset, if one has been. -/
def Memory.find : List Host.Cell → Nat → Option Byte
  | [], _ => none
  | (k, v) :: rest, a => if k = a then some v else Memory.find rest a

/-- Write one byte, keeping the offsets rising. -/
def Memory.put (a : Nat) (b : Byte) : List Host.Cell → List Host.Cell
  | [] => [(a, b)]
  | (k, v) :: rest =>
    if a < k then (a, b) :: (k, v) :: rest
    else if a = k then (a, b) :: rest
    else (k, v) :: Memory.put a b rest

/-- Write a byte sequence from an offset on. -/
def Memory.putAll (a : Nat) : List Byte → List Host.Cell → List Host.Cell
  | [], m => m
  | b :: bs, m => Memory.putAll (a + 1) bs (Memory.put a b m)

/-- Canonical form: offsets strictly rising, all inside a BUF of `bufMax` bytes (R21: 0 .. BUF_MAX−1). An unlisted offset is
an unwritten byte, whose free value no entry can be compared with (log 3). -/
def Memory.wf (bufMax : Nat) : List Host.Cell → Bool
  | [] => true
  | [(k, _)] => k < bufMax
  | (k, _) :: (k', v') :: rest => k < k' && Memory.wf bufMax ((k', v') :: rest)

/-- The byte of BUF at an offset: the byte written there, else the free value of an unwritten byte (log 3). -/
def State.byteAt (s : State) (a : Nat) : Byte := (Memory.find s.buf a).getD (Config.freeByte s.resets a)

/-- `BUF[0..BUF_LEN)`, all that a command can read (10_state.md R21, R43; 20_memory.md R62). -/
def State.message (s : State) : List Byte := (List.range s.bufLen).map s.byteAt

/-! ## The two reads (20_memory.md R66, R67) -/

/-- `BUF[a..a+n)` of a message. -/
def slice (m : List Byte) (a n : Nat) : List Byte := (m.drop a).take n

/-- `MemRead(a, n) @F` (R66). -/
def memRead (m : List Byte) (a n : Nat) (field : ErrField) : Except Stop Nat :=
  if a + n > m.length then .error (.raise .tooShort field a n) else .ok (beValue (slice m a n))

/-- `MemSpan(a, n, K) @F` (R67). -/
def memSpan (m : List Byte) (a n : Nat) (kind : ErrKind) (field : ErrField) : Except Stop (List Byte) :=
  if a + n > m.length then .error (.raise kind field a n) else .ok (slice m a n)

/-! ## Start and end of a command -/

/-- START of an accepted word (10_state.md R41): CMD written, RES_TAG and the error record cleared, BUSY set; the engine has
yet to decode the word. -/
def State.accept (w : Word) (s : State) : State :=
  { s with
    cmd := w, status := .running, errKind := .noError, errField := .none, errOffset := 0, errWidth := 0,
    result := .none, engine := .accepted }

/-- `return v` (10_state.md R36). -/
def State.complete (r : Result) (s : State) : State :=
  { s with
    status := .doneOk, errKind := .noError, errField := .none, errOffset := 0, errWidth := 0,
    result := r, engine := .idle }

/-- `raise K(F, off, w)` (60_exceptions.md R262): the error record, no result, STATUS done-error, the engine's own state
discarded. -/
def State.raise (kind : ErrKind) (field : ErrField) (off width : Nat) (s : State) : State :=
  { s with
    status := .doneError, errKind := kind, errField := field, errOffset := off,
    errWidth := BitVec.ofNat 16 width, result := .none, engine := .idle }

/-- The engine moves on inside a command. -/
def State.withEngine (e : Engine) (s : State) : State := { s with engine := e }

/-- The host's list of moves. -/
def State.withHost (h : List HostMove) (s : State) : State := { s with host := h }

/-- A decode that did not return ends the command. -/
def State.stop (s : State) : Stop → Host.Outcome State Fault Refusal
  | .raise kind field off width => .next (s.raise kind field off width)
  | .unfinished => .fault .engineBound

/-- The end of a command: its decode returned a result, or it raised (R36, R262). -/
def State.settle (s : State) : Except Stop Result → Host.Outcome State Fault Refusal
  | .ok r => .next (s.complete r)
  | .error e => s.stop e

/-- A transition of the name state machine: the walk goes on, or the command ends with an error. -/
def State.settleWalk (s : State) (task : Task) : Except Stop Walk → Host.Outcome State Fault Refusal
  | .ok w => .next (s.withEngine (.naming w task))
  | .error e => s.stop e

end Sys2Proof.Machine
end

