-- ==== Sys2Proof/Machine/Header.lean ====
section
/-! DEFINITION. The header validator: HDR, and the header step of MSG (41_header.md R150 to R158, 30_encoding.md R96, R97). -/

namespace Sys2Proof.Machine

/-- The byte at an index of a byte sequence that has it. -/
def byteOf (m : List Byte) (i : Nat) : Byte := m.getD i 0

/-- The 16-bit field at an index (R151 step 2). -/
def fieldOf (m : List Byte) (i : Nat) : BitVec 16 := u16 (byteOf m i) (byteOf m (i + 1))

/-- Step 2 of R151: unpack the twelve bytes (R96). -/
def unpackHeader (m : List Byte) : Header where
  id := fieldOf m 0
  qr := (byteOf m 2).getLsbD 7
  opcode := (byteOf m 2).extractLsb' 3 4
  aa := (byteOf m 2).getLsbD 2
  tc := (byteOf m 2).getLsbD 1
  rd := (byteOf m 2).getLsbD 0
  ra := (byteOf m 3).getLsbD 7
  z := (byteOf m 3).extractLsb' 4 3
  rcode := (byteOf m 3).extractLsb' 0 4
  qdcount := fieldOf m 4
  ancount := fieldOf m 6
  nscount := fieldOf m 8
  arcount := fieldOf m 10

/-- Steps 3 to 6 of R151: the first check that fails is the error (R153). -/
def checkHeader (h : Header) : Except Stop Header :=
  if h.opcode.toNat > Config.opcodeMax then .error (.raise .invalidValue .hdrOpcode 2 1)
  else if h.qr = false ∧ h.aa = true then .error (.raise .inconsistentFields .hdrAa 2 1)
  else if h.z ≠ 0 then .error (.raise .invalidValue .hdrZ 3 1)
  else if h.rcode.toNat > Config.rcodeMax then .error (.raise .invalidValue .hdrRcode 3 1)
  else .ok h

/-- `DecodeHeader(s)` (R151). -/
def decodeHeader (m : List Byte) : Except Stop Header :=
  if m.length < Config.hdrBytes then .error (.raise .tooShort .hdrLen 0 12)
  else if m.length > Config.hdrBytes then .error (.raise .invalidValue .hdrLen 0 12)
  else checkHeader (unpackHeader m)

/-- `HeaderOfMessage` (R152): the header step of MSG, over `BUF[0..12)`. -/
def headerOfMessage (m : List Byte) : Except Stop Header :=
  if m.length < Config.hdrBytes then .error (.raise .tooShort .hdrLen 0 12)
  else decodeHeader (slice m 0 Config.hdrBytes)

/-- HDR (R151): `return Hdr(DecodeHeader(BUF[0..BUF_LEN)))`. -/
def execHdr (s : State) : Host.Outcome State Fault Refusal := s.settle ((decodeHeader s.message).map .hdr)

end Sys2Proof.Machine
end

