-- ==== Sys2Proof/Machine/Name.lean ====
section
/-! DEFINITION. The name decompressor: the transitions of the name state machine (42_name.md R171 to R181), the label grammar
(R177), and NAME, the whole decode as the one function of R184. -/

namespace Sys2Proof.Machine

/-! ## Label grammar (R177, 30_encoding.md R100, R101) -/

/-- The hyphen, 0x2D (R100). -/
def hyphen : Byte := 0x2D

/-- A–Z, a–z, 0–9 or hyphen (R100, R177 clause 1). -/
def labelByte (b : Byte) : Bool :=
  let v := b.toNat
  (0x41 ≤ v && v ≤ 0x5A) || (0x61 ≤ v && v ≤ 0x7A) || (0x30 ≤ v && v ≤ 0x39) || v = 0x2D

/-- `IsAce(c)` (R177 clause 3, R101); `ci` is ACE_CASE_INSENSITIVE. -/
def isAce (ci : Bool) : Label → Bool
  | c0 :: c1 :: c2 :: c3 :: _ =>
    (c0 = 0x78 || (ci && c0 = 0x58)) && (c1 = 0x6E || (ci && c1 = 0x4E)) && c2 = hyphen && c3 = hyphen
  | _ => false

/-- `--` at positions 3–4 of the label (R177 clause 3). -/
def hyphens34 : Label → Bool
  | _ :: _ :: c2 :: c3 :: _ => c2 = hyphen && c3 = hyphen
  | _ => false

/-- `LabelOK(c)` (R177); `ci` is ACE_CASE_INSENSITIVE. -/
def labelOK (ci : Bool) (c : Label) : Bool :=
  c.all labelByte && c.head? != some hyphen && c.getLast? != some hyphen && (!hyphens34 c || isAce ci c)

/-! ## The transitions of the state machine -/

/-- The initial state of a name decode at `o` (R172). -/
def Walk.start (o : Nat) : Walk :=
  { o := o, pos := o, jumped := false, fwd := 0, total := 1, labels := [], st := .readLength }

/-- OCT.TERM (R174): the terminator counts only where no pointer has been followed; Done. -/
def Walk.terminate (w : Walk) : Walk := { w with fwd := if w.jumped then w.fwd else w.fwd + 1, st := .done }

/-- Done (R185): the labels and the forward byte count. -/
def Walk.name (w : Walk) : Name := { labels := w.labels, consumed := w.fwd }

/-- ReadLabel(L) (R176): bounds, grammar, size bound, append. -/
def Walk.readLabel (p : Config.Params) (w : Walk) (m : List Byte) (len : Nat) : Except Stop Walk := do
  let c ← memSpan m (w.pos + 1) len .outOfBounds .nameLabel
  if labelOK p.aceCaseInsensitive c = false then .error (.raise .invalidLabelSyntax .nameLabel (w.pos + 1) len)
  else if w.total + len + 1 > Config.nameMax then .error (.raise .invalidValue .nameTotal w.pos (len + 1))
  else .ok { w with
    labels := w.labels ++ [c], total := w.total + len + 1, fwd := if w.jumped then w.fwd else w.fwd + (len + 1)
    pos := w.pos + len + 1, st := .readLength }

/-- FollowPointer(target, at) (R180): hop limit, backward, in the buffer, then the jump. -/
def Walk.followPointer (w : Walk) (m : List Byte) (target at_ : Nat) : Except Stop Walk :=
  if w.jumped then .error (.raise .recursivePointer .namePtr at_ 2)
  else if target ≥ w.o then .error (.raise .invalidValue .namePtr at_ 2)
  else if target ≥ m.length then .error (.raise .outOfBounds .namePtr at_ 2)
  else .ok { w with fwd := w.fwd + 2, jumped := true, pos := target, st := .readLength }

/-- OCT.PTR (R179): the second octet is read, then FollowPointer. -/
def Walk.pointer (w : Walk) (m : List Byte) (target : Nat) : Except Stop Walk := do
  let _ ← memRead m (w.pos + 1) 1 .namePtr2
  w.followPointer m target w.pos

/-- OCT.RSV01 and OCT.RSV10 (R175). -/
def Walk.badLength (w : Walk) : Except Stop Walk := .error (.raise .invalidValue .nameLen w.pos 1)

/-! ## The function (R184) -/

/-- The loop of R184, at most `n` passes of it. -/
def nameLoop (p : Config.Params) : Nat → List Byte → Walk → Except Stop Name
  | 0, _, _ => .error .unfinished
  | n + 1, m, w => do
    let b ← memRead m w.pos 1 .nameLen
    if b = 0 then .ok w.terminate.name
    else if b / 64 = 3 then
      let b2 ← memRead m (w.pos + 1) 1 .namePtr2
      let w' ← w.followPointer m (256 * (b % 64) + b2) w.pos
      nameLoop p n m w'
    else if b > Config.labelMax then .error (.raise .invalidValue .nameLen w.pos 1)
    else
      let w' ← w.readLabel p m b
      nameLoop p n m w'

/-- `DecodeName(o)` (R184). -/
def decodeName (p : Config.Params) (m : List Byte) (o : Nat) : Except Stop Name := nameLoop p Config.namePasses m (Walk.start o)

/-- The decompressed wire size of a name, `1 + Σ (len + 1)` (10_state.md R30). -/
def Name.wireLen (n : Name) : Nat := 1 + (n.labels.map (fun l => l.length + 1)).sum

/-- NAME (R170): `return Nam(DecodeName(OFFSET))`. -/
def execName (offset : Nat) (s : State) : Host.Outcome State Fault Refusal :=
  s.settle ((decodeName s.params s.message (offsetOperand offset)).map .nam)

end Sys2Proof.Machine
end

