-- ==== Sys2Proof/Machine/Question.lean ====
section
/-! DEFINITION. The question unpacker: QUES (43_question.md R200 to R206). -/

namespace Sys2Proof.Machine

/-- `QTypeOK(t)` (R202). -/
def qtypeOK (t : Nat) : Bool := (1 ≤ t && t ≤ 16) || (252 ≤ t && t ≤ 255)

/-- `QClassOK(k)` (R202). -/
def qclassOK (k : Nat) : Bool := k = 1 || k = 3 || k = 4 || k = 255

/-- What follows the name in a question (R201): both reads, then both checks. -/
def questionFields (m : List Byte) (o : Nat) (name : Name) : Except Stop (Question × Nat) := do
  let c := name.consumed
  let qtype ← memRead m (o + c) 2 .qQtype
  let qclass ← memRead m (o + c + 2) 2 .qQclass
  if qtypeOK qtype = false then .error (.raise .invalidValue .qQtype (o + c) 2)
  else if qclassOK qclass = false then .error (.raise .invalidValue .qQclass (o + c + 2) 2)
  else .ok (⟨name, BitVec.ofNat 16 qtype, BitVec.ofNat 16 qclass⟩, c + Config.qFixed)

/-- `DecodeQuestion(o)` (R201). -/
def decodeQuestion (p : Config.Params) (m : List Byte) (o : Nat) : Except Stop (Question × Nat) := do
  let name ← decodeName p m o
  questionFields m o name

/-- QUES (R200): `return Que(DecodeQuestion(OFFSET))`. -/
def execQues (offset : Nat) (s : State) : Host.Outcome State Fault Refusal :=
  s.settle ((decodeQuestion s.params s.message (offsetOperand offset)).map (fun p => .que p.1 p.2))

end Sys2Proof.Machine
end

