-- ==== Sys2Proof/Machine/ResourceRecord.lean ====
section
/-! DEFINITION. The resource-record field unpacker: RR (44_resource_record.md R210 to R220). -/

namespace Sys2Proof.Machine

/-- What follows the name in a record (R211), reads and checks in the order of the text. -/
def recordFields (m : List Byte) (o : Nat) (name : Name) : Except Stop (Record × Nat) := do
  let c := name.consumed
  let rtype ← memRead m (o + c) 2 .rrType
  let rclass ← memRead m (o + c + 2) 2 .rrClass
  let ttl ← memRead m (o + c + 4) 4 .rrTtl
  if ttl > Config.ttlMax then .error (.raise .invalidValue .rrTtl (o + c + 4) 4)
  else
    let rdlength ← memRead m (o + c + 8) 2 .rrRdlength
    let _ ← memSpan m (o + c + 10) rdlength .inconsistentFields .rrRdata
    if rtype = Config.typeA ∧ rdlength ≠ Config.aRdlength then
      .error (.raise .inconsistentFields .rrRdlength (o + c + 8) 2)
    else
      .ok (⟨name, BitVec.ofNat 16 rtype, BitVec.ofNat 16 rclass, BitVec.ofNat 32 ttl, BitVec.ofNat 16 rdlength, o + c + 10⟩,
        c + Config.rrFixed + rdlength)

/-- `DecodeRR(o)` (R211). -/
def decodeRecord (p : Config.Params) (m : List Byte) (o : Nat) : Except Stop (Record × Nat) := do
  let name ← decodeName p m o
  recordFields m o name

/-- RDATA of a record, `BUF[rdoff .. rdoff + rdlength)` of the message it is looked up in (10_state.md R32, log 11). -/
def Record.rdata (r : Record) (m : List Byte) : List Byte := slice m r.rdoff r.rdlength.toNat

/-- RR (R210): `return Rec(DecodeRR(OFFSET))`. -/
def execRr (offset : Nat) (s : State) : Host.Outcome State Fault Refusal :=
  s.settle ((decodeRecord s.params s.message (offsetOperand offset)).map (fun p => .rr p.1 p.2))

end Sys2Proof.Machine
end

