-- ==== Sys2Proof/Machine/Assembler.lean ====
section
/-! DEFINITION. The message assembler: MSG (45_message.md R230 to R240). -/

namespace Sys2Proof.Machine

/-- No record of any section yet. -/
def MsgStore.empty : MsgStore := { questions := [], answers := [], authorities := [], additionals := [] }

/-- The error of a count that demands a record where no byte is left (R235). -/
def countMismatch (off : Nat) : Stop := .raise .countMismatch .msgCount off 0

/-- The loop over the questions (R231): `n` iterations from `off`, with the questions so far. -/
def questionLoop (p : Config.Params) : Nat → List Byte → Nat → List Question → Except Stop (List Question × Nat)
  | 0, _, off, acc => .ok (acc, off)
  | n + 1, m, off, acc =>
    if off ≥ m.length then .error (countMismatch off)
    else do
      let (q, k) ← decodeQuestion p m off
      questionLoop p n m (off + k) (acc ++ [q])

/-- The loop over the records of a section (R231). -/
def recordLoop (p : Config.Params) : Nat → List Byte → Nat → List Record → Except Stop (List Record × Nat)
  | 0, _, off, acc => .ok (acc, off)
  | n + 1, m, off, acc =>
    if off ≥ m.length then .error (countMismatch off)
    else do
      let (r, k) ← decodeRecord p m off
      recordLoop p n m (off + k) (acc ++ [r])

/-- `DecodeMessage()` (R231). -/
def decodeMessage (p : Config.Params) (m : List Byte) : Except Stop (Message × Nat) := do
  let h ← headerOfMessage m
  let (questions, off) ← questionLoop p h.qdcount.toNat m Config.hdrBytes []
  let (answers, off) ← recordLoop p h.ancount.toNat m off []
  let (authorities, off) ← recordLoop p h.nscount.toNat m off []
  let (additionals, off) ← recordLoop p h.arcount.toNat m off []
  return (⟨h, ⟨questions, answers, authorities, additionals⟩⟩, off)

/-- MSG (R230): `return Msg(DecodeMessage())`. -/
def execMsg (s : State) : Host.Outcome State Fault Refusal :=
  s.settle ((decodeMessage s.params s.message).map (fun p => .msg p.1 p.2))

end Sys2Proof.Machine
end

