-- ==== Sys2Proof/Machine/Octet.lean ====
section
/-! DEFINITION. The five octet classes, the instructions of the name state machine (42_name.md R173 to R180, log 5): each
takes the machine from ReadLength to its next ReadLength, to Done, or to an error. -/

namespace Sys2Proof.Machine

/-- Run a transition of the name decode that stands in ReadLength. An octet class has no meaning anywhere else (R173). -/
def State.inReadLength (s : State) (transition : Walk → Except Stop Walk) : Host.Outcome State Fault Refusal :=
  match s.engine with
  | .naming w task => if w.st = .readLength then s.settleWalk task (transition w) else .refused .notInReadLength
  | .idle => .refused .notInReadLength
  | .accepted => .refused .notInReadLength
  | .records _ => .refused .notInReadLength

/-- OCT.TERM (R174). -/
def execOctTerm (s : State) : Host.Outcome State Fault Refusal := s.inReadLength (fun w => .ok w.terminate)

/-- OCT.LABEL (R176). -/
def execOctLabel (len : BitVec 6) (s : State) : Host.Outcome State Fault Refusal :=
  s.inReadLength (fun w => w.readLabel s.params s.message (lenOperand len))

/-- OCT.RSV01 (R175): the low bits are not looked at. -/
def execOctRsv01 (_any : BitVec 6) (s : State) : Host.Outcome State Fault Refusal := s.inReadLength Walk.badLength

/-- OCT.RSV10 (R175). -/
def execOctRsv10 (_any : BitVec 6) (s : State) : Host.Outcome State Fault Refusal := s.inReadLength Walk.badLength

/-- OCT.PTR (R179, R180). -/
def execOctPtr (target : BitVec 14) (s : State) : Host.Outcome State Fault Refusal :=
  s.inReadLength (fun w => w.pointer s.message (targetOperand target))

end Sys2Proof.Machine
end

