-- ==== Sys2Proof/Machine/Reader.lean ====
section
/-! DEFINITION. The primitive reader: RD8, RD16, RD32 (40_primitive_reader.md R130 to R136). -/

namespace Sys2Proof.Machine

/-- `return Raw(zext_32(MemRead(OFFSET, n) @F_RAW))` (R131, R132, R133). -/
def readRaw (m : List Byte) (n : Nat) (offset : Nat) : Except Stop Result := do
  let v ← memRead m (offsetOperand offset) n .raw
  return .raw (BitVec.ofNat 32 v)

/-- RD8 (R131). -/
def execRd8 (offset : Nat) (s : State) : Host.Outcome State Fault Refusal := s.settle (readRaw s.message 1 offset)

/-- RD16 (R132). -/
def execRd16 (offset : Nat) (s : State) : Host.Outcome State Fault Refusal := s.settle (readRaw s.message 2 offset)

/-- RD32 (R133). -/
def execRd32 (offset : Nat) (s : State) : Host.Outcome State Fault Refusal := s.settle (readRaw s.message 4 offset)

end Sys2Proof.Machine
end

