-- ==== Sys2Proof/Machine/Dispatch.lean ====
section
/-! DEFINITION. What each instruction does, one arm for each row of spec/opcode_table.json. -/

namespace Sys2Proof.Machine

def exec (i : Instr) (s : State) : Host.Outcome State Fault Refusal :=
  match i with
  | .rd8 offset => Sys2Proof.Machine.execRd8 offset s
  | .rd16 offset => Sys2Proof.Machine.execRd16 offset s
  | .rd32 offset => Sys2Proof.Machine.execRd32 offset s
  | .hdr => Sys2Proof.Machine.execHdr s
  | .name offset => Sys2Proof.Machine.execName offset s
  | .ques offset => Sys2Proof.Machine.execQues offset s
  | .rr offset => Sys2Proof.Machine.execRr offset s
  | .msg => Sys2Proof.Machine.execMsg s
  | .octTerm => Sys2Proof.Machine.execOctTerm s
  | .octLabel len => Sys2Proof.Machine.execOctLabel len s
  | .octRsv01 any => Sys2Proof.Machine.execOctRsv01 any s
  | .octRsv10 any => Sys2Proof.Machine.execOctRsv10 any s
  | .octPtr target => Sys2Proof.Machine.execOctPtr target s

end Sys2Proof.Machine
end

