-- ==== Sys2Proof/Machine/Registers.lean ====
section
/-! DEFINITION. The host's view of the registers and stores (10_state.md R22 to R33), each a projection of State. A result
register that RES_TAG does not cover holds no value: `none` (R35). -/

namespace Sys2Proof.Machine

/-! ## The projections of RESULT (R27 to R34) -/

/-- RES_TAG (R27). -/
def Result.tag : Result → BitVec 3
  | .none => 0
  | .raw _ => 1
  | .hdr _ => 2
  | .nam _ => 3
  | .que _ _ => 4
  | .rr _ _ => 5
  | .msg _ _ => 6

/-- RES_VALUE (R28). -/
def Result.value : Result → Option Word
  | .raw v => some v
  | .none => .none
  | .hdr _ => .none
  | .nam _ => .none
  | .que _ _ => .none
  | .rr _ _ => .none
  | .msg _ _ => .none

/-- What RES_CONSUMED holds (R28): the forward count, or MSG's end offset. -/
def Result.consumed : Result → Option Nat
  | .nam n => some n.consumed
  | .que _ k => some k
  | .rr _ k => some k
  | .msg _ e => some e
  | .none => .none
  | .raw _ => .none
  | .hdr _ => .none

/-- The header result, of HEADER and MESSAGE (R29). -/
def Result.header : Result → Option Header
  | .hdr h => some h
  | .msg m _ => some m.header
  | .none => .none
  | .raw _ => .none
  | .nam _ => .none
  | .que _ _ => .none
  | .rr _ _ => .none

/-- The name result, of NAME, QUESTION and RR (R30). -/
def Result.name : Result → Option Name
  | .nam n => some n
  | .que q _ => some q.name
  | .rr r _ => some r.name
  | .none => .none
  | .raw _ => .none
  | .hdr _ => .none
  | .msg _ _ => .none

/-- The question result (R31). -/
def Result.question : Result → Option Question
  | .que q _ => some q
  | .none => .none
  | .raw _ => .none
  | .hdr _ => .none
  | .nam _ => .none
  | .rr _ _ => .none
  | .msg _ _ => .none

/-- The record result (R32). -/
def Result.record : Result → Option Record
  | .rr r _ => some r
  | .none => .none
  | .raw _ => .none
  | .hdr _ => .none
  | .nam _ => .none
  | .que _ _ => .none
  | .msg _ _ => .none

/-- MSG_STORE (R33). -/
def Result.store : Result → Option MsgStore
  | .msg m _ => some m.store
  | .none => .none
  | .raw _ => .none
  | .hdr _ => .none
  | .nam _ => .none
  | .que _ _ => .none
  | .rr _ _ => .none

/-- H_FLAGS = `{qr, opcode, aa, tc, rd, ra, z, rcode}`, qr in bit 15 (R29). -/
def Header.flags (h : Header) : BitVec 16 :=
  BitVec.ofBool h.qr ++ (h.opcode ++ (BitVec.ofBool h.aa ++ (BitVec.ofBool h.tc ++ (BitVec.ofBool h.rd ++
    (BitVec.ofBool h.ra ++ (h.z ++ h.rcode))))))

/-- The wire form of a label list, length byte then bytes, without the terminator (R30). -/
def labelBytes (labels : List Label) : List Byte := labels.flatMap (fun l => BitVec.ofNat 8 l.length :: l)

/-! ## The register map (R22) -/

/-- The bits that hold every natural number up to `n`. -/
def bitsFor (n : Nat) : Nat := Nat.log2 n + 1

/-- Width in bits of a register; the stores have none. BUF_LEN is "enough for BUF_MAX" (R22), 16 bits for this hardware;
ERR_OFFSET and R_RDOFF are AW bits wide; RES_CONSUMED holds a record's count, at most 65801 (R28), and MSG's end offset, at
most BUF_MAX: 17 bits for this hardware (log 15). -/
def Reg.width (p : Config.Params) : Reg → Option Nat
  | .cmd => some 32
  | .status => some 32
  | .bufLen => some (bitsFor p.bufMax)
  | .errKind => some 4
  | .errField => some 5
  | .errOffset => some p.aw
  | .errWidth => some 16
  | .resTag => some 3
  | .resValue => some 32
  | .resConsumed => some (bitsFor (max 65801 p.bufMax))
  | .hId => some 16
  | .hFlags => some 16
  | .hQdcount => some 16
  | .hAncount => some 16
  | .hNscount => some 16
  | .hArcount => some 16
  | .nNlabels => some 7
  | .nWirelen => some 8
  | .qQtype => some 16
  | .qQclass => some 16
  | .rType => some 16
  | .rClass => some 16
  | .rTtl => some 32
  | .rRdlength => some 16
  | .rRdoff => some p.aw
  | .lbl => .none
  | .msgStore => .none

/-- Number of a register; the stores have none. -/
def Reg.number : Reg → Option Nat
  | .cmd => some 0
  | .status => some 1
  | .bufLen => some 2
  | .errKind => some 3
  | .errField => some 4
  | .errOffset => some 5
  | .errWidth => some 6
  | .resTag => some 7
  | .resValue => some 8
  | .resConsumed => some 9
  | .hId => some 10
  | .hFlags => some 11
  | .hQdcount => some 12
  | .hAncount => some 13
  | .hNscount => some 14
  | .hArcount => some 15
  | .nNlabels => some 16
  | .nWirelen => some 17
  | .qQtype => some 18
  | .qQclass => some 19
  | .rType => some 20
  | .rClass => some 21
  | .rTtl => some 22
  | .rRdlength => some 23
  | .rRdoff => some 24
  | .lbl => .none
  | .msgStore => .none

/-- The value of a register as a natural number, before it is cut to the register's width; `none` where the register
holds no value (R35) and for the two stores. -/
def State.regNat (s : State) : Reg → Option Nat
  | .cmd => some s.cmd.toNat
  | .status => some s.status.word.toNat
  | .bufLen => some s.bufLen
  | .errKind => some s.errKind.code.toNat
  | .errField => some s.errField.code.toNat
  | .errOffset => some s.errOffset
  | .errWidth => some s.errWidth.toNat
  | .resTag => some s.result.tag.toNat
  | .resValue => s.result.value.map BitVec.toNat
  | .resConsumed => s.result.consumed
  | .hId => s.result.header.map (fun h => h.id.toNat)
  | .hFlags => s.result.header.map (fun h => h.flags.toNat)
  | .hQdcount => s.result.header.map (fun h => h.qdcount.toNat)
  | .hAncount => s.result.header.map (fun h => h.ancount.toNat)
  | .hNscount => s.result.header.map (fun h => h.nscount.toNat)
  | .hArcount => s.result.header.map (fun h => h.arcount.toNat)
  | .nNlabels => s.result.name.map (fun n => n.labels.length)
  | .nWirelen => s.result.name.map Name.wireLen
  | .qQtype => s.result.question.map (fun q => q.qtype.toNat)
  | .qQclass => s.result.question.map (fun q => q.qclass.toNat)
  | .rType => s.result.record.map (fun r => r.rtype.toNat)
  | .rClass => s.result.record.map (fun r => r.rclass.toNat)
  | .rTtl => s.result.record.map (fun r => r.ttl.toNat)
  | .rRdlength => s.result.record.map (fun r => r.rdlength.toNat)
  | .rRdoff => s.result.record.map (fun r => r.rdoff)
  | .lbl => .none
  | .msgStore => .none

/-- A register as the host reads it: its value cut to its width and zero-extended to 32 bits. -/
def State.regWord (s : State) (r : Reg) : Option Word :=
  match s.regNat r, r.width s.params with
  | some v, some n => some (BitVec.ofNat 32 (v % 2 ^ n))
  | _, _ => .none

/-- What a READ of a register or store returns (R42, log 12); `none` where it holds no value (R35). -/
def State.readReg (s : State) : Reg → Option HostValue
  | .lbl => s.result.name.map (fun n => .lbl (labelBytes n.labels))
  | .msgStore => s.result.store.map .store
  | r => (s.regWord r).map .word

end Sys2Proof.Machine
end

