-- ==== Sys2Proof/Machine/HostOps.lean ====
section
/-! DEFINITION. The host's operations (10_state.md R25, R40 to R42, 70_reset_and_hazards.md R300 to R303). A write while BUSY = 1
is dropped (R41). -/

namespace Sys2Proof.Machine

/-- LOAD(bytes) (R40): `BUF[0..n) <- bytes`, `BUF_LEN <- n`; the rest of BUF stays (log 9). -/
def State.load (bytes : List Byte) (s : State) : State :=
  { s with buf := Memory.putAll 0 bytes s.buf, bufLen := bytes.length }

/-- A host write of one byte of BUF (R303 step 1). -/
def State.writeByte (offset : Nat) (b : Byte) (s : State) : State := { s with buf := Memory.put offset b s.buf }

/-- A host write of BUF_LEN (R25). -/
def State.writeLen (n : Nat) (s : State) : State := { s with bufLen := n }

/-- The hardware reset (R300, R302): every register and BUF as after reset; the parameters are the instance's, and the host's
own record is not the block's. -/
def State.hardReset (s : State) : State :=
  { State.reset with params := s.params, host := s.host, hostSaw := s.hostSaw, resets := s.resets + 1 }

/-- LOAD, defined for at most BUF_MAX bytes (R40, 93_implementation_defined.md U9); dropped while BUSY = 1 (R41). -/
def hostLoad (bytes : List Byte) (s : State) : Host.Outcome State Fault Refusal :=
  if s.status.busy then .next s
  else if bytes.length > s.params.bufMax then .refused (.aboveBufMax bytes.length)
  else .next (s.load bytes)

/-- A host write of a byte of BUF, which has the offsets 0 .. BUF_MAX−1 (R21); dropped while BUSY = 1 (R41). -/
def hostWriteByte (offset : Nat) (b : Byte) (s : State) : Host.Outcome State Fault Refusal :=
  if s.status.busy then .next s
  else if offset ≥ s.params.bufMax then .fault (.noSuchByte offset)
  else .next (s.writeByte offset b)

/-- A host write of BUF_LEN "with any value 0 .. BUF_MAX" (R25); dropped while BUSY = 1 (R41). -/
def hostWriteLen (n : Nat) (s : State) : Host.Outcome State Fault Refusal :=
  if s.status.busy then .next s
  else if n > s.params.bufMax then .refused (.aboveBufMax n)
  else .next (s.writeLen n)

/-- START(w); dropped while BUSY = 1 (R41). -/
def hostStart (w : Word) (s : State) : Host.Outcome State Fault Refusal :=
  if s.status.busy then .next s else .next (s.accept w)

/-- READ (R42): no side effect on the block; the model keeps what the host saw (log 12). -/
def hostRead (r : Reg) (s : State) : Host.Outcome State Fault Refusal :=
  match s.readReg r with
  | some v => .next { s with hostSaw := some v }
  | none => .refused (.holdsNoValue r)

/-- The reset input, at any time (R300, R302). -/
def hostReset (s : State) : Host.Outcome State Fault Refusal := .next s.hardReset

end Sys2Proof.Machine
end

