-- ==== Sys2Proof/Machine/Engine.lean ====
section
/-! DEFINITION. The engine between START and completion, at both grains of log 1: a whole command at once (10_state.md R20), or
one transition at a time of the state machines of 42_name.md R171 and 45_message.md R232. -/

namespace Sys2Proof.Machine

/-- Decode the accepted word and execute its command to completion; an illegal word raises IllegalCommand without a read
of BUF (10_state.md R41, 30_encoding.md R93, 60_exceptions.md R268). -/
def runCommand (s : State) : Host.Outcome State Fault Refusal :=
  match decodeCommand s.params s.cmd with
  | some i => exec i s
  | none => .next (s.raise .illegalCommand .cmd 0 0)

/-- The header step of MSG, after which it stands before its first record, at offset 12 (45_message.md R231, R233). -/
def openMessage (s : State) : Host.Outcome State Fault Refusal :=
  match headerOfMessage s.message with
  | .ok h => .next (s.withEngine (.records ⟨h, Config.hdrBytes, .questions, 0, .empty⟩))
  | .error e => s.stop e

/-- The first transition of a command: the name decoders start at ReadLength (42_name.md R172), MSG decodes its header, and
the commands with no inner state complete. -/
def openCommand (i : Instr) (s : State) : Host.Outcome State Fault Refusal :=
  match i with
  | .name offset => .next (s.withEngine (.naming (Walk.start (offsetOperand offset)) .name))
  | .ques offset => .next (s.withEngine (.naming (Walk.start (offsetOperand offset)) .ques))
  | .rr offset => .next (s.withEngine (.naming (Walk.start (offsetOperand offset)) .rr))
  | .msg => openMessage s
  | .rd8 offset => exec (.rd8 offset) s
  | .rd16 offset => exec (.rd16 offset) s
  | .rd32 offset => exec (.rd32 offset) s
  | .hdr => exec .hdr s
  | .octTerm => exec .octTerm s
  | .octLabel len => exec (.octLabel len) s
  | .octRsv01 any => exec (.octRsv01 any) s
  | .octRsv10 any => exec (.octRsv10 any) s
  | .octPtr target => exec (.octPtr target) s

/-- The first transition of the accepted word. -/
def openAccepted (s : State) : Host.Outcome State Fault Refusal :=
  match decodeCommand s.params s.cmd with
  | some i => openCommand i s
  | none => .next (s.raise .illegalCommand .cmd 0 0)

/-- ReadLength (42_name.md R173, R179): the octets at the position are read and executed. Where the length octet is not in the
message, or the second octet of a pointer is not, the read of that octet raises TooShort. -/
def readLength (w : Walk) (s : State) : Host.Outcome State Fault Refusal :=
  match slice s.message w.pos 2 with
  | [] => s.stop (.raise .tooShort .nameLen w.pos 1)
  | b :: rest =>
    match decodeOctets (b :: rest) with
    | some (i, _) => exec i s
    | none => s.stop (.raise .tooShort .namePtr2 (w.pos + 1) 1)

/-! ## MSG's records (45_message.md R231 to R235) -/

/-- How many records the header demands in the section being filled (R234). -/
def MsgCtx.count (c : MsgCtx) : Nat :=
  match c.sec with
  | .questions => c.header.qdcount.toNat
  | .answers => c.header.ancount.toNat
  | .authorities => c.header.nscount.toNat
  | .additionals => c.header.arcount.toNat

/-- The section after a section (R234). -/
def Section.next : Section → Option Section
  | .questions => some .answers
  | .answers => some .authorities
  | .authorities => some .additionals
  | .additionals => none

/-- A question is appended and the offset moves past it. -/
def MsgCtx.addQuestion (c : MsgCtx) (q : Question) (k : Nat) : MsgCtx :=
  { c with store := { c.store with questions := c.store.questions ++ [q] }, off := c.off + k, index := c.index + 1 }

/-- A record is appended to the section being filled and the offset moves past it. -/
def MsgCtx.addRecord (c : MsgCtx) (r : Record) (k : Nat) : MsgCtx :=
  let store := match c.sec with
    | .questions => c.store
    | .answers => { c.store with answers := c.store.answers ++ [r] }
    | .authorities => { c.store with authorities := c.store.authorities ++ [r] }
    | .additionals => { c.store with additionals := c.store.additionals ++ [r] }
  { c with store := store, off := c.off + k, index := c.index + 1 }

/-- The top of an iteration (R231, R235, R240): the next record's name starts, or the section is full and the next one
begins, or the message is complete. -/
def recordsTop (c : MsgCtx) (s : State) : Host.Outcome State Fault Refusal :=
  if c.index < c.count then
    if c.off ≥ s.message.length then s.stop (countMismatch c.off)
    else .next (s.withEngine (.naming (Walk.start c.off) (.msg c)))
  else match c.sec.next with
    | some sec => .next (s.withEngine (.records { c with sec := sec, index := 0 }))
    | none => .next (s.complete (.msg ⟨c.header, c.store⟩ c.off))

/-- A record of MSG after its name (R231): the question's or record's own fields. -/
def finishRecord (c : MsgCtx) (name : Name) (s : State) : Host.Outcome State Fault Refusal :=
  match c.sec with
  | .questions =>
    match questionFields s.message c.off name with
    | .ok (q, k) => .next (s.withEngine (.records (c.addQuestion q k)))
    | .error e => s.stop e
  | _ =>
    match recordFields s.message c.off name with
    | .ok (r, k) => .next (s.withEngine (.records (c.addRecord r k)))
    | .error e => s.stop e

/-- Done (42_name.md R185): the name goes to what it was decoded for. -/
def deliver (w : Walk) (task : Task) (s : State) : Host.Outcome State Fault Refusal :=
  match task with
  | .name => .next (s.complete (.nam w.name))
  | .ques => s.settle ((questionFields s.message w.o w.name).map (fun p => .que p.1 p.2))
  | .rr => s.settle ((recordFields s.message w.o w.name).map (fun p => .rr p.1 p.2))
  | .msg c => finishRecord c w.name s

/-- One transition of the name state machine, by its state (42_name.md R171). -/
def nameTick (w : Walk) (task : Task) (s : State) : Host.Outcome State Fault Refusal :=
  match w.st with
  | .readLength => readLength w s
  | .readLabel len => s.settleWalk task (w.readLabel s.params s.message len)
  | .followPointer target at_ => s.settleWalk task (w.followPointer s.message target at_)
  | .done => deliver w task s

/-- One transition of the engine. Idle, it does nothing (70_reset_and_hazards.md R300). -/
def engineTick (s : State) : Host.Outcome State Fault Refusal :=
  match s.engine with
  | .idle => .next s
  | .accepted => openAccepted s
  | .naming w task => nameTick w task s
  | .records c => recordsTop c s

/-- The engine's turn where the host only waits: an accepted command runs to completion (R20); a command that has been
started transition by transition goes on so. -/
def engineTurn (s : State) : Host.Outcome State Fault Refusal :=
  match s.engine with
  | .accepted => runCommand s
  | .idle => engineTick s
  | .naming _ _ => engineTick s
  | .records _ => engineTick s

/-! ## The host's turn -/

/-- One host move on a state whose list of moves is already the rest (log 2). -/
def hostTurn (mv : HostMove) (s : State) : Host.Outcome State Fault Refusal :=
  match mv with
  | .load bytes => hostLoad bytes s
  | .writeByte offset b => hostWriteByte offset b s
  | .writeLen n => hostWriteLen n s
  | .start w => hostStart w s
  | .read r => hostRead r s
  | .reset => hostReset s
  | .await => .next s
  | .tick => engineTick s

/-- Who moves next: the host's next move, or the engine while the host waits (`await` stays until BUSY = 0, R307) or has
no move left. -/
def nextTurn (s : State) : Host.Outcome State Fault Refusal :=
  match s.host with
  | [] => engineTurn s
  | .await :: rest => if s.status.busy then engineTurn s else hostTurn .await (s.withHost rest)
  | mv :: rest => hostTurn mv (s.withHost rest)

/-! ## Where the next instruction is fetched -/

/-- The offset of the name decode that `fetchOctets` sets up: where a message's first name stands (45_message.md R233). -/
def fetchOffset : Nat := 12

/-- The host waits, so that the engine moves next. -/
def State.engineNext (s : State) : State := s.withHost (.await :: s.host)

/-- The command word as START leaves it (10_state.md R41). -/
def State.fetchCommand (w : Word) (s : State) : State := (s.accept w).engineNext

/-- The octets at the position of a name decode that has just begun, NAME 12 (log 7): in BUF, inside BUF_LEN. -/
def State.fetchOctets (bytes : List Byte) (s : State) : State :=
  let started := ((s.accept (commandWord 5 fetchOffset)).withEngine
    (.naming (Walk.start fetchOffset) .name)).engineNext
  { started with
    buf := Memory.putAll fetchOffset bytes s.buf
    bufLen := max s.bufLen (fetchOffset + bytes.length) }

/-- A code stored where the next step fetches its instruction. -/
def State.fetchCode (c : Code) (s : State) : State :=
  match c with
  | .command w => s.fetchCommand w
  | .octets bytes => s.fetchOctets bytes

end Sys2Proof.Machine
end

