-- ==== Sys2Proof/Machine/Step.lean ====
section
/-! DEFINITION. The step: one move of the host, or one move of the engine (log 1, log 2). -/

namespace Sys2Proof.Machine

/-- One step of the block and its host. -/
def step (s : State) : Host.Outcome State Fault Refusal := nextTurn s

/-- The state with a table row's instruction where the next step fetches it (log 6, log 7); bits that are no table row's
leave the state as it is. -/
def State.withFetchWord (s : State) (nbits w : Nat) : State :=
  match tableCode nbits w with
  | some c => s.fetchCode c
  | none => s

end Sys2Proof.Machine
end

