-- ==== Sys2Proof/Machine/Reference.lean ====
section
/-! DEFINITION. The reference encoders (46_reference_encoders.md R250 to R256): functions on the result types, not commands of the
block; no instruction's meaning uses them. Records, messages and compressed names have none (R256). -/

namespace Sys2Proof.Machine

/-- Header byte 2, `{qr, opcode, aa, tc, rd}` (R251, 30_encoding.md R96). -/
def Header.byte2 (h : Header) : Byte :=
  BitVec.ofBool h.qr ++ (h.opcode ++ (BitVec.ofBool h.aa ++ (BitVec.ofBool h.tc ++ BitVec.ofBool h.rd)))

/-- Header byte 3, `{ra, z, rcode}` (R251, 30_encoding.md R96). -/
def Header.byte3 (h : Header) : Byte := BitVec.ofBool h.ra ++ (h.z ++ h.rcode)

/-- `EncodeHeader(h)` (R251). -/
def encodeHeader (h : Header) : List Byte :=
  u16Bytes h.id ++ [h.byte2, h.byte3] ++ u16Bytes h.qdcount ++ u16Bytes h.ancount ++ u16Bytes h.nscount ++ u16Bytes h.arcount

/-- `EncodeName(labels)` (R253): both failures are InvalidValue. -/
def encodeName (labels : List Label) : Except ErrKind (List Byte) :=
  if labels.any (fun l => l.length > Config.labelMax) then .error .invalidValue
  else if 1 + (labels.map (fun l => l.length + 1)).sum > Config.nameMax then .error .invalidValue
  else .ok (labelBytes labels ++ [0])

/-- `EncodeQuestion(q)` (R255). -/
def encodeQuestion (q : Question) : Except ErrKind (List Byte) :=
  (encodeName q.name.labels).map (fun n => n ++ u16Bytes q.qtype ++ u16Bytes q.qclass)

end Sys2Proof.Machine
end

