-- ==== Sys2Proof/Safety.lean ====
section
/-! DEFINITION. What claims are about: the answers of a step, and the invariants of the block. -/

namespace Sys2Proof.Machine

/-- The state a step answers, if it answers one. -/
def nextState : Host.Outcome State Fault Refusal → Option State
  | .next s => some s
  | .fault _ => none
  | .refused _ => none

/-! ## Control: STATUS, the error record, RES_TAG, the engine (10_state.md R24, R26, R27, 70_reset_and_hazards.md R311) -/

/-- STATUS is one of the four of R24; BUSY is 1 exactly while the engine is in a command; the error record is that of an
error exactly after `raise` and zeros otherwise; there is a result exactly after `return`. -/
structure State.ControlOK (s : State) : Prop where
  statusLegal : s.status.legal = true
  busyIff : s.status.busy = true ↔ s.engine ≠ .idle
  errIff : s.status.err = true ↔ s.errKind ≠ .noError
  errZero : s.status.err = false → s.errField = .none ∧ s.errOffset = 0 ∧ s.errWidth = 0
  resultIff : s.status = .doneOk ↔ s.result ≠ .none

/-! ## BUF (10_state.md R21) -/

/-- BUF is in canonical form and BUF_LEN within it (R21: 0 ≤ BUF_LEN ≤ BUF_MAX). -/
def State.MemoryOK (s : State) : Prop := Memory.wf s.params.bufMax s.buf = true ∧ s.bufLen ≤ s.params.bufMax

/-! ## Results (41_header.md R155, 42_name.md R190, 43_question.md R203, 44_resource_record.md R215, 45_message.md R240) -/

/-- The four validity conditions of a header (R155). -/
def Header.Valid (h : Header) : Prop :=
  h.opcode.toNat ≤ Config.opcodeMax ∧ h.z = 0 ∧ h.rcode.toNat ≤ Config.rcodeMax ∧ ¬(h.qr = false ∧ h.aa = true)

/-- A label of a name: 1 to 63 bytes that pass the grammar (R190). -/
def Label.OK (p : Config.Params) (l : Label) : Prop :=
  1 ≤ l.length ∧ l.length ≤ Config.labelMax ∧ labelOK p.aceCaseInsensitive l = true

/-- Every label is good and the wire size is within the bound (R190). -/
def LabelsOK (p : Config.Params) (ls : List Label) : Prop :=
  (∀ l ∈ ls, Label.OK p l) ∧ 1 + (ls.map (fun l => l.length + 1)).sum ≤ Config.nameMax

/-- What every returned name satisfies, apart from where it stood (R190). -/
def Name.OK (p : Config.Params) (n : Name) : Prop := LabelsOK p n.labels ∧ 1 ≤ n.consumed ∧ n.consumed ≤ 256

/-- A returned question (43_question.md R202). -/
def Question.OK (p : Config.Params) (q : Question) : Prop :=
  q.name.OK p ∧ qtypeOK q.qtype.toNat = true ∧ qclassOK q.qclass.toNat = true

/-- A returned record (44_resource_record.md R213, R215, R216). -/
def Record.OK (p : Config.Params) (r : Record) : Prop :=
  r.name.OK p ∧ r.ttl.toNat ≤ Config.ttlMax ∧ (r.rtype.toNat = Config.typeA → r.rdlength.toNat = Config.aRdlength) ∧
  r.rdoff + r.rdlength.toNat ≤ p.bufMax

/-- Every record of a store is good. -/
def MsgStore.OK (p : Config.Params) (t : MsgStore) : Prop :=
  (∀ q ∈ t.questions, q.OK p) ∧ (∀ r ∈ t.answers, r.OK p) ∧ (∀ r ∈ t.authorities, r.OK p) ∧ (∀ r ∈ t.additionals, r.OK p)

/-- A store has as many records as a header's counts say (45_message.md R240). -/
def MsgStore.Counted (t : MsgStore) (h : Header) : Prop :=
  t.questions.length = h.qdcount.toNat ∧ t.answers.length = h.ancount.toNat ∧
  t.authorities.length = h.nscount.toNat ∧ t.additionals.length = h.arcount.toNat

/-- What a result satisfies (R155, R190, R203, R217, R236, R240). -/
def Result.OK (p : Config.Params) : Result → Prop
  | .none => True
  | .raw _ => True
  | .hdr h => h.Valid
  | .nam n => n.OK p
  | .que q k => q.OK p ∧ k = q.name.consumed + Config.qFixed
  | .rr r k => r.OK p ∧ k = r.name.consumed + Config.rrFixed + r.rdlength.toNat
  | .msg m e => m.header.Valid ∧ m.store.OK p ∧ m.store.Counted m.header ∧ Config.hdrBytes ≤ e ∧ e ≤ p.bufMax

/-! ## The engine inside a command (42_name.md R171 to R181, 45_message.md R232, R240) -/

/-- What holds before ReadLabel and FollowPointer run: the length octet has been read at the position and gives the label's
length; or the pointer's two bytes have been (R176, R179). -/
def Walk.StOK (w : Walk) (m : List Byte) : Prop :=
  match w.st with
  | .readLength => True
  | .readLabel len => 1 ≤ len ∧ len ≤ Config.labelMax ∧ w.pos < m.length
  | .followPointer _ at_ => at_ = w.pos ∧ w.pos + 2 ≤ m.length
  | .done => True

/-- The forward count (R181): before Done, `pos − o` and the labels' bytes where no pointer has been followed, and at least
the pointer's two bytes where one has; at Done, the terminator too. -/
def Walk.CountOK (w : Walk) : Prop :=
  match w.jumped with
  | true => 2 ≤ w.fwd ∧ w.fwd ≤ 256
  | false =>
    if w.st = .done then w.fwd = w.total
    else w.pos = w.o + w.fwd ∧ w.fwd + 1 = w.total

/-- A name decode in progress over a message: the labels so far are good, `total` is their wire size (R178), the forward
bytes were read inside the message (R190), and the position is an offset that ERR_OFFSET can hold (60_exceptions.md R265). -/
structure Walk.OK (p : Config.Params) (w : Walk) (m : List Byte) : Prop where
  labels : LabelsOK p w.labels
  total : w.total = 1 + (w.labels.map (fun l => l.length + 1)).sum
  count : w.CountOK
  inside : w.fwd = 0 ∨ w.o + w.fwd ≤ m.length
  st : w.StOK m
  fits : w.pos < 2 ^ p.aw

/-- The sections before the one being filled are full, the ones after it empty, and it has `index` records (R232). -/
def MsgCtx.Filled (c : MsgCtx) : Prop :=
  match c.sec with
  | .questions =>
    c.store.questions.length = c.index ∧ c.index ≤ c.header.qdcount.toNat ∧
    c.store.answers = [] ∧ c.store.authorities = [] ∧ c.store.additionals = []
  | .answers =>
    c.store.questions.length = c.header.qdcount.toNat ∧
    c.store.answers.length = c.index ∧ c.index ≤ c.header.ancount.toNat ∧
    c.store.authorities = [] ∧ c.store.additionals = []
  | .authorities =>
    c.store.questions.length = c.header.qdcount.toNat ∧ c.store.answers.length = c.header.ancount.toNat ∧
    c.store.authorities.length = c.index ∧ c.index ≤ c.header.nscount.toNat ∧ c.store.additionals = []
  | .additionals =>
    c.store.questions.length = c.header.qdcount.toNat ∧ c.store.answers.length = c.header.ancount.toNat ∧
    c.store.authorities.length = c.header.nscount.toNat ∧
    c.store.additionals.length = c.index ∧ c.index ≤ c.header.arcount.toNat

/-- MSG between records (R232, R240): `12 ≤ off ≤ BUF_LEN`. -/
structure MsgCtx.OK (p : Config.Params) (c : MsgCtx) (m : List Byte) : Prop where
  header : c.header.Valid
  store : c.store.OK p
  filled : c.Filled
  low : Config.hdrBytes ≤ c.off
  high : c.off ≤ m.length

/-- What a name is decoded for: a record of MSG starts at MSG's offset and is still demanded by its section's count. -/
def Task.OK (p : Config.Params) (t : Task) (w : Walk) (m : List Byte) : Prop :=
  match t with
  | .name => True
  | .ques => True
  | .rr => True
  | .msg c => c.OK p m ∧ w.o = c.off ∧ c.index < c.count

/-- The engine's own state over a message. -/
def Engine.OK (p : Config.Params) (e : Engine) (m : List Byte) : Prop :=
  match e with
  | .idle => True
  | .accepted => True
  | .naming w task => w.OK p m ∧ task.OK p w m
  | .records c => c.OK p m

/-! ## All of it -/

/-- The invariant of the block: every step from a state that has it answers, if it answers, a state that has it. -/
structure State.Inv (s : State) : Prop where
  params : s.params.Valid
  control : s.ControlOK
  memory : s.MemoryOK
  result : s.result.OK s.params
  engine : s.engine.OK s.params s.message
  errFits : s.errOffset < 2 ^ s.params.aw

/-! ## Runs of the engine alone -/

/-- At most `n` transitions of the engine, until it is idle or stops. -/
def engineRun : Nat → State → Host.Outcome State Fault Refusal
  | 0, s => .next s
  | n + 1, s => match s.engine with
    | .idle => .next s
    | _ => match engineTick s with
      | .next s' => engineRun n s'
      | .fault f => .fault f
      | .refused r => .refused r

/-! ## Turns, bytes and records that statements speak of -/

/-- The engine moves next: the host has no move left, or it waits while BUSY = 1 (log 2). -/
def State.EngineMoves (s : State) : Prop := s.host = [] ∨ ∃ rest, s.host = .await :: rest ∧ s.status.busy = true

/-- The result registers and stores: registers 8 to 24, LBL and MSG_STORE (10_state.md R22, R35). -/
def Reg.isResult : Reg → Bool
  | .cmd | .status | .bufLen | .errKind | .errField | .errOffset | .errWidth | .resTag => false
  | _ => true

/-- The message holds a byte sequence at an offset. -/
def State.Holds (s : State) (off : Nat) (bytes : List Byte) : Prop :=
  off + bytes.length ≤ s.bufLen ∧ ∀ i, (h : i < bytes.length) → s.byteAt (off + i) = bytes[i]

/-- The big-endian 16-bit value of BUF at an offset, be16 (00_scope.md R10). -/
def State.be16 (s : State) (a : Nat) : Nat := 256 * (s.byteAt a).toNat + (s.byteAt (a + 1)).toNat

/-- The big-endian 32-bit value of BUF at an offset, be32 (00_scope.md R10). -/
def State.be32 (s : State) (a : Nat) : Nat :=
  2 ^ 24 * (s.byteAt a).toNat + 2 ^ 16 * (s.byteAt (a + 1)).toNat + 2 ^ 8 * (s.byteAt (a + 2)).toNat + (s.byteAt (a + 3)).toNat

/-- The wire bytes that a label list takes, its terminator not counted. -/
def labelsLen (labels : List Label) : Nat := (labels.map (fun l => l.length + 1)).sum

/-- Questions that stand one after the other in a message, from an offset to an end (45_message.md R231, R240). -/
def QuestionsAt (p : Config.Params) (m : List Byte) : Nat → List Question → Nat → Prop
  | off, [], e => e = off
  | off, q :: qs, e => off < m.length ∧ ∃ k, decodeQuestion p m off = .ok (q, k) ∧ QuestionsAt p m (off + k) qs e

/-- Records that stand one after the other in a message, from an offset to an end. -/
def RecordsAt (p : Config.Params) (m : List Byte) : Nat → List Record → Nat → Prop
  | off, [], e => e = off
  | off, r :: rs, e => off < m.length ∧ ∃ k, decodeRecord p m off = .ok (r, k) ∧ RecordsAt p m (off + k) rs e

end Sys2Proof.Machine
end

