-- ==== Sys2Proof/Certificates/Slice0/Obligations.lean ====
section
/-! DEFINITION. The statements about the block, for the provers. Each docstring names the rules of spec/ it formalises, or the
sections it rests on. "log n" is notes/assumptions/n.md. -/

open Sys2Proof Sys2Proof.Machine

/-! ## Fetch, decode, encode -/

/-- A step of the engine is exec of the instruction its code decodes to, and the step adds nothing: an accepted command word
(10_state.md R41), and the octets at the position of a name decode in ReadLength (42_name.md R173), whether the host waits or
lets one transition pass (log 1). Where no octet stands at the position, or a pointer's second octet does not, the step raises
TooShort for the octet that is missing (42_name.md R173, R179). -/
def Obligations.StepRunsTheDecodedInstruction : Prop :=
  (∀ (s : State) (i : Instr), s.EngineMoves → s.engine = .accepted → decodeCommand s.params s.cmd = some i →
    step s = exec i s) ∧
  (∀ (s : State) (w : Walk) (task : Task), s.EngineMoves → s.engine = .naming w task → w.st = .readLength →
    (∀ (i : Instr) (rest : List Byte), decodeOctets (slice s.message w.pos 2) = some (i, rest) → step s = exec i s) ∧
    (s.bufLen ≤ w.pos → step s = .next (s.raise .tooShort .nameLen w.pos 1)) ∧
    (w.pos + 1 = s.bufLen → 0xC0 ≤ (s.byteAt w.pos).toNat → step s = .next (s.raise .tooShort .namePtr2 (w.pos + 1) 1))) ∧
  (∀ (s : State) (w : Walk) (task : Task) (moves : List HostMove), s.host = .tick :: moves → s.engine = .naming w task →
    w.st = .readLength →
    (∀ (i : Instr) (rest : List Byte), decodeOctets (slice s.message w.pos 2) = some (i, rest) →
      step s = exec i (s.withHost moves)) ∧
    (s.bufLen ≤ w.pos → step s = .next ((s.withHost moves).raise .tooShort .nameLen w.pos 1)) ∧
    (w.pos + 1 = s.bufLen → 0xC0 ≤ (s.byteAt w.pos).toNat →
      step s = .next ((s.withHost moves).raise .tooShort .namePtr2 (w.pos + 1) 1)))

/-- Words and octets written out from 30_encoding.md R92, R99 and 95_test_vectors.md 2.1 decode to what they stand for. -/
def Obligations.WrittenWordsDecode : Prop :=
  decodeCommand Config.hw 0x10000004 = some (.rd8 4) ∧ decodeCommand Config.hw 0x2000000C = some (.rd16 12) ∧
  decodeCommand Config.hw 0x30FFFFFF = some (.rd32 16777215) ∧ decodeCommand Config.hw 0x40000000 = some .hdr ∧
  decodeCommand Config.hw 0x5000001D = some (.name 29) ∧ decodeCommand Config.hw 0x6000000C = some (.ques 12) ∧
  decodeCommand Config.hw 0x7000001D = some (.rr 29) ∧ decodeCommand Config.hw 0x80000000 = some .msg ∧
  decodeCommand Config.hw 0x00000000 = none ∧ decodeCommand Config.hw 0x90000000 = none ∧ decodeCommand Config.hw 0xF0000000 = none ∧
  decodeCommand Config.hw 0x5100001D = none ∧ decodeCommand Config.hw 0x40000001 = none ∧ decodeCommand Config.hw 0x8000000C = none ∧
  decodeCommand Config.hw 0x1F000000 = none ∧
  decodeOctets [0x00, 0xAB] = some (.octTerm, [0xAB]) ∧ decodeOctets [0x3F] = some (.octLabel 63, []) ∧
  decodeOctets [0x40] = some (.octRsv01 0, []) ∧ decodeOctets [0xBF] = some (.octRsv10 63, []) ∧
  decodeOctets [0xC0, 0x0C] = some (.octPtr 12, []) ∧ decodeOctets [0xFF, 0xFF] = some (.octPtr 16383, []) ∧
  decodeOctets [0xC0] = none

/-- Decode and encode agree, for every instruction with every operand its encoding admits, in both directions
(30_encoding.md Part A and B.2), under every configuration whose OFFSET fits beside OPC in a word, this hardware's among them
(AW other than 24: log 15). -/
def Obligations.DecodeAndEncodeAgree : Prop :=
  Config.hw.aw = 24 ∧
  (∀ (p : Config.Params) (i : Instr), p.aw ≤ 28 → i.wellFormed p = true → decode p (encode i) = some i) ∧
  (∀ (p : Config.Params) (w : Word) (i : Instr), p.aw ≤ 28 → decodeCommand p w = some i →
    i.wellFormed p = true ∧ i.isCommand = true ∧ encode i = .command w) ∧
  (∀ (p : Config.Params) (bs rest : List Byte) (i : Instr), decodeOctets bs = some (i, rest) →
    i.wellFormed p = true ∧ i.isCommand = false ∧ ∃ os, encode i = .octets os ∧ bs = os ++ rest)

/-- The opcode map (30_encoding.md R92): a word is a row's command exactly when `w & mask = match`. -/
def Obligations.CommandWordsDecodeByMatchAndMask : Prop :=
  ∀ (w : Word) (off : Nat),
    (decodeCommand Config.hw w = some (.rd8 off) ↔ w &&& 0xFF000000 = 0x10000000 ∧ off = w.toNat % 2 ^ 24) ∧
    (decodeCommand Config.hw w = some (.rd16 off) ↔ w &&& 0xFF000000 = 0x20000000 ∧ off = w.toNat % 2 ^ 24) ∧
    (decodeCommand Config.hw w = some (.rd32 off) ↔ w &&& 0xFF000000 = 0x30000000 ∧ off = w.toNat % 2 ^ 24) ∧
    (decodeCommand Config.hw w = some .hdr ↔ w &&& 0xFFFFFFFF = 0x40000000) ∧
    (decodeCommand Config.hw w = some (.name off) ↔ w &&& 0xFF000000 = 0x50000000 ∧ off = w.toNat % 2 ^ 24) ∧
    (decodeCommand Config.hw w = some (.ques off) ↔ w &&& 0xFF000000 = 0x60000000 ∧ off = w.toNat % 2 ^ 24) ∧
    (decodeCommand Config.hw w = some (.rr off) ↔ w &&& 0xFF000000 = 0x70000000 ∧ off = w.toNat % 2 ^ 24) ∧
    (decodeCommand Config.hw w = some .msg ↔ w &&& 0xFFFFFFFF = 0x80000000)

/-- Illegal words (30_encoding.md R93): at most one row matches; the words that match none are the ones R93 lists; such a
word completes with IllegalCommand(F_CMD, 0, 0), whatever BUF holds. -/
def Obligations.IllegalWordsRaiseIllegalCommand : Prop :=
  (∀ w : Word, (commandRows.filter (fun r => r.holds w)).length ≤ 1) ∧
  (∀ w : Word, decodeCommand Config.hw w = none ↔ ∀ r ∈ commandRows, r.holds w = false) ∧
  (∀ w : Word, decodeCommand Config.hw w = none ↔
    w.toNat / 2 ^ 28 = 0 ∨ 9 ≤ w.toNat / 2 ^ 28 ∨ w.toNat / 2 ^ 24 % 16 ≠ 0 ∨
    ((w.toNat / 2 ^ 28 = 4 ∨ w.toNat / 2 ^ 28 = 8) ∧ w.toNat % 2 ^ 24 ≠ 0)) ∧
  (∀ s : State, s.EngineMoves → s.engine = .accepted → decodeCommand s.params s.cmd = none →
    step s = .next (s.raise .illegalCommand .cmd 0 0))

/-! ## Reset and the host -/

/-- After reset (10_state.md R44): every register at its value, every result register and store without a value, no byte of
BUF readable; and a command run with BUF_LEN = 0 reports TooShort. -/
def Obligations.ResetLeavesTheValuesOfTheTable : Prop :=
  State.reset.status.word = 0 ∧ State.reset.cmd = 0 ∧ State.reset.bufLen = 0 ∧ State.reset.message = [] ∧
  State.reset.errKind.code = 0 ∧ State.reset.errField.code = 0 ∧ State.reset.errOffset = 0 ∧ State.reset.errWidth = 0 ∧
  State.reset.result.tag = 0 ∧ (∀ r : Reg, r.isResult = true → State.reset.readReg r = none) ∧
  State.reset.engine = .idle ∧ step State.reset = .next State.reset ∧
  (∀ (s : State) (i : Instr), s.bufLen = 0 → i.isCommand = true →
    ∃ f off w, exec i s = .next (s.raise .tooShort f off w))

/-- The hardware reset (70_reset_and_hazards.md R300, R302), asserted at any time, a running command included: the block is
as after reset. The clauses on the model's own fields are its choices: the rest of the host's moves is kept (log 2), what the
host saw too (log 12), and the count of resets grows, so that the unwritten bytes are new free values (log 3). -/
def Obligations.HardResetAbandonsAndRestores : Prop :=
  ∀ (s : State) (rest : List HostMove), s.host = .reset :: rest →
    step s = .next { State.reset with params := s.params, host := rest, hostSaw := s.hostSaw, resets := s.resets + 1 }

/-- START (10_state.md R41): dropped while BUSY = 1, as are the host's writes of BUF and BUF_LEN; else CMD is written, no result
register holds a value, the error record is zero, BUSY is 1, and the engine decodes the word and executes it to completion. -/
def Obligations.StartIsAcceptedOrDropped : Prop :=
  (∀ (s : State) (mv : HostMove) (rest : List HostMove), s.host = mv :: rest → s.status.busy = true →
    ((∃ w, mv = .start w) ∨ (∃ bytes, mv = .load bytes) ∨ (∃ a b, mv = .writeByte a b) ∨ (∃ n, mv = .writeLen n)) →
    step s = .next { s with host := rest }) ∧
  (∀ (s : State) (w : Word) (rest : List HostMove), s.host = .start w :: rest → s.status.busy = false →
    ∃ t, step s = .next t ∧ t.cmd = w ∧ t.result.tag = 0 ∧ (∀ r : Reg, r.isResult = true → t.readReg r = none) ∧
      t.errKind.code = 0 ∧ t.errField.code = 0 ∧ t.errOffset = 0 ∧ t.errWidth = 0 ∧ t.status = ⟨true, false, false⟩ ∧
      t.bufLen = s.bufLen ∧ t.buf = s.buf ∧ t.host = rest ∧
      engineTurn t = match decodeCommand s.params w with
        | some i => exec i t
        | none => .next (t.raise .illegalCommand .cmd 0 0))

/-- LOAD (10_state.md R40): the message is then the bytes loaded, and STATUS, the result and the error record are unchanged. That
no byte of BUF past them changes is the model's reading (DEDUCED, log 9), which R40 does not say. -/
def Obligations.LoadMakesTheMessage : Prop :=
  ∀ (s : State) (bytes : List Byte) (rest : List HostMove), s.host = .load bytes :: rest → s.status.busy = false →
    bytes.length ≤ s.params.bufMax →
    ∃ t, step s = .next t ∧ t.bufLen = bytes.length ∧ t.message = bytes ∧
      (∀ a, bytes.length ≤ a → t.byteAt a = s.byteAt a) ∧
      t.status = s.status ∧ t.result = s.result ∧ t.errKind = s.errKind ∧ t.errField = s.errField ∧
      t.errOffset = s.errOffset ∧ t.errWidth = s.errWidth ∧ t.cmd = s.cmd ∧ t.engine = s.engine ∧ t.host = rest

/-- READ (10_state.md R42): the block is left as it was, the model records what the host saw (log 12), and a register that
holds no value is refused (log 4); while BUSY = 1 the host reads STATUS = busy, RES_TAG = 0 and a zero error record. -/
def Obligations.ReadChangesNothing : Prop :=
  (∀ (s : State) (r : Reg) (rest : List HostMove), s.host = .read r :: rest →
    (∀ v, s.readReg r = some v → step s = .next { s with host := rest, hostSaw := some v }) ∧
    (s.readReg r = none → step s = .refused (.holdsNoValue r))) ∧
  (∀ s : State, s.ControlOK → s.status.busy = true →
    s.readReg .status = some (.word 1) ∧ s.readReg .resTag = some (.word 0) ∧ s.readReg .errKind = some (.word 0) ∧
    s.readReg .errField = some (.word 0) ∧ s.readReg .errOffset = some (.word 0) ∧ s.readReg .errWidth = some (.word 0) ∧
    ∀ r : Reg, r.isResult = true → s.readReg r = none)

/-- A result register holds a value exactly under the tags that cover it (10_state.md R27 to R33, R35). -/
def Obligations.ResultRegistersHoldValuesUnderTheirTags : Prop :=
  ∀ s : State,
    ((s.readReg .resValue).isSome ↔ s.result.tag = 1) ∧
    ((s.readReg .resConsumed).isSome ↔ s.result.tag = 3 ∨ s.result.tag = 4 ∨ s.result.tag = 5 ∨ s.result.tag = 6) ∧
    (∀ r ∈ [Reg.hId, .hFlags, .hQdcount, .hAncount, .hNscount, .hArcount],
      (s.readReg r).isSome ↔ s.result.tag = 2 ∨ s.result.tag = 6) ∧
    (∀ r ∈ [Reg.nNlabels, .nWirelen, .lbl],
      (s.readReg r).isSome ↔ s.result.tag = 3 ∨ s.result.tag = 4 ∨ s.result.tag = 5) ∧
    (∀ r ∈ [Reg.qQtype, .qQclass], (s.readReg r).isSome ↔ s.result.tag = 4) ∧
    (∀ r ∈ [Reg.rType, .rClass, .rTtl, .rRdlength, .rRdoff], (s.readReg r).isSome ↔ s.result.tag = 5) ∧
    ((s.readReg .msgStore).isSome ↔ s.result.tag = 6)

/-- A result lasts until the next START (70_reset_and_hazards.md R309), or a reset: no other step takes or changes it. -/
def Obligations.ResultLastsUntilTheNextStart : Prop :=
  ∀ s t : State, s.ControlOK → s.result ≠ .none → step s = .next t →
    t.result = s.result ∨ (∃ w rest, s.host = .start w :: rest) ∨ (∃ rest, s.host = .reset :: rest)

/-! ## How a command ends -/

/-- `return v` (10_state.md R36). -/
def Obligations.ReturnWritesResultAndStatus : Prop :=
  ∀ (s : State) (v : Result),
    (s.complete v).result = v ∧ (s.complete v).errKind.code = 0 ∧ (s.complete v).errField.code = 0 ∧
    (s.complete v).errOffset = 0 ∧ (s.complete v).errWidth = 0 ∧ (s.complete v).status = ⟨false, true, false⟩ ∧
    (s.complete v).cmd = s.cmd ∧ (s.complete v).bufLen = s.bufLen ∧ (s.complete v).buf = s.buf

/-- `raise K(F, off, w)` (60_exceptions.md section 1): the error record, no result register with a value, STATUS done-error,
the engine idle, and BUF, BUF_LEN and CMD as they were. -/
def Obligations.RaiseWritesTheErrorRecord : Prop :=
  ∀ (s : State) (k : ErrKind) (f : ErrField) (off w : Nat), w < 2 ^ 16 →
    (s.raise k f off w).errKind = k ∧ (s.raise k f off w).errField = f ∧ (s.raise k f off w).errOffset = off ∧
    (s.raise k f off w).errWidth.toNat = w ∧ (s.raise k f off w).result.tag = 0 ∧
    (∀ r : Reg, r.isResult = true → (s.raise k f off w).readReg r = none) ∧
    (s.raise k f off w).status = ⟨false, true, true⟩ ∧ (s.raise k f off w).engine = .idle ∧
    (s.raise k f off w).buf = s.buf ∧ (s.raise k f off w).bufLen = s.bufLen ∧ (s.raise k f off w).cmd = s.cmd

/-- Every command, on every message, ends: with a result and DONE = 1, ERR = 0, or with an error and DONE = 1, ERR = 1
(70_reset_and_hazards.md section 5, 60_exceptions.md R269: no hang, no crash, no partial result). -/
def Obligations.EveryCommandEnds : Prop :=
  ∀ (i : Instr) (s : State), i.isCommand = true →
    ∃ t, exec i s = .next t ∧ t.engine = .idle ∧
      ((t.status = .doneOk ∧ t.result ≠ .none ∧ t.errKind = .noError) ∨
       (t.status = .doneError ∧ t.result = .none ∧ t.errKind ≠ .noError))

/-- The frame of all thirteen instructions (20_memory.md section 1, 60_exceptions.md section 1): what an instruction that
answers a next state leaves as it was: CMD, BUF_LEN, every byte of BUF, the parameters, and the model's own fields. -/
def Obligations.InstructionsLeaveBufferAndCommandAlone : Prop :=
  ∀ (i : Instr) (s t : State), exec i s = .next t →
    t.cmd = s.cmd ∧ t.bufLen = s.bufLen ∧ (∀ a, t.byteAt a = s.byteAt a) ∧ t.message = s.message ∧
    t.params = s.params ∧ t.host = s.host ∧ t.hostSaw = s.hostSaw ∧ t.resets = s.resets

/-- The frame of the octet classes (42_name.md section 2): where the walk goes on, STATUS, the error record, the result, the
start of the name and what it is decoded for stay, and only the cursor's variables change. -/
def Obligations.OctetsChangeOnlyTheWalk : Prop :=
  ∀ (i : Instr) (s t : State), i.isCommand = false → exec i s = .next t → t.engine ≠ .idle →
    ∃ w w' task, s.engine = .naming w task ∧ t.engine = .naming w' task ∧ w'.o = w.o ∧
      t.status = s.status ∧ t.errKind = s.errKind ∧ t.errField = s.errField ∧ t.errOffset = s.errOffset ∧
      t.errWidth = s.errWidth ∧ t.result = s.result

/-- Only the host writes BUF, while BUSY = 0, by LOAD or byte by byte, and a reset leaves it unspecified (20_memory.md
section 1, 10_state.md R40). -/
def Obligations.OnlyTheIdleHostChangesTheBuffer : Prop :=
  ∀ s t : State, step s = .next t → (∃ a, t.byteAt a ≠ s.byteAt a) →
    (∃ rest, s.host = .reset :: rest) ∨
    (s.status.busy = false ∧
      ((∃ bytes rest, s.host = .load bytes :: rest) ∨ (∃ a b rest, s.host = .writeByte a b :: rest)))

/-- No hidden state (10_state.md R43): of one block, whose parameters are fixed, the outcome is a function of the command word,
BUF_LEN and BUF[0..BUF_LEN) alone. -/
def Obligations.OutcomeIsAFunctionOfWordAndMessage : Prop :=
  ∀ s s' t : State, s.EngineMoves → s'.EngineMoves → s.engine = .accepted → s'.engine = .accepted →
    s.params = s'.params → s.cmd = s'.cmd → s.bufLen = s'.bufLen → (∀ a < s.bufLen, s.byteAt a = s'.byteAt a) →
    step s = .next t →
    ∃ t', step s' = .next t' ∧ t'.result = t.result ∧ t'.status = t.status ∧ t'.errKind = t.errKind ∧
      t'.errField = t.errField ∧ t'.errOffset = t.errOffset ∧ t'.errWidth = t.errWidth

/-- The kinds of error each command can report (60_exceptions.md section 1). -/
def Obligations.KindsEachCommandReports : Prop :=
  ∀ (s t : State) (off : Nat), t.status = .doneError →
    ((exec (.rd8 off) s = .next t ∨ exec (.rd16 off) s = .next t ∨ exec (.rd32 off) s = .next t) → t.errKind = .tooShort) ∧
    (exec .hdr s = .next t → t.errKind ∈ [ErrKind.tooShort, .invalidValue, .inconsistentFields]) ∧
    ((exec (.name off) s = .next t ∨ exec (.ques off) s = .next t) →
      t.errKind ∈ [ErrKind.tooShort, .outOfBounds, .invalidValue, .invalidLabelSyntax, .recursivePointer]) ∧
    (exec (.rr off) s = .next t →
      t.errKind ∈ [ErrKind.tooShort, .outOfBounds, .invalidValue, .invalidLabelSyntax, .recursivePointer,
        .inconsistentFields]) ∧
    (exec .msg s = .next t → t.errKind ≠ .noError ∧ t.errKind ≠ .illegalCommand)

/-- The error record holds the offset and width that were raised, uncut (60_exceptions.md section 1, R265's ranges): every
offset is below 2^AW and every width at most 65535. -/
def Obligations.RaisedOffsetsAndWidthsFit : Prop :=
  ∀ (p : Config.Params) (m : List Byte) (o : Nat) (k : ErrKind) (f : ErrField) (off w : Nat), p.Valid →
    m.length ≤ p.bufMax → o < 2 ^ p.aw →
    (decodeHeader m = .error (.raise k f off w) ∨ decodeName p m o = .error (.raise k f off w) ∨
      decodeQuestion p m o = .error (.raise k f off w) ∨ decodeRecord p m o = .error (.raise k f off w) ∨
      decodeMessage p m = .error (.raise k f off w) ∨ (∃ n ≤ 4, memRead m o n .raw = .error (.raise k f off w))) →
    off < 2 ^ p.aw ∧ w ≤ 65535

/-! ## The primitive reader -/

/-- `MemRead(a, n) @F` (20_memory.md R66). -/
def Obligations.MemReadIsBigEndianInBounds : Prop :=
  ∀ (m : List Byte) (a n : Nat) (f : ErrField),
    (m.length < a + n → memRead m a n f = .error (.raise .tooShort f a n)) ∧
    (a + n ≤ m.length →
      memRead m a n f = .ok (∑ i ∈ Finset.range n, (m.getD (a + i) 0).toNat * 256 ^ (n - 1 - i)) ∧
      (∑ i ∈ Finset.range n, (m.getD (a + i) 0).toNat * 256 ^ (n - 1 - i)) < 256 ^ n)

/-- `MemSpan(a, n, K) @F` (20_memory.md section 3). -/
def Obligations.MemSpanIsTheBytesInBounds : Prop :=
  ∀ (m : List Byte) (a n : Nat) (k : ErrKind) (f : ErrField),
    (m.length < a + n → memSpan m a n k f = .error (.raise k f a n)) ∧
    (a + n ≤ m.length → ∃ span, memSpan m a n k f = .ok span ∧ span.length = n ∧ ∀ i < n, span[i]? = m[a + i]?)

/-- RD8, RD16, RD32 (40_primitive_reader.md R131, R132, R133): encoding, value, error, and the rules' examples. -/
def Obligations.PrimitiveReadsGiveTheValueOrTooShort : Prop :=
  (∀ off < 2 ^ 24,
    decodeCommand Config.hw (BitVec.ofNat 32 (0x10000000 + off)) = some (.rd8 off) ∧
    decodeCommand Config.hw (BitVec.ofNat 32 (0x20000000 + off)) = some (.rd16 off) ∧
    decodeCommand Config.hw (BitVec.ofNat 32 (0x30000000 + off)) = some (.rd32 off)) ∧
  (∀ (s : State) (off : Nat),
    (off + 1 ≤ s.bufLen →
      exec (.rd8 off) s = .next (s.complete (.raw (BitVec.ofNat 32 (s.byteAt off).toNat)))) ∧
    (s.bufLen < off + 1 → exec (.rd8 off) s = .next (s.raise .tooShort .raw off 1)) ∧
    (off + 2 ≤ s.bufLen →
      exec (.rd16 off) s = .next (s.complete (.raw (BitVec.ofNat 32 (s.be16 off))))) ∧
    (s.bufLen < off + 2 → exec (.rd16 off) s = .next (s.raise .tooShort .raw off 2)) ∧
    (off + 4 ≤ s.bufLen →
      exec (.rd32 off) s = .next (s.complete (.raw (BitVec.ofNat 32 (s.be32 off))))) ∧
    (s.bufLen < off + 4 → exec (.rd32 off) s = .next (s.raise .tooShort .raw off 4))) ∧
  (∀ s : State, s.message = [1, 2, 3, 4, 5] →
    exec (.rd8 4) s = .next (s.complete (.raw 5)) ∧ exec (.rd8 5) s = .next (s.raise .tooShort .raw 5 1) ∧
    exec (.rd16 0) s = .next (s.complete (.raw 0x0102)) ∧ exec (.rd16 4) s = .next (s.raise .tooShort .raw 4 2) ∧
    exec (.rd32 1) s = .next (s.complete (.raw 0x02030405)) ∧ exec (.rd32 2) s = .next (s.raise .tooShort .raw 2 4))

/-- The width law (40_primitive_reader.md, its last rule): a wide read is made of the narrower reads. -/
def Obligations.WideReadsAreMadeOfNarrowOnes : Prop :=
  ∀ (s : State) (off : Nat),
    (off + 4 ≤ s.bufLen →
      ∃ v hi lo : Word, exec (.rd32 off) s = .next (s.complete (.raw v)) ∧ exec (.rd16 off) s = .next (s.complete (.raw hi)) ∧
        exec (.rd16 (off + 2)) s = .next (s.complete (.raw lo)) ∧ v.toNat = 65536 * hi.toNat + lo.toNat) ∧
    (off + 2 ≤ s.bufLen →
      ∃ v hi lo : Word, exec (.rd16 off) s = .next (s.complete (.raw v)) ∧ exec (.rd8 off) s = .next (s.complete (.raw hi)) ∧
        exec (.rd8 (off + 1)) s = .next (s.complete (.raw lo)) ∧ v.toNat = 256 * hi.toNat + lo.toNat)

/-! ## The header -/

/-- HDR (41_header.md R151, with the error records of R158): length, then the four checks in their order, then the header
with every field read from its bits; and the rule's example. Inside MSG (R152) the header step is the same decode, of the first
twelve bytes of a message that has them, and TooShort otherwise. -/
def Obligations.HeaderIsCheckedInOrderThenReturned : Prop :=
  decodeCommand Config.hw 0x40000000 = some .hdr ∧
  (∀ m : List Byte,
    (m.length < 12 → headerOfMessage m = .error (.raise .tooShort .hdrLen 0 12)) ∧
    (12 ≤ m.length → headerOfMessage m = decodeHeader (m.take 12))) ∧
  (∀ (s : State) (h : Header), decodeHeader s.message = .ok h → exec .hdr s = .next (s.complete (.hdr h))) ∧
  (∀ (s : State) (e : Stop), decodeHeader s.message = .error e → exec .hdr s = s.stop e) ∧
  ∀ s : State,
    (s.bufLen < 12 → exec .hdr s = .next (s.raise .tooShort .hdrLen 0 12)) ∧
    (12 < s.bufLen → exec .hdr s = .next (s.raise .invalidValue .hdrLen 0 12)) ∧
    (s.bufLen = 12 →
      (2 < (s.byteAt 2).toNat / 8 % 16 → exec .hdr s = .next (s.raise .invalidValue .hdrOpcode 2 1)) ∧
      ((s.byteAt 2).toNat / 8 % 16 ≤ 2 → (s.byteAt 2).toNat / 128 = 0 → (s.byteAt 2).toNat / 4 % 2 = 1 →
        exec .hdr s = .next (s.raise .inconsistentFields .hdrAa 2 1)) ∧
      ((s.byteAt 2).toNat / 8 % 16 ≤ 2 → ¬((s.byteAt 2).toNat / 128 = 0 ∧ (s.byteAt 2).toNat / 4 % 2 = 1) →
        ((s.byteAt 3).toNat / 16 % 8 ≠ 0 → exec .hdr s = .next (s.raise .invalidValue .hdrZ 3 1)) ∧
        ((s.byteAt 3).toNat / 16 % 8 = 0 → 5 < (s.byteAt 3).toNat % 16 →
          exec .hdr s = .next (s.raise .invalidValue .hdrRcode 3 1)) ∧
        ((s.byteAt 3).toNat / 16 % 8 = 0 → (s.byteAt 3).toNat % 16 ≤ 5 →
          ∃ h : Header, exec .hdr s = .next (s.complete (.hdr h)) ∧
            h.id.toNat = s.be16 0 ∧ (h.qr = true ↔ (s.byteAt 2).toNat / 128 = 1) ∧
            h.opcode.toNat = (s.byteAt 2).toNat / 8 % 16 ∧ (h.aa = true ↔ (s.byteAt 2).toNat / 4 % 2 = 1) ∧
            (h.tc = true ↔ (s.byteAt 2).toNat / 2 % 2 = 1) ∧ (h.rd = true ↔ (s.byteAt 2).toNat % 2 = 1) ∧
            (h.ra = true ↔ (s.byteAt 3).toNat / 128 = 1) ∧ h.z.toNat = (s.byteAt 3).toNat / 16 % 8 ∧
            h.rcode.toNat = (s.byteAt 3).toNat % 16 ∧ h.qdcount.toNat = s.be16 4 ∧ h.ancount.toNat = s.be16 6 ∧
            h.nscount.toNat = s.be16 8 ∧ h.arcount.toNat = s.be16 10))) ∧
    (s.message = [0x30, 0x39, 0x01, 0x00, 0x00, 0x01, 0x00, 0x00, 0x00, 0x00, 0x00, 0x00] →
      exec .hdr s = .next (s.complete (.hdr ⟨12345, false, 0, false, false, true, false, 0, 0, 1, 0, 0, 0⟩)))

/-- H_FLAGS (10_state.md section 3, 30_encoding.md B.1): each field at its bits, and for an unpacked header the big-endian word
of wire bytes 2 and 3. -/
def Obligations.HeaderFlagsAreTheWireWord : Prop :=
  (∀ h : Header,
    h.flags.getLsbD 15 = h.qr ∧ h.flags.extractLsb' 11 4 = h.opcode ∧ h.flags.getLsbD 10 = h.aa ∧
    h.flags.getLsbD 9 = h.tc ∧ h.flags.getLsbD 8 = h.rd ∧ h.flags.getLsbD 7 = h.ra ∧
    h.flags.extractLsb' 4 3 = h.z ∧ h.flags.extractLsb' 0 4 = h.rcode) ∧
  (∀ m : List Byte, (unpackHeader m).flags.toNat = 256 * (m.getD 2 0).toNat + (m.getD 3 0).toNat)

/-- What every returned header satisfies, and how many pairs of bytes 2 and 3 are accepted, whatever the other ten bytes
hold (41_header.md). -/
def Obligations.AcceptedHeadersAreValid : Prop :=
  (∀ (m : List Byte) (h : Header), decodeHeader m = .ok h → h.Valid ∧ h.flags.extractLsb' 4 3 = 0) ∧
  (∀ b0 b1 b4 b5 b6 b7 b8 b9 b10 b11 : Byte,
    ((List.range 65536).filter (fun p =>
      match decodeHeader [b0, b1, BitVec.ofNat 8 (p / 256), BitVec.ofNat 8 p, b4, b5, b6, b7, b8, b9, b10, b11] with
      | .ok _ => true
      | .error _ => false)).length = 432)

/-- The header round trip, both ways (46_reference_encoders.md, 41_header.md). -/
def Obligations.HeaderRoundTrips : Prop :=
  (∀ (m : List Byte) (h : Header), decodeHeader m = .ok h → encodeHeader h = m) ∧
  (∀ h : Header, h.Valid → decodeHeader (encodeHeader h) = .ok h)

/-! ## Names -/

/-- The label grammar (42_name.md R177), for both values of ACE_CASE_INSENSITIVE (log 8), with the rule's examples under
this hardware's. -/
def Obligations.LabelGrammar : Prop :=
  (∀ (ci : Bool) (l : Label), 1 ≤ l.length → l.length ≤ 63 →
    (labelOK ci l = true ↔
      (∀ b ∈ l, (0x41 ≤ b.toNat ∧ b.toNat ≤ 0x5A) ∨ (0x61 ≤ b.toNat ∧ b.toNat ≤ 0x7A) ∨
        (0x30 ≤ b.toNat ∧ b.toNat ≤ 0x39) ∨ b.toNat = 0x2D) ∧
      l[0]? ≠ some 0x2D ∧ l[l.length - 1]? ≠ some 0x2D ∧
      (4 ≤ l.length → l[2]? = some 0x2D → l[3]? = some 0x2D →
        l.take 4 = [0x78, 0x6E, 0x2D, 0x2D] ∨
        (ci = true ∧ (l.take 4 = [0x58, 0x4E, 0x2D, 0x2D] ∨ l.take 4 = [0x58, 0x6E, 0x2D, 0x2D] ∨
          l.take 4 = [0x78, 0x4E, 0x2D, 0x2D]))))) ∧
  Config.hw.aceCaseInsensitive = false ∧
  labelOK false [0x2D] = false ∧ labelOK false [0x78, 0x6E, 0x2D, 0x2D] = false ∧
  labelOK false [0x78, 0x6E, 0x2D, 0x2D, 0x61] = true ∧ labelOK false [0x58, 0x4E, 0x2D, 0x2D, 0x61] = false ∧
  labelOK false [0x5F, 0x64, 0x6D, 0x61, 0x72, 0x63] = false ∧ labelOK false [0x61, 0x2D, 0x2D, 0x62] = true ∧
  labelOK false [0x61, 0x62, 0x2D, 0x2D, 0x63] = false ∧ labelOK false [0x61, 0x62, 0x63, 0x2D, 0x2D, 0x64] = true

/-- OCT.TERM (42_name.md R174). -/
def Obligations.TerminatorEndsTheName : Prop :=
  ∀ (s : State) (w : Walk) (task : Task), s.engine = .naming w task → w.st = .readLength →
    (w.jumped = false →
      exec .octTerm s = .next { s with engine := .naming { w with fwd := w.fwd + 1, st := .done } task }) ∧
    (w.jumped = true → exec .octTerm s = .next { s with engine := .naming { w with st := .done } task })

/-- OCT.LABEL (42_name.md R176): ReadLabel(L) in its order: bounds, grammar, size bound, then the label is appended and the
cursor moves. -/
def Obligations.LabelOctetReadsTheLabel : Prop :=
  ∀ (s : State) (w : Walk) (task : Task) (len : BitVec 6), s.engine = .naming w task → w.st = .readLength → len ≠ 0 →
    (s.bufLen < w.pos + 1 + len.toNat →
      exec (.octLabel len) s = .next (s.raise .outOfBounds .nameLabel (w.pos + 1) len.toNat)) ∧
    (∀ c : Label, s.Holds (w.pos + 1) c → c.length = len.toNat →
      (labelOK s.params.aceCaseInsensitive c = false →
        exec (.octLabel len) s = .next (s.raise .invalidLabelSyntax .nameLabel (w.pos + 1) len.toNat)) ∧
      (labelOK s.params.aceCaseInsensitive c = true → 255 < w.total + len.toNat + 1 →
        exec (.octLabel len) s = .next (s.raise .invalidValue .nameTotal w.pos (len.toNat + 1))) ∧
      (labelOK s.params.aceCaseInsensitive c = true → w.total + len.toNat + 1 ≤ 255 →
        exec (.octLabel len) s = .next { s with engine := .naming { w with
          labels := w.labels ++ [c], total := w.total + len.toNat + 1,
          fwd := if w.jumped then w.fwd else w.fwd + len.toNat + 1, pos := w.pos + len.toNat + 1 } task }))

/-- OCT.RSV01 and OCT.RSV10 (42_name.md R175): every octet 0x40..0xBF is one of the two, and each fails as an invalid length
field. -/
def Obligations.ReservedOctetsAreInvalidLengths : Prop :=
  (∀ (b : Byte) (rest : List Byte), 0x40 ≤ b.toNat → b.toNat ≤ 0xBF →
    ∃ any, decodeOctets (b :: rest) = some (.octRsv01 any, rest) ∨ decodeOctets (b :: rest) = some (.octRsv10 any, rest)) ∧
  (∀ (s : State) (w : Walk) (task : Task) (any : BitVec 6), s.engine = .naming w task → w.st = .readLength →
    exec (.octRsv01 any) s = .next (s.raise .invalidValue .nameLen w.pos 1) ∧
    exec (.octRsv10 any) s = .next (s.raise .invalidValue .nameLen w.pos 1)) ∧
  (∀ s : State, s.Holds 0 [0x40] → exec (.name 0) s = .next (s.raise .invalidValue .nameLen 0 1))

/-- OCT.PTR and FollowPointer (42_name.md R180; the second octet's read is R179's): hop limit, backward, in the buffer, then
the jump. -/
def Obligations.PointerIsFollowedOnceAndBackward : Prop :=
  ∀ (s : State) (w : Walk) (task : Task) (target : BitVec 14), s.engine = .naming w task → w.st = .readLength →
    (s.bufLen < w.pos + 2 → exec (.octPtr target) s = .next (s.raise .tooShort .namePtr2 (w.pos + 1) 1)) ∧
    (w.pos + 2 ≤ s.bufLen →
      (w.jumped = true → exec (.octPtr target) s = .next (s.raise .recursivePointer .namePtr w.pos 2)) ∧
      (w.jumped = false → w.o ≤ target.toNat → exec (.octPtr target) s = .next (s.raise .invalidValue .namePtr w.pos 2)) ∧
      (w.jumped = false → target.toNat < w.o → s.bufLen ≤ target.toNat →
        exec (.octPtr target) s = .next (s.raise .outOfBounds .namePtr w.pos 2)) ∧
      (w.jumped = false → target.toNat < w.o → target.toNat < s.bufLen →
        exec (.octPtr target) s =
          .next { s with engine := .naming { w with fwd := w.fwd + 2, jumped := true, pos := target.toNat } task }))

/-- Pointer safety (42_name.md section 4): a name that begins with a pointer to itself or forward is rejected; one that begins
with a pointer to a pointer is rejected; and no name decode reports a pointer out of bounds (the third check never fires). -/
def Obligations.SelfForwardAndChainedPointersAreRejected : Prop :=
  (∀ (p : Config.Params) (m : List Byte) (o off w : Nat), decodeName p m o ≠ .error (.raise .outOfBounds .namePtr off w)) ∧
  ∀ (s : State) (off : Nat) (b b2 : Byte), 0xC0 ≤ b.toNat → s.Holds off [b, b2] →
    (off ≤ 256 * (b.toNat % 64) + b2.toNat →
      exec (.name off) s = .next (s.raise .invalidValue .namePtr off 2)) ∧
    (∀ b' b2' : Byte, 256 * (b.toNat % 64) + b2.toNat < off → 0xC0 ≤ b'.toNat →
      s.Holds (256 * (b.toNat % 64) + b2.toNat) [b', b2'] →
      exec (.name off) s = .next (s.raise .recursivePointer .namePtr (256 * (b.toNat % 64) + b2.toNat) 2))

/-- NAME on an uncompressed name (42_name.md, 46_reference_encoders.md): wherever the wire form of good labels stands, NAME
completes with exactly those labels and their encoded length. -/
def Obligations.UncompressedNameDecodes : Prop :=
  ∀ (s : State) (off : Nat) (labels : List Label), LabelsOK s.params labels →
    s.Holds off (labelBytes labels ++ [0]) →
    exec (.name off) s = .next (s.complete (.nam ⟨labels, labelsLen labels + 1⟩))

/-- NAME on a compressed name (42_name.md, the rules on following a pointer, on consumption and on Done): labels, then a pointer
to an earlier place where further labels and a terminator stand. The labels of both places come back; only the first place's
bytes and the pointer's two count. -/
def Obligations.CompressedNameDecodes : Prop :=
  ∀ (s : State) (off : Nat) (front back : List Label) (target : Nat), LabelsOK s.params (front ++ back) →
    target < off → target < 16384 →
    s.Holds off (labelBytes front ++ [BitVec.ofNat 8 (192 + target / 256), BitVec.ofNat 8 (target % 256)]) →
    s.Holds target (labelBytes back ++ [0]) →
    exec (.name off) s = .next (s.complete (.nam ⟨front ++ back, labelsLen front + 2⟩))

/-- A decoded name encodes (46_reference_encoders.md): to its wire size, and, where no pointer was followed (then the forward
count is the wire size), to the very bytes it was decoded from. -/
def Obligations.DecodedNamesEncodeBack : Prop :=
  ∀ (p : Config.Params) (m : List Byte) (o : Nat) (n : Name), decodeName p m o = .ok n →
    ∃ bytes, encodeName n.labels = .ok bytes ∧ bytes.length = n.wireLen ∧
      (n.consumed = n.wireLen → bytes = slice m o n.consumed)

/-- What every returned name satisfies (42_name.md section 4). -/
def Obligations.DecodedNamesAreBounded : Prop :=
  ∀ (p : Config.Params) (m : List Byte) (o : Nat) (n : Name), decodeName p m o = .ok n →
    (∀ l ∈ n.labels, 1 ≤ l.length ∧ l.length ≤ 63 ∧ labelOK p.aceCaseInsensitive l = true) ∧
    n.labels.length ≤ 127 ∧ n.wireLen ≤ 255 ∧ 1 ≤ n.consumed ∧ n.consumed ≤ 256 ∧ o + n.consumed ≤ m.length ∧
    (o = 0 → n.consumed = n.wireLen)

/-- At most 129 passes (42_name.md section 4): more passes change nothing, and 129 are enough on every message. -/
def Obligations.NameDecodeTakesAtMost129Passes : Prop :=
  ∀ (p : Config.Params) (m : List Byte) (o k : Nat),
    nameLoop p (129 + k) m (Walk.start o) = nameLoop p 129 m (Walk.start o) ∧ decodeName p m o ≠ .error .unfinished

/-- The name state machine, octet by octet, computes the function of 42_name.md section 3 ("The two must agree"). What one
transition is, and so how many there are, is the model's (log 1). -/
def Obligations.NameStateMachineComputesTheFunction : Prop :=
  ∀ (s : State) (o k : Nat), s.engine = .naming (Walk.start o) .name → 130 ≤ k →
    engineRun k s = s.settle ((decodeName s.params s.message o).map .nam)

/-- A command run transition by transition (log 1) ends as the command run at once (10_state.md R20): the two grains of the
model agree, for every command on every message, and for every illegal word. -/
def Obligations.BothGrainsEndAlike : Prop :=
  ∀ s : State, s.engine = .accepted → ∃ n, ∀ k, n ≤ k →
    engineRun k s = match decodeCommand s.params s.cmd with
      | some i => exec i s
      | none => .next (s.raise .illegalCommand .cmd 0 0)

/-! ## Questions and records -/

/-- QUES (43_question.md R201, R202, with the error records of R204): the name's errors pass through; then both reads, then
both checks, then the question. -/
def Obligations.QuestionFieldsFollowTheName : Prop :=
  ∀ (s : State) (off : Nat),
    (∀ e, decodeName s.params s.message off = .error e → exec (.ques off) s = s.stop e) ∧
    (∀ (name : Name) (a : Nat), decodeName s.params s.message off = .ok name → a = off + name.consumed →
      (s.bufLen < a + 2 → exec (.ques off) s = .next (s.raise .tooShort .qQtype a 2)) ∧
      (a + 2 ≤ s.bufLen → s.bufLen < a + 4 →
        exec (.ques off) s = .next (s.raise .tooShort .qQclass (a + 2) 2)) ∧
      (a + 4 ≤ s.bufLen →
        (¬((1 ≤ s.be16 a ∧ s.be16 a ≤ 16) ∨ (252 ≤ s.be16 a ∧ s.be16 a ≤ 255)) →
          exec (.ques off) s = .next (s.raise .invalidValue .qQtype a 2)) ∧
        ((1 ≤ s.be16 a ∧ s.be16 a ≤ 16) ∨ (252 ≤ s.be16 a ∧ s.be16 a ≤ 255) →
          (s.be16 (a + 2) ∉ [1, 3, 4, 255] → exec (.ques off) s = .next (s.raise .invalidValue .qQclass (a + 2) 2)) ∧
          (s.be16 (a + 2) ∈ [1, 3, 4, 255] →
            exec (.ques off) s = .next (s.complete
              (.que ⟨name, BitVec.ofNat 16 (s.be16 a), BitVec.ofNat 16 (s.be16 (a + 2))⟩ (name.consumed + 4)))))))

/-- RR (44_resource_record.md R211, with the error records of R218): the name's errors pass through; then the reads and checks
in the order of the text, then the record. -/
def Obligations.RecordFieldsFollowTheName : Prop :=
  ∀ (s : State) (off : Nat),
    (∀ e, decodeName s.params s.message off = .error e → exec (.rr off) s = s.stop e) ∧
    (∀ (name : Name) (a : Nat), decodeName s.params s.message off = .ok name → a = off + name.consumed →
      (s.bufLen < a + 2 → exec (.rr off) s = .next (s.raise .tooShort .rrType a 2)) ∧
      (a + 2 ≤ s.bufLen → s.bufLen < a + 4 → exec (.rr off) s = .next (s.raise .tooShort .rrClass (a + 2) 2)) ∧
      (a + 4 ≤ s.bufLen → s.bufLen < a + 8 → exec (.rr off) s = .next (s.raise .tooShort .rrTtl (a + 4) 4)) ∧
      (a + 8 ≤ s.bufLen → 0x80000000 ≤ s.be32 (a + 4) →
        exec (.rr off) s = .next (s.raise .invalidValue .rrTtl (a + 4) 4)) ∧
      (a + 8 ≤ s.bufLen → s.be32 (a + 4) < 0x80000000 →
        (s.bufLen < a + 10 → exec (.rr off) s = .next (s.raise .tooShort .rrRdlength (a + 8) 2)) ∧
        (a + 10 ≤ s.bufLen → s.bufLen < a + 10 + s.be16 (a + 8) →
          exec (.rr off) s = .next (s.raise .inconsistentFields .rrRdata (a + 10) (s.be16 (a + 8)))) ∧
        (a + 10 + s.be16 (a + 8) ≤ s.bufLen → s.be16 a = 1 → s.be16 (a + 8) ≠ 4 →
          exec (.rr off) s = .next (s.raise .inconsistentFields .rrRdlength (a + 8) 2)) ∧
        (a + 10 + s.be16 (a + 8) ≤ s.bufLen → ¬(s.be16 a = 1 ∧ s.be16 (a + 8) ≠ 4) →
          exec (.rr off) s = .next (s.complete (.rr
            ⟨name, BitVec.ofNat 16 (s.be16 a), BitVec.ofNat 16 (s.be16 (a + 2)), BitVec.ofNat 32 (s.be32 (a + 4)),
              BitVec.ofNat 16 (s.be16 (a + 8)), a + 10⟩ (name.consumed + 10 + s.be16 (a + 8)))))))

/-- RDATA (44_resource_record.md): of a returned record, exactly RDLENGTH bytes, those of BUF from R_RDOFF on. -/
def Obligations.RdataIsTheSpanOfTheBuffer : Prop :=
  ∀ (s t : State) (off : Nat) (r : Record) (k : Nat), exec (.rr off) s = .next t → t.result = .rr r k →
    (r.rdata t.message).length = r.rdlength.toNat ∧
    (∀ i < r.rdlength.toNat, (r.rdata t.message)[i]? = some (t.byteAt (r.rdoff + i))) ∧
    off + k = r.rdoff + r.rdlength.toNat ∧ r.rdoff + r.rdlength.toNat ≤ t.bufLen

/-! ## Messages -/

/-- MSG completes exactly where a good header is followed by as many questions, answers, authorities and additionals as its
counts say, one after the other from offset 12 (45_message.md; a good header is one the header step R152 returns, Obligations.HeaderIsCheckedInOrderThenReturned). -/
def Obligations.MessageIsHeaderAndCountedRecords : Prop :=
  ∀ (s : State) (h : Header) (qs : List Question) (ans auth adds : List Record) (e : Nat),
    exec .msg s = .next (s.complete (.msg ⟨h, ⟨qs, ans, auth, adds⟩⟩ e)) ↔
    headerOfMessage s.message = .ok h ∧ qs.length = h.qdcount.toNat ∧ ans.length = h.ancount.toNat ∧
    auth.length = h.nscount.toNat ∧ adds.length = h.arcount.toNat ∧
    ∃ o1 o2 o3, QuestionsAt s.params s.message 12 qs o1 ∧ RecordsAt s.params s.message o1 ans o2 ∧ RecordsAt s.params s.message o2 auth o3 ∧
      RecordsAt s.params s.message o3 adds e

/-- MSG fails at the first bad place with that place's own error, and with CountMismatch where a count demands a record and
no byte is left (45_message.md R235, R239). -/
def Obligations.MessageFailsAtTheFirstBadRecord : Prop :=
  ∀ (s : State),
    (∀ e, headerOfMessage s.message = .error e → exec .msg s = s.stop e) ∧
    (∀ (h : Header) (qs : List Question) (o1 : Nat), headerOfMessage s.message = .ok h → QuestionsAt s.params s.message 12 qs o1 →
      (qs.length < h.qdcount.toNat →
        (s.bufLen ≤ o1 → exec .msg s = .next (s.raise .countMismatch .msgCount o1 0)) ∧
        (o1 < s.bufLen → ∀ e, decodeQuestion s.params s.message o1 = .error e → exec .msg s = s.stop e)) ∧
      (qs.length = h.qdcount.toNat → ∀ (ans : List Record) (o2 : Nat), RecordsAt s.params s.message o1 ans o2 →
        (ans.length < h.ancount.toNat →
          (s.bufLen ≤ o2 → exec .msg s = .next (s.raise .countMismatch .msgCount o2 0)) ∧
          (o2 < s.bufLen → ∀ e, decodeRecord s.params s.message o2 = .error e → exec .msg s = s.stop e)) ∧
        (ans.length = h.ancount.toNat → ∀ (auth : List Record) (o3 : Nat), RecordsAt s.params s.message o2 auth o3 →
          (auth.length < h.nscount.toNat →
            (s.bufLen ≤ o3 → exec .msg s = .next (s.raise .countMismatch .msgCount o3 0)) ∧
            (o3 < s.bufLen → ∀ e, decodeRecord s.params s.message o3 = .error e → exec .msg s = s.stop e)) ∧
          (auth.length = h.nscount.toNat → ∀ (adds : List Record) (o4 : Nat), RecordsAt s.params s.message o3 adds o4 →
            adds.length < h.arcount.toNat →
              (s.bufLen ≤ o4 → exec .msg s = .next (s.raise .countMismatch .msgCount o4 0)) ∧
              (o4 < s.bufLen → ∀ e, decodeRecord s.params s.message o4 = .error e → exec .msg s = s.stop e)))))

/-- Trailing bytes (45_message.md R237): a message that the message decode, which is all that MSG does with BUF, decodes up to
`e` decodes the same whatever bytes, and however many, stand at `e` and after. -/
def Obligations.TrailingBytesAreNotLookedAt : Prop :=
  ∀ (p : Config.Params) (m m' : List Byte) (msg : Message) (e : Nat), decodeMessage p m = .ok (msg, e) → e ≤ m'.length → m'.take e = m.take e →
    decodeMessage p m' = .ok (msg, e)

/-! ## Invariants -/

/-- The invariant of the block holds after reset. -/
def Obligations.ResetMeetsTheInvariant : Prop := State.reset.Inv

/-- STATUS is one of four, BUSY is 1 exactly inside a command, the error record is that of an error exactly after `raise`, a
result exists exactly after `return` (10_state.md R24, R26, R27): every step keeps that. -/
def Obligations.StepKeepsControl : Prop := ∀ s t : State, s.ControlOK → step s = .next t → t.ControlOK

/-- Every step keeps BUF in canonical form, offsets rising and inside BUF (the form is the model's own, log 3), and BUF_LEN at
most BUF_MAX (10_state.md R21). -/
def Obligations.StepKeepsTheBufferCanonical : Prop := ∀ s t : State, s.MemoryOK → step s = .next t → t.MemoryOK

/-- The invariant of the block, results and the engine's inner state included (41_header.md, 42_name.md, 45_message.md on what
every returned value satisfies): every step keeps it. -/
def Obligations.StepKeepsTheInvariant : Prop := ∀ s t : State, s.Inv → step s = .next t → t.Inv

/-- Under the invariant no register's value is cut by its width (10_state.md section 3). -/
def Obligations.RegistersHoldTheirValuesWhole : Prop :=
  ∀ (s : State) (r : Reg) (v n : Nat), s.Inv → s.regNat r = some v → r.width s.params = some n → v < 2 ^ n

/-- A step stops only by a host move the spec does not give a meaning: a READ of a register that holds no value, a LOAD longer
than BUF_MAX, a length above it, a write to a byte BUF does not have (log 4, log 9); the engine never stops. -/
def Obligations.OnlyHostMovesStop : Prop :=
  ∀ s : State, s.Inv →
    (∃ t, step s = .next t) ∨ (∃ r rest, s.host = .read r :: rest ∧ s.readReg r = none) ∨
    (∃ bytes rest, s.host = .load bytes :: rest ∧ s.params.bufMax < bytes.length) ∨
    (∃ n rest, s.host = .writeLen n :: rest ∧ s.params.bufMax < n) ∨
    (∃ a b rest, s.host = .writeByte a b :: rest ∧ s.params.bufMax ≤ a)

/-! ## What the host reads and writes; the parameters -/

/-- What a READ of a control, status or error register returns (10_state.md R23 to R27): STATUS has BUSY, DONE and ERR in bits
0, 1 and 2 and zeros above, ERR_KIND and ERR_FIELD hold the codes of 60_exceptions.md R261 and R264, and CMD, BUF_LEN,
ERR_OFFSET, ERR_WIDTH and RES_TAG their fields, zero-extended (log 12). -/
def Obligations.ControlRegistersReadTheirFields : Prop :=
  (∀ s : State, s.Inv →
    s.readReg .cmd = some (.word s.cmd) ∧
    (∃ v : Word, s.readReg .status = some (.word v) ∧ v.getLsbD 0 = s.status.busy ∧ v.getLsbD 1 = s.status.done ∧
      v.getLsbD 2 = s.status.err ∧ ∀ i, 3 ≤ i → v.getLsbD i = false) ∧
    s.readReg .bufLen = some (.word (BitVec.ofNat 32 s.bufLen)) ∧
    s.readReg .errKind = some (.word (BitVec.ofNat 32 s.errKind.code.toNat)) ∧
    s.readReg .errField = some (.word (BitVec.ofNat 32 s.errField.code.toNat)) ∧
    s.readReg .errOffset = some (.word (BitVec.ofNat 32 s.errOffset)) ∧
    s.readReg .errWidth = some (.word (BitVec.ofNat 32 s.errWidth.toNat)) ∧
    s.readReg .resTag = some (.word (BitVec.ofNat 32 (match s.result with
      | .none => 0
      | .raw _ => 1
      | .hdr _ => 2
      | .nam _ => 3
      | .que _ _ => 4
      | .rr _ _ => 5
      | .msg _ _ => 6)))) ∧
  [ErrKind.noError, .tooShort, .outOfBounds, .invalidValue, .invalidLabelSyntax, .inconsistentFields, .recursivePointer,
    .countMismatch, .illegalCommand].map (fun k => k.code.toNat) = List.range 9 ∧
  [ErrField.none, .raw, .hdrLen, .hdrOpcode, .hdrAa, .hdrZ, .hdrRcode, .nameLen, .namePtr2, .namePtr, .nameLabel, .nameTotal,
    .qQtype, .qQclass, .rrType, .rrClass, .rrTtl, .rrRdlength, .rrRdata, .msgCount, .cmd].map (fun f => f.code.toNat) =
    List.range 21

/-- What a READ of a result register or store returns: the field of RESULT that 10_state.md R28 to R33 name, zero-extended, or
a store's whole content (log 12). -/
def Obligations.ResultRegistersReadTheResult : Prop :=
  ∀ s : State, s.Inv →
    (∀ v, s.result = .raw v → s.readReg .resValue = some (.word v)) ∧
    (∀ h, (s.result = .hdr h ∨ ∃ store e, s.result = .msg ⟨h, store⟩ e) →
      s.readReg .hId = some (.word (BitVec.ofNat 32 h.id.toNat)) ∧
      s.readReg .hFlags = some (.word (BitVec.ofNat 32 h.flags.toNat)) ∧
      s.readReg .hQdcount = some (.word (BitVec.ofNat 32 h.qdcount.toNat)) ∧
      s.readReg .hAncount = some (.word (BitVec.ofNat 32 h.ancount.toNat)) ∧
      s.readReg .hNscount = some (.word (BitVec.ofNat 32 h.nscount.toNat)) ∧
      s.readReg .hArcount = some (.word (BitVec.ofNat 32 h.arcount.toNat))) ∧
    (∀ n : Name, (s.result = .nam n ∨ (∃ q k, s.result = .que q k ∧ q.name = n) ∨ ∃ r k, s.result = .rr r k ∧ r.name = n) →
      s.readReg .nNlabels = some (.word (BitVec.ofNat 32 n.labels.length)) ∧
      s.readReg .nWirelen = some (.word (BitVec.ofNat 32 (1 + (n.labels.map (fun l => l.length + 1)).sum))) ∧
      s.readReg .lbl = some (.lbl (n.labels.flatMap (fun l => BitVec.ofNat 8 l.length :: l)))) ∧
    (∀ q k, s.result = .que q k →
      s.readReg .qQtype = some (.word (BitVec.ofNat 32 q.qtype.toNat)) ∧
      s.readReg .qQclass = some (.word (BitVec.ofNat 32 q.qclass.toNat))) ∧
    (∀ r k, s.result = .rr r k →
      s.readReg .rType = some (.word (BitVec.ofNat 32 r.rtype.toNat)) ∧
      s.readReg .rClass = some (.word (BitVec.ofNat 32 r.rclass.toNat)) ∧
      s.readReg .rTtl = some (.word r.ttl) ∧
      s.readReg .rRdlength = some (.word (BitVec.ofNat 32 r.rdlength.toNat)) ∧
      s.readReg .rRdoff = some (.word (BitVec.ofNat 32 r.rdoff))) ∧
    (∀ k, ((∃ n, s.result = .nam n ∧ n.consumed = k) ∨ (∃ q, s.result = .que q k) ∨ (∃ r, s.result = .rr r k) ∨
        ∃ m, s.result = .msg m k) →
      s.readReg .resConsumed = some (.word (BitVec.ofNat 32 k))) ∧
    (∀ m e, s.result = .msg m e → s.readReg .msgStore = some (.store m.store))

/-- A name cut off at the end of the message (42_name.md, the rules on ReadLength, on ReadLabel and on OCT.PTR): after good
labels, nothing at all, a pointer's first octet alone, or a length octet with too few bytes behind it. -/
def Obligations.NamesCutOffAtTheEnd : Prop :=
  ∀ (s : State) (off : Nat) (front : List Label), LabelsOK s.params front →
    (s.bufLen ≤ off → exec (.name off) s = .next (s.raise .tooShort .nameLen off 1)) ∧
    (s.Holds off (labelBytes front) → s.bufLen = off + labelsLen front →
      exec (.name off) s = .next (s.raise .tooShort .nameLen (off + labelsLen front) 1)) ∧
    (∀ b : Byte, 0xC0 ≤ b.toNat → s.Holds off (labelBytes front ++ [b]) → s.bufLen = off + labelsLen front + 1 →
      exec (.name off) s = .next (s.raise .tooShort .namePtr2 (off + labelsLen front + 1) 1)) ∧
    (∀ b : Byte, 1 ≤ b.toNat → b.toNat ≤ 63 → s.Holds off (labelBytes front ++ [b]) →
      s.bufLen < off + labelsLen front + 1 + b.toNat →
      exec (.name off) s = .next (s.raise .outOfBounds .nameLabel (off + labelsLen front + 1) b.toNat))

/-- The host's writes of one byte of BUF and of BUF_LEN while BUSY = 0 (10_state.md R25, 70_reset_and_hazards.md R303): the byte
or the length is what was written, and every other byte and register is as before. Out of range they stop (log 9). -/
def Obligations.HostWritesAByteOrTheLength : Prop :=
  (∀ (s : State) (a : Nat) (b : Byte) (rest : List HostMove), s.host = .writeByte a b :: rest → s.status.busy = false →
    (a < s.params.bufMax →
      ∃ t, step s = .next t ∧ t.byteAt a = b ∧ (∀ a', a' ≠ a → t.byteAt a' = s.byteAt a') ∧
        t = { s with host := rest, buf := t.buf }) ∧
    (s.params.bufMax ≤ a → step s = .fault (.noSuchByte a))) ∧
  (∀ (s : State) (n : Nat) (rest : List HostMove), s.host = .writeLen n :: rest → s.status.busy = false →
    (n ≤ s.params.bufMax → step s = .next { s with host := rest, bufLen := n }) ∧
    (s.params.bufMax < n → step s = .refused (.aboveBufMax n)))

/-- The parameters (00_scope.md R8): no step changes them, and no instruction's effect depends on BUF_MAX or AW; it may depend
on ACE_CASE_INSENSITIVE. -/
def Obligations.ParametersAreFixedAndSizesDoNotMatter : Prop :=
  (∀ s t : State, step s = .next t → t.params = s.params) ∧
  (∀ (i : Instr) (s t : State) (p : Config.Params), p.aceCaseInsensitive = s.params.aceCaseInsensitive →
    exec i s = .next t → exec i { s with params := p } = .next { t with params := p })
end

