-- ==== Sys2Proof/Laws/State.lean ====
section
/-! SUPPORT. What each update of State does to each field: one lemma per field per update, true by rfl. -/

namespace Sys2Proof.Machine.Laws

variable (s : State)

/-! ## State.accept -/

@[simp] theorem accept_params (w : Word) : (s.accept w).params = s.params := rfl
@[simp] theorem accept_cmd (w : Word) : (s.accept w).cmd = w := rfl
@[simp] theorem accept_status (w : Word) : (s.accept w).status = .running := rfl
@[simp] theorem accept_bufLen (w : Word) : (s.accept w).bufLen = s.bufLen := rfl
@[simp] theorem accept_buf (w : Word) : (s.accept w).buf = s.buf := rfl
@[simp] theorem accept_errKind (w : Word) : (s.accept w).errKind = .noError := rfl
@[simp] theorem accept_errField (w : Word) : (s.accept w).errField = .none := rfl
@[simp] theorem accept_errOffset (w : Word) : (s.accept w).errOffset = 0 := rfl
@[simp] theorem accept_errWidth (w : Word) : (s.accept w).errWidth = 0 := rfl
@[simp] theorem accept_result (w : Word) : (s.accept w).result = .none := rfl
@[simp] theorem accept_engine (w : Word) : (s.accept w).engine = .accepted := rfl
@[simp] theorem accept_host (w : Word) : (s.accept w).host = s.host := rfl
@[simp] theorem accept_hostSaw (w : Word) : (s.accept w).hostSaw = s.hostSaw := rfl
@[simp] theorem accept_resets (w : Word) : (s.accept w).resets = s.resets := rfl

/-! ## State.complete -/

@[simp] theorem complete_params (r : Result) : (s.complete r).params = s.params := rfl
@[simp] theorem complete_cmd (r : Result) : (s.complete r).cmd = s.cmd := rfl
@[simp] theorem complete_status (r : Result) : (s.complete r).status = .doneOk := rfl
@[simp] theorem complete_bufLen (r : Result) : (s.complete r).bufLen = s.bufLen := rfl
@[simp] theorem complete_buf (r : Result) : (s.complete r).buf = s.buf := rfl
@[simp] theorem complete_errKind (r : Result) : (s.complete r).errKind = .noError := rfl
@[simp] theorem complete_errField (r : Result) : (s.complete r).errField = .none := rfl
@[simp] theorem complete_errOffset (r : Result) : (s.complete r).errOffset = 0 := rfl
@[simp] theorem complete_errWidth (r : Result) : (s.complete r).errWidth = 0 := rfl
@[simp] theorem complete_result (r : Result) : (s.complete r).result = r := rfl
@[simp] theorem complete_engine (r : Result) : (s.complete r).engine = .idle := rfl
@[simp] theorem complete_host (r : Result) : (s.complete r).host = s.host := rfl
@[simp] theorem complete_hostSaw (r : Result) : (s.complete r).hostSaw = s.hostSaw := rfl
@[simp] theorem complete_resets (r : Result) : (s.complete r).resets = s.resets := rfl

/-! ## State.raise -/

@[simp] theorem raise_params (k : ErrKind) (f : ErrField) (off width : Nat) : (s.raise k f off width).params = s.params := rfl
@[simp] theorem raise_cmd (k : ErrKind) (f : ErrField) (off width : Nat) : (s.raise k f off width).cmd = s.cmd := rfl
@[simp] theorem raise_status (k : ErrKind) (f : ErrField) (off width : Nat) : (s.raise k f off width).status = .doneError := rfl
@[simp] theorem raise_bufLen (k : ErrKind) (f : ErrField) (off width : Nat) : (s.raise k f off width).bufLen = s.bufLen := rfl
@[simp] theorem raise_buf (k : ErrKind) (f : ErrField) (off width : Nat) : (s.raise k f off width).buf = s.buf := rfl
@[simp] theorem raise_errKind (k : ErrKind) (f : ErrField) (off width : Nat) : (s.raise k f off width).errKind = k := rfl
@[simp] theorem raise_errField (k : ErrKind) (f : ErrField) (off width : Nat) : (s.raise k f off width).errField = f := rfl
@[simp] theorem raise_errOffset (k : ErrKind) (f : ErrField) (off width : Nat) : (s.raise k f off width).errOffset = off := rfl
@[simp] theorem raise_errWidth (k : ErrKind) (f : ErrField) (off width : Nat) : (s.raise k f off width).errWidth = BitVec.ofNat 16 width := rfl
@[simp] theorem raise_result (k : ErrKind) (f : ErrField) (off width : Nat) : (s.raise k f off width).result = .none := rfl
@[simp] theorem raise_engine (k : ErrKind) (f : ErrField) (off width : Nat) : (s.raise k f off width).engine = .idle := rfl
@[simp] theorem raise_host (k : ErrKind) (f : ErrField) (off width : Nat) : (s.raise k f off width).host = s.host := rfl
@[simp] theorem raise_hostSaw (k : ErrKind) (f : ErrField) (off width : Nat) : (s.raise k f off width).hostSaw = s.hostSaw := rfl
@[simp] theorem raise_resets (k : ErrKind) (f : ErrField) (off width : Nat) : (s.raise k f off width).resets = s.resets := rfl

/-! ## State.withEngine -/

@[simp] theorem withEngine_params (e : Engine) : (s.withEngine e).params = s.params := rfl
@[simp] theorem withEngine_cmd (e : Engine) : (s.withEngine e).cmd = s.cmd := rfl
@[simp] theorem withEngine_status (e : Engine) : (s.withEngine e).status = s.status := rfl
@[simp] theorem withEngine_bufLen (e : Engine) : (s.withEngine e).bufLen = s.bufLen := rfl
@[simp] theorem withEngine_buf (e : Engine) : (s.withEngine e).buf = s.buf := rfl
@[simp] theorem withEngine_errKind (e : Engine) : (s.withEngine e).errKind = s.errKind := rfl
@[simp] theorem withEngine_errField (e : Engine) : (s.withEngine e).errField = s.errField := rfl
@[simp] theorem withEngine_errOffset (e : Engine) : (s.withEngine e).errOffset = s.errOffset := rfl
@[simp] theorem withEngine_errWidth (e : Engine) : (s.withEngine e).errWidth = s.errWidth := rfl
@[simp] theorem withEngine_result (e : Engine) : (s.withEngine e).result = s.result := rfl
@[simp] theorem withEngine_engine (e : Engine) : (s.withEngine e).engine = e := rfl
@[simp] theorem withEngine_host (e : Engine) : (s.withEngine e).host = s.host := rfl
@[simp] theorem withEngine_hostSaw (e : Engine) : (s.withEngine e).hostSaw = s.hostSaw := rfl
@[simp] theorem withEngine_resets (e : Engine) : (s.withEngine e).resets = s.resets := rfl

/-! ## State.withHost -/

@[simp] theorem withHost_params (h : List HostMove) : (s.withHost h).params = s.params := rfl
@[simp] theorem withHost_cmd (h : List HostMove) : (s.withHost h).cmd = s.cmd := rfl
@[simp] theorem withHost_status (h : List HostMove) : (s.withHost h).status = s.status := rfl
@[simp] theorem withHost_bufLen (h : List HostMove) : (s.withHost h).bufLen = s.bufLen := rfl
@[simp] theorem withHost_buf (h : List HostMove) : (s.withHost h).buf = s.buf := rfl
@[simp] theorem withHost_errKind (h : List HostMove) : (s.withHost h).errKind = s.errKind := rfl
@[simp] theorem withHost_errField (h : List HostMove) : (s.withHost h).errField = s.errField := rfl
@[simp] theorem withHost_errOffset (h : List HostMove) : (s.withHost h).errOffset = s.errOffset := rfl
@[simp] theorem withHost_errWidth (h : List HostMove) : (s.withHost h).errWidth = s.errWidth := rfl
@[simp] theorem withHost_result (h : List HostMove) : (s.withHost h).result = s.result := rfl
@[simp] theorem withHost_engine (h : List HostMove) : (s.withHost h).engine = s.engine := rfl
@[simp] theorem withHost_host (h : List HostMove) : (s.withHost h).host = h := rfl
@[simp] theorem withHost_hostSaw (h : List HostMove) : (s.withHost h).hostSaw = s.hostSaw := rfl
@[simp] theorem withHost_resets (h : List HostMove) : (s.withHost h).resets = s.resets := rfl

/-! ## State.load -/

@[simp] theorem load_params (bytes : List Byte) : (s.load bytes).params = s.params := rfl
@[simp] theorem load_cmd (bytes : List Byte) : (s.load bytes).cmd = s.cmd := rfl
@[simp] theorem load_status (bytes : List Byte) : (s.load bytes).status = s.status := rfl
@[simp] theorem load_bufLen (bytes : List Byte) : (s.load bytes).bufLen = bytes.length := rfl
@[simp] theorem load_buf (bytes : List Byte) : (s.load bytes).buf = Memory.putAll 0 bytes s.buf := rfl
@[simp] theorem load_errKind (bytes : List Byte) : (s.load bytes).errKind = s.errKind := rfl
@[simp] theorem load_errField (bytes : List Byte) : (s.load bytes).errField = s.errField := rfl
@[simp] theorem load_errOffset (bytes : List Byte) : (s.load bytes).errOffset = s.errOffset := rfl
@[simp] theorem load_errWidth (bytes : List Byte) : (s.load bytes).errWidth = s.errWidth := rfl
@[simp] theorem load_result (bytes : List Byte) : (s.load bytes).result = s.result := rfl
@[simp] theorem load_engine (bytes : List Byte) : (s.load bytes).engine = s.engine := rfl
@[simp] theorem load_host (bytes : List Byte) : (s.load bytes).host = s.host := rfl
@[simp] theorem load_hostSaw (bytes : List Byte) : (s.load bytes).hostSaw = s.hostSaw := rfl
@[simp] theorem load_resets (bytes : List Byte) : (s.load bytes).resets = s.resets := rfl

/-! ## State.writeByte -/

@[simp] theorem writeByte_params (a : Nat) (b : Byte) : (s.writeByte a b).params = s.params := rfl
@[simp] theorem writeByte_cmd (a : Nat) (b : Byte) : (s.writeByte a b).cmd = s.cmd := rfl
@[simp] theorem writeByte_status (a : Nat) (b : Byte) : (s.writeByte a b).status = s.status := rfl
@[simp] theorem writeByte_bufLen (a : Nat) (b : Byte) : (s.writeByte a b).bufLen = s.bufLen := rfl
@[simp] theorem writeByte_buf (a : Nat) (b : Byte) : (s.writeByte a b).buf = Memory.put a b s.buf := rfl
@[simp] theorem writeByte_errKind (a : Nat) (b : Byte) : (s.writeByte a b).errKind = s.errKind := rfl
@[simp] theorem writeByte_errField (a : Nat) (b : Byte) : (s.writeByte a b).errField = s.errField := rfl
@[simp] theorem writeByte_errOffset (a : Nat) (b : Byte) : (s.writeByte a b).errOffset = s.errOffset := rfl
@[simp] theorem writeByte_errWidth (a : Nat) (b : Byte) : (s.writeByte a b).errWidth = s.errWidth := rfl
@[simp] theorem writeByte_result (a : Nat) (b : Byte) : (s.writeByte a b).result = s.result := rfl
@[simp] theorem writeByte_engine (a : Nat) (b : Byte) : (s.writeByte a b).engine = s.engine := rfl
@[simp] theorem writeByte_host (a : Nat) (b : Byte) : (s.writeByte a b).host = s.host := rfl
@[simp] theorem writeByte_hostSaw (a : Nat) (b : Byte) : (s.writeByte a b).hostSaw = s.hostSaw := rfl
@[simp] theorem writeByte_resets (a : Nat) (b : Byte) : (s.writeByte a b).resets = s.resets := rfl

/-! ## State.writeLen -/

@[simp] theorem writeLen_params (n : Nat) : (s.writeLen n).params = s.params := rfl
@[simp] theorem writeLen_cmd (n : Nat) : (s.writeLen n).cmd = s.cmd := rfl
@[simp] theorem writeLen_status (n : Nat) : (s.writeLen n).status = s.status := rfl
@[simp] theorem writeLen_bufLen (n : Nat) : (s.writeLen n).bufLen = n := rfl
@[simp] theorem writeLen_buf (n : Nat) : (s.writeLen n).buf = s.buf := rfl
@[simp] theorem writeLen_errKind (n : Nat) : (s.writeLen n).errKind = s.errKind := rfl
@[simp] theorem writeLen_errField (n : Nat) : (s.writeLen n).errField = s.errField := rfl
@[simp] theorem writeLen_errOffset (n : Nat) : (s.writeLen n).errOffset = s.errOffset := rfl
@[simp] theorem writeLen_errWidth (n : Nat) : (s.writeLen n).errWidth = s.errWidth := rfl
@[simp] theorem writeLen_result (n : Nat) : (s.writeLen n).result = s.result := rfl
@[simp] theorem writeLen_engine (n : Nat) : (s.writeLen n).engine = s.engine := rfl
@[simp] theorem writeLen_host (n : Nat) : (s.writeLen n).host = s.host := rfl
@[simp] theorem writeLen_hostSaw (n : Nat) : (s.writeLen n).hostSaw = s.hostSaw := rfl
@[simp] theorem writeLen_resets (n : Nat) : (s.writeLen n).resets = s.resets := rfl

/-! ## State.hardReset -/

@[simp] theorem hardReset_params : (s.hardReset).params = s.params := rfl
@[simp] theorem hardReset_cmd : (s.hardReset).cmd = 0 := rfl
@[simp] theorem hardReset_status : (s.hardReset).status = .idleFresh := rfl
@[simp] theorem hardReset_bufLen : (s.hardReset).bufLen = 0 := rfl
@[simp] theorem hardReset_buf : (s.hardReset).buf = [] := rfl
@[simp] theorem hardReset_errKind : (s.hardReset).errKind = .noError := rfl
@[simp] theorem hardReset_errField : (s.hardReset).errField = .none := rfl
@[simp] theorem hardReset_errOffset : (s.hardReset).errOffset = 0 := rfl
@[simp] theorem hardReset_errWidth : (s.hardReset).errWidth = 0 := rfl
@[simp] theorem hardReset_result : (s.hardReset).result = .none := rfl
@[simp] theorem hardReset_engine : (s.hardReset).engine = .idle := rfl
@[simp] theorem hardReset_host : (s.hardReset).host = s.host := rfl
@[simp] theorem hardReset_hostSaw : (s.hardReset).hostSaw = s.hostSaw := rfl
@[simp] theorem hardReset_resets : (s.hardReset).resets = s.resets + 1 := rfl

end Sys2Proof.Machine.Laws
end

