-- ==== Sys2Proof/Laws/Memory.lean ====
section
/-! SUPPORT. The laws of BUF: a read after a write, the canonical form, and the message of a state. -/

namespace Sys2Proof.Machine.Laws

/-! ## Read after write -/

theorem find_put_same (a : Nat) (b : Byte) (m : List Host.Cell) : Memory.find (Memory.put a b m) a = some b := by
  induction m with
  | nil => simp [Memory.put, Memory.find]
  | cons c rest ih =>
    obtain ⟨k, v⟩ := c
    unfold Memory.put
    split_ifs with h1 h2
    · simp [Memory.find]
    · simp [Memory.find]
    · simp [Memory.find, Ne.symm h2, ih]

theorem find_put_other {a k : Nat} (b : Byte) (m : List Host.Cell) (h : k ≠ a) :
    Memory.find (Memory.put a b m) k = Memory.find m k := by
  induction m with
  | nil => simp [Memory.put, Memory.find, Ne.symm h]
  | cons c rest ih =>
    obtain ⟨k', v⟩ := c
    unfold Memory.put
    split_ifs with h1 h2
    · simp [Memory.find, Ne.symm h]
    · subst h2; simp [Memory.find, Ne.symm h]
    · simp [Memory.find, ih]

theorem find_putAll_below {a k : Nat} (bs : List Byte) (m : List Host.Cell) (h : k < a) :
    Memory.find (Memory.putAll a bs m) k = Memory.find m k := by
  induction bs generalizing a m with
  | nil => rfl
  | cons b bs ih => rw [Memory.putAll, ih _ (by omega), find_put_other b m (by omega)]

theorem find_putAll_above {a k : Nat} (bs : List Byte) (m : List Host.Cell) (h : a + bs.length ≤ k) :
    Memory.find (Memory.putAll a bs m) k = Memory.find m k := by
  induction bs generalizing a m with
  | nil => rfl
  | cons b bs ih =>
    simp only [List.length_cons] at h
    rw [Memory.putAll, ih _ (by omega), find_put_other b m (by omega)]

theorem find_putAll_inside {a : Nat} (bs : List Byte) (m : List Host.Cell) {i : Nat} (h : i < bs.length) :
    Memory.find (Memory.putAll a bs m) (a + i) = some bs[i] := by
  induction bs generalizing a m i with
  | nil => simp at h
  | cons b bs ih =>
    cases i with
    | zero => rw [Memory.putAll, find_putAll_below bs _ (by omega)]; simpa using find_put_same a b m
    | succ i =>
      have := ih (a := a + 1) (Memory.put a b m) (i := i) (by simpa using h)
      simpa [Memory.putAll, Nat.add_assoc, Nat.add_comm 1 i] using this

/-! ## The canonical form -/

/-- `wf` as what it says: the first offset is inside BUF, below the next, and the rest is in canonical form. -/
theorem wf_cons (n k : Nat) (v : Byte) (m : List Host.Cell) :
    Memory.wf n ((k, v) :: m) = true ↔ k < n ∧ (∀ c ∈ m.head?, k < c.1) ∧ Memory.wf n m = true := by
  induction m generalizing k v with
  | nil => simp [Memory.wf]
  | cons c rest ih =>
    obtain ⟨k', v'⟩ := c
    have := ih k' v'
    simp only [Memory.wf, Bool.and_eq_true, decide_eq_true_eq, List.head?_cons, Option.mem_some_iff, forall_eq']
    constructor
    · rintro ⟨h1, h2⟩
      have := (this.1 h2).1
      exact ⟨by omega, h1, h2⟩
    · rintro ⟨-, h1, h2⟩
      exact ⟨h1, h2⟩

theorem put_head (a : Nat) (b : Byte) (m : List Host.Cell) (k : Nat) (hk : k < a) (h : ∀ c ∈ m.head?, k < c.1) :
    ∀ c ∈ (Memory.put a b m).head?, k < c.1 := by
  cases m with
  | nil => simpa [Memory.put] using hk
  | cons c rest =>
    obtain ⟨k', v⟩ := c
    unfold Memory.put
    split_ifs <;> simp_all

theorem wf_put {n : Nat} (a : Nat) (b : Byte) (m : List Host.Cell) (ha : a < n) (h : Memory.wf n m = true) :
    Memory.wf n (Memory.put a b m) = true := by
  induction m with
  | nil => simpa [Memory.put, Memory.wf] using ha
  | cons c rest ih =>
    obtain ⟨k, v⟩ := c
    have hc := (wf_cons n k v rest).1 h
    unfold Memory.put
    split_ifs with h1 h2
    · exact (wf_cons _ _ _ _).2 ⟨ha, by simpa using h1, h⟩
    · subst h2
      exact (wf_cons _ _ _ _).2 hc
    · exact (wf_cons _ _ _ _).2 ⟨hc.1, put_head a b rest k (by omega) hc.2.1, ih hc.2.2⟩

theorem wf_putAll {n : Nat} (a : Nat) (bs : List Byte) (m : List Host.Cell) (ha : a + bs.length ≤ n)
    (h : Memory.wf n m = true) : Memory.wf n (Memory.putAll a bs m) = true := by
  induction bs generalizing a m with
  | nil => exact h
  | cons b bs ih =>
    simp only [List.length_cons] at ha
    exact ih (a + 1) _ (by omega) (wf_put a b m (by omega) h)

theorem wf_reset : Memory.wf State.reset.params.bufMax State.reset.buf = true := rfl

/-! ## The message -/

@[simp] theorem message_length (s : State) : s.message.length = s.bufLen := by simp [State.message]

theorem message_getElem (s : State) (i : Nat) (h : i < s.message.length) : s.message[i] = s.byteAt i := by
  simp [State.message]

/-- A message is what BUF_LEN and the bytes below it are. -/
theorem message_congr {s t : State} (hl : s.bufLen = t.bufLen) (hb : ∀ a < s.bufLen, s.byteAt a = t.byteAt a) :
    s.message = t.message := by
  unfold State.message
  rw [← hl]
  exact List.map_congr_left (fun a ha => hb a (List.mem_range.1 ha))

/-- A message depends on BUF_LEN, BUF and the reset count alone. -/
theorem message_eq_of_fields {s t : State} (hl : s.bufLen = t.bufLen) (hb : s.buf = t.buf) (hr : s.resets = t.resets) :
    s.message = t.message := message_congr hl (fun a _ => by simp [State.byteAt, hb, hr])

@[simp] theorem message_withEngine (s : State) (e : Engine) : (s.withEngine e).message = s.message := rfl
@[simp] theorem message_withHost (s : State) (h : List HostMove) : (s.withHost h).message = s.message := rfl
@[simp] theorem message_accept (s : State) (w : Word) : (s.accept w).message = s.message := rfl
@[simp] theorem message_complete (s : State) (r : Result) : (s.complete r).message = s.message := rfl
@[simp] theorem message_raise (s : State) (k : ErrKind) (f : ErrField) (off width : Nat) :
    (s.raise k f off width).message = s.message := rfl

end Sys2Proof.Machine.Laws
end

