-- ==== Sys2Proof/Laws/Reads.lean ====
section
/-! SUPPORT. What the two reads of 20_memory.md R66 and R67 answer. -/

namespace Sys2Proof.Machine.Laws

theorem slice_length {m : List Byte} {a n : Nat} (h : a + n ≤ m.length) : (slice m a n).length = n := by
  simp [slice]; omega

theorem memRead_in {m : List Byte} {a n : Nat} (f : ErrField) (h : a + n ≤ m.length) :
    memRead m a n f = .ok (beValue (slice m a n)) := by simp [memRead, Nat.not_lt.2 h]

theorem memRead_out {m : List Byte} {a n : Nat} (f : ErrField) (h : m.length < a + n) :
    memRead m a n f = .error (.raise .tooShort f a n) := by simp [memRead, h]

theorem memSpan_in {m : List Byte} {a n : Nat} (k : ErrKind) (f : ErrField) (h : a + n ≤ m.length) :
    memSpan m a n k f = .ok (slice m a n) := by simp [memSpan, Nat.not_lt.2 h]

theorem memSpan_out {m : List Byte} {a n : Nat} (k : ErrKind) (f : ErrField) (h : m.length < a + n) :
    memSpan m a n k f = .error (.raise k f a n) := by simp [memSpan, h]

/-- All that a fixed-width read can answer. -/
theorem memRead_cases (m : List Byte) (a n : Nat) (f : ErrField) :
    (a + n ≤ m.length ∧ memRead m a n f = .ok (beValue (slice m a n))) ∨
    (m.length < a + n ∧ memRead m a n f = .error (.raise .tooShort f a n)) := by
  rcases Nat.lt_or_ge m.length (a + n) with h | h
  · exact .inr ⟨h, memRead_out f h⟩
  · exact .inl ⟨h, memRead_in f h⟩

/-- All that a span read can answer. -/
theorem memSpan_cases (m : List Byte) (a n : Nat) (k : ErrKind) (f : ErrField) :
    (a + n ≤ m.length ∧ memSpan m a n k f = .ok (slice m a n)) ∨
    (m.length < a + n ∧ memSpan m a n k f = .error (.raise k f a n)) := by
  rcases Nat.lt_or_ge m.length (a + n) with h | h
  · exact .inr ⟨h, memSpan_out k f h⟩
  · exact .inl ⟨h, memSpan_in k f h⟩

theorem beValue_append_one (bs : List Byte) (b : Byte) : beValue (bs ++ [b]) = 256 * beValue bs + b.toNat := by
  simp [beValue]

theorem beValue_lt (bs : List Byte) : beValue bs < 256 ^ bs.length := by
  induction bs using List.reverseRecOn with
  | nil => simp [beValue]
  | append_singleton bs b ih =>
    rw [beValue_append_one, List.length_append, List.length_singleton, pow_succ]
    have := b.isLt
    omega

/-- A fixed-width read is below 256^n. -/
theorem memRead_lt {m : List Byte} {a n v : Nat} {f : ErrField} (h : memRead m a n f = .ok v) : v < 256 ^ n := by
  rcases memRead_cases m a n f with ⟨hl, h'⟩ | ⟨-, h'⟩ <;> rw [h'] at h
  · cases h
    simpa [slice_length hl] using beValue_lt (slice m a n)
  · cases h

end Sys2Proof.Machine.Laws
end

