-- ==== Sys2Proof/Laws/Name.lean ====
section
/-! SUPPORT. What each transition of the name state machine, and one pass of the loop of 42_name.md R184, can answer. -/

namespace Sys2Proof.Machine.Laws

/-- A label appended (R176). -/
def appended (w : Walk) (c : Label) (len : Nat) : Walk :=
  { w with
    labels := w.labels ++ [c], total := w.total + len + 1, fwd := if w.jumped then w.fwd else w.fwd + (len + 1)
    pos := w.pos + len + 1, st := .readLength }

/-- All that ReadLabel(L) can answer (R176): bounds, grammar, size, append. -/
theorem readLabel_cases (p : Config.Params) (w : Walk) (m : List Byte) (len : Nat) :
    (m.length < w.pos + 1 + len ∧ w.readLabel p m len = .error (.raise .outOfBounds .nameLabel (w.pos + 1) len)) ∨
    (w.pos + 1 + len ≤ m.length ∧ labelOK p.aceCaseInsensitive (slice m (w.pos + 1) len) = false ∧
      w.readLabel p m len = .error (.raise .invalidLabelSyntax .nameLabel (w.pos + 1) len)) ∨
    (w.pos + 1 + len ≤ m.length ∧ labelOK p.aceCaseInsensitive (slice m (w.pos + 1) len) = true ∧
      w.total + len + 1 > Config.nameMax ∧ w.readLabel p m len = .error (.raise .invalidValue .nameTotal w.pos (len + 1))) ∨
    (w.pos + 1 + len ≤ m.length ∧ labelOK p.aceCaseInsensitive (slice m (w.pos + 1) len) = true ∧
      w.total + len + 1 ≤ Config.nameMax ∧ w.readLabel p m len = .ok (appended w (slice m (w.pos + 1) len) len)) := by
  unfold Walk.readLabel
  rcases memSpan_cases m (w.pos + 1) len .outOfBounds .nameLabel with ⟨h, he⟩ | ⟨h, he⟩ <;> rw [he]
  · refine .inr ?_
    simp only [bind, Except.bind]
    by_cases h1 : labelOK p.aceCaseInsensitive (slice m (w.pos + 1) len) = false
    · exact .inl ⟨h, h1, if_pos h1⟩
    · rw [if_neg h1]
      by_cases h2 : w.total + len + 1 > Config.nameMax
      · exact .inr (.inl ⟨h, by simpa using h1, h2, if_pos h2⟩)
      · exact .inr (.inr ⟨h, by simpa using h1, by omega, if_neg h2⟩)
  · exact .inl ⟨h, rfl⟩

/-- A pointer followed (R180). -/
def followed (w : Walk) (target : Nat) : Walk := { w with fwd := w.fwd + 2, jumped := true, pos := target, st := .readLength }

/-- All that FollowPointer can answer (R180): hop limit, backward, in the buffer, the jump. -/
theorem followPointer_cases (w : Walk) (m : List Byte) (target at_ : Nat) :
    (w.jumped = true ∧ w.followPointer m target at_ = .error (.raise .recursivePointer .namePtr at_ 2)) ∨
    (w.jumped = false ∧ w.o ≤ target ∧ w.followPointer m target at_ = .error (.raise .invalidValue .namePtr at_ 2)) ∨
    (w.jumped = false ∧ target < w.o ∧ m.length ≤ target ∧
      w.followPointer m target at_ = .error (.raise .outOfBounds .namePtr at_ 2)) ∨
    (w.jumped = false ∧ target < w.o ∧ target < m.length ∧ w.followPointer m target at_ = .ok (followed w target)) := by
  unfold Walk.followPointer
  split_ifs with h1 h2 h3
  · exact .inl ⟨h1, rfl⟩
  · exact .inr (.inl ⟨by simpa using h1, h2, rfl⟩)
  · exact .inr (.inr (.inl ⟨by simpa using h1, by omega, h3, rfl⟩))
  · exact .inr (.inr (.inr ⟨by simpa using h1, by omega, by omega, rfl⟩))

theorem memRead_one {m : List Byte} {a : Nat} (f : ErrField) (h : a < m.length) : memRead m a 1 f = .ok (m[a]).toNat := by
  rw [memRead_in f (by omega)]
  have : slice m a 1 = [m[a]] := by
    simp [slice, List.take_one, List.head?_drop, List.getElem?_eq_getElem h]
  simp [this, beValue]

/-- All that one pass of the loop can do, by the class of the octet at the position (R184, 30_encoding.md R99). -/
theorem nameLoop_cases (p : Config.Params) (n : Nat) (m : List Byte) (w : Walk) :
    (m.length ≤ w.pos ∧ nameLoop p (n + 1) m w = .error (.raise .tooShort .nameLen w.pos 1)) ∨
    ∃ h : w.pos < m.length,
      ((m[w.pos]).toNat = 0 ∧ nameLoop p (n + 1) m w = .ok w.terminate.name) ∨
      (1 ≤ (m[w.pos]).toNat ∧ (m[w.pos]).toNat ≤ 63 ∧
        nameLoop p (n + 1) m w = (w.readLabel p m (m[w.pos]).toNat).bind (nameLoop p n m)) ∨
      (64 ≤ (m[w.pos]).toNat ∧ (m[w.pos]).toNat < 192 ∧
        nameLoop p (n + 1) m w = .error (.raise .invalidValue .nameLen w.pos 1)) ∨
      (192 ≤ (m[w.pos]).toNat ∧ m.length = w.pos + 1 ∧
        nameLoop p (n + 1) m w = .error (.raise .tooShort .namePtr2 (w.pos + 1) 1)) ∨
      (192 ≤ (m[w.pos]).toNat ∧ ∃ h2 : w.pos + 1 < m.length,
        nameLoop p (n + 1) m w =
          (w.followPointer m (256 * ((m[w.pos]).toNat % 64) + (m[w.pos + 1]).toNat) w.pos).bind (nameLoop p n m)) := by
  rcases Nat.lt_or_ge w.pos m.length with h | h
  · refine .inr ⟨h, ?_⟩
    have hb := (m[w.pos]).isLt
    rw [nameLoop, memRead_one .nameLen h]
    generalize (m[w.pos]).toNat = b at hb
    simp only [bind, Except.bind]
    by_cases h0 : b = 0
    · exact .inl ⟨h0, by simp [h0]⟩
    · rw [if_neg h0]
      by_cases h3 : b / 64 = 3
      · rw [if_pos h3]
        rcases Nat.lt_or_ge (w.pos + 1) m.length with h2 | h2
        · refine .inr (.inr (.inr (.inr ⟨by omega, h2, ?_⟩)))
          rw [memRead_one .namePtr2 h2]
        · refine .inr (.inr (.inr (.inl ⟨by omega, by omega, ?_⟩)))
          rw [memRead_out .namePtr2 (by omega)]
      · rw [if_neg h3]
        by_cases h63 : b > 63
        · refine .inr (.inr (.inl ⟨by omega, by omega, ?_⟩))
          simp [Config.labelMax, h63]
        · refine .inr (.inl ⟨by omega, by omega, ?_⟩)
          simp [Config.labelMax, h63]
  · refine .inl ⟨h, ?_⟩
    rw [nameLoop, memRead_out .nameLen (by omega)]
    rfl

/-! ## The octets of a position, by value (30_encoding.md R99, R103) -/

theorem octetTop_toNat (b : Byte) : (octetTop b).toNat = b.toNat / 64 := by
  have := b.isLt
  simp [octetTop, BitVec.extractLsb', Nat.shiftRight_eq_div_pow]
  omega

theorem octetLow_toNat (b : Byte) : (octetLow b).toNat = b.toNat % 64 := by
  simp [octetLow, BitVec.extractLsb']

theorem pointerTarget_toNat (b b2 : Byte) : (pointerTarget b b2).toNat = 256 * (b.toNat % 64) + b2.toNat := by
  have := b2.isLt
  rw [pointerTarget, BitVec.toNat_append, octetLow_toNat, Nat.shiftLeft_eq, ← Nat.mul_comm (2 ^ 8),
    ← Nat.two_pow_add_eq_or_of_lt (by simpa using this)]

theorem decodeOctets_label {b : Byte} {rest : List Byte} (h1 : 1 ≤ b.toNat) (h2 : b.toNat ≤ 63) :
    decodeOctets (b :: rest) = some (.octLabel (octetLow b), rest) := by
  have hb : b ≠ 0#8 := fun e => by simp [e] at h1
  have ht : (octetTop b).toNat = 0 := by rw [octetTop_toNat]; omega
  simp [decodeOctets, hb, ht]

theorem decodeOctets_reserved {b : Byte} {rest : List Byte} (h1 : 64 ≤ b.toNat) (h2 : b.toNat < 192) :
    decodeOctets (b :: rest) = some (.octRsv01 (octetLow b), rest) ∨
    decodeOctets (b :: rest) = some (.octRsv10 (octetLow b), rest) := by
  have hb : b ≠ 0#8 := fun e => by simp [e] at h1
  have ht : (octetTop b).toNat = 1 ∨ (octetTop b).toNat = 2 := by rw [octetTop_toNat]; omega
  rcases ht with ht | ht
  · exact .inl (by simp [decodeOctets, hb, ht])
  · exact .inr (by simp [decodeOctets, hb, ht])

theorem decodeOctets_pointer {b b2 : Byte} {rest : List Byte} (h1 : 192 ≤ b.toNat) :
    decodeOctets (b :: b2 :: rest) = some (.octPtr (pointerTarget b b2), rest) := by
  have hb : b ≠ 0#8 := fun e => by simp [e] at h1
  have ht : (octetTop b).toNat = 3 := by rw [octetTop_toNat]; have := b.isLt; omega
  simp [decodeOctets, hb, ht]

theorem decodeOctets_cut_pointer {b : Byte} (h1 : 192 ≤ b.toNat) : decodeOctets [b] = none := by
  have hb : b ≠ 0#8 := fun e => by simp [e] at h1
  have ht : (octetTop b).toNat = 3 := by rw [octetTop_toNat]; have := b.isLt; omega
  simp [decodeOctets, hb, ht]

end Sys2Proof.Machine.Laws
end

