-- ==== Sys2Proof/Laws/Outcome.lean ====
section
/-! SUPPORT. How a command, an octet and a step can end: the inversion lemmas that proofs cite instead of unfolding. -/

namespace Sys2Proof.Machine.Laws

/-- All that `stop` can do. -/
theorem stop_cases {s t : State} {e : Stop} (h : s.stop e = .next t) :
    ∃ k f off w, e = .raise k f off w ∧ t = s.raise k f off w := by
  cases e with
  | raise k f off w => exact ⟨k, f, off, w, rfl, by simpa [State.stop] using h.symm⟩
  | unfinished => simp [State.stop] at h

/-- All that the end of a command can do. -/
theorem settle_cases {s t : State} {o : Except Stop Result} (h : s.settle o = .next t) :
    (∃ r, o = .ok r ∧ t = s.complete r) ∨
    (∃ k f off w, o = .error (.raise k f off w) ∧ t = s.raise k f off w) := by
  cases o with
  | ok r => exact .inl ⟨r, rfl, by simpa [State.settle] using h.symm⟩
  | error e =>
    obtain ⟨k, f, off, w, rfl, ht⟩ := stop_cases (show s.stop e = .next t from h)
    exact .inr ⟨k, f, off, w, rfl, ht⟩

/-- All that a transition of the name state machine can do. -/
theorem settleWalk_cases {s t : State} {task : Task} {o : Except Stop Walk} (h : s.settleWalk task o = .next t) :
    (∃ w, o = .ok w ∧ t = s.withEngine (.naming w task)) ∨
    (∃ k f off w, o = .error (.raise k f off w) ∧ t = s.raise k f off w) := by
  cases o with
  | ok w => exact .inl ⟨w, rfl, by simpa [State.settleWalk] using h.symm⟩
  | error e =>
    obtain ⟨k, f, off, w, rfl, ht⟩ := stop_cases (show s.stop e = .next t from h)
    exact .inr ⟨k, f, off, w, rfl, ht⟩

/-- All that an octet class can do: it runs only in ReadLength. -/
theorem inReadLength_cases {s t : State} {tr : Walk → Except Stop Walk} (h : s.inReadLength tr = .next t) :
    ∃ w task, s.engine = .naming w task ∧ w.st = .readLength ∧ s.settleWalk task (tr w) = .next t := by
  unfold State.inReadLength at h
  split at h
  · split_ifs at h with hst
    exact ⟨_, _, by assumption, hst, h⟩
  all_goals cases h

theorem inReadLength_eq {s : State} {w : Walk} {task : Task} (tr : Walk → Except Stop Walk)
    (he : s.engine = .naming w task) (hst : w.st = .readLength) : s.inReadLength tr = s.settleWalk task (tr w) := by
  simp [State.inReadLength, he, hst]

/-! ## What each command's meaning is: the end of its decode -/

/-- The decode of a command, as a function of the parameters and the message; the octet classes have none. -/
def decodeOf (p : Config.Params) (m : List Byte) : Instr → Option (Except Stop Result)
  | .rd8 off => some (readRaw m 1 off)
  | .rd16 off => some (readRaw m 2 off)
  | .rd32 off => some (readRaw m 4 off)
  | .hdr => some ((decodeHeader m).map .hdr)
  | .name off => some ((decodeName p m (offsetOperand off)).map .nam)
  | .ques off => some ((decodeQuestion p m (offsetOperand off)).map (fun r => .que r.1 r.2))
  | .rr off => some ((decodeRecord p m (offsetOperand off)).map (fun r => .rr r.1 r.2))
  | .msg => some ((decodeMessage p m).map (fun r => .msg r.1 r.2))
  | .octTerm => none
  | .octLabel _ => none
  | .octRsv01 _ => none
  | .octRsv10 _ => none
  | .octPtr _ => none

/-- A command's meaning is the end of its decode over the message. -/
theorem exec_command {i : Instr} (h : i.isCommand = true) (s : State) :
    ∃ o, decodeOf s.params s.message i = some o ∧ exec i s = s.settle o := by
  cases i <;> first | exact ⟨_, rfl, rfl⟩ | cases h

/-- All that a command can do: it completes or it raises. -/
theorem exec_command_cases {i : Instr} (h : i.isCommand = true) {s t : State} (he : exec i s = .next t) :
    (∃ r, decodeOf s.params s.message i = some (.ok r) ∧ t = s.complete r) ∨
    (∃ k f off w, decodeOf s.params s.message i = some (.error (.raise k f off w)) ∧ t = s.raise k f off w) := by
  obtain ⟨o, ho, hx⟩ := exec_command h s
  rw [hx] at he
  rcases settle_cases he with ⟨r, rfl, ht⟩ | ⟨k, f, off, w, rfl, ht⟩
  · exact .inl ⟨r, ho, ht⟩
  · exact .inr ⟨k, f, off, w, ho, ht⟩

/-- An octet class leaves all but the engine, the status, the error record and the result as they were. -/
theorem exec_octet_cases {i : Instr} (h : i.isCommand = false) {s t : State} (he : exec i s = .next t) :
    ∃ w task, s.engine = .naming w task ∧ w.st = .readLength ∧
      ((∃ w', t = s.withEngine (.naming w' task)) ∨ (∃ k f off wd, t = s.raise k f off wd)) := by
  have key : ∀ tr, s.inReadLength tr = .next t → ∃ w task, s.engine = .naming w task ∧ w.st = .readLength ∧
      ((∃ w', t = s.withEngine (.naming w' task)) ∨ (∃ k f off wd, t = s.raise k f off wd)) := by
    intro tr htr
    obtain ⟨w, task, h1, h2, h3⟩ := inReadLength_cases htr
    rcases settleWalk_cases h3 with ⟨w', -, ht⟩ | ⟨k, f, off, wd, -, ht⟩
    · exact ⟨w, task, h1, h2, .inl ⟨w', ht⟩⟩
    · exact ⟨w, task, h1, h2, .inr ⟨k, f, off, wd, ht⟩⟩
  cases i <;> first | exact key _ he | cases h

end Sys2Proof.Machine.Laws
end

