-- ==== Sys2Proof/Laws/PerInstr.lean ====
section
/-! SUPPORT. The family Shape, for every instruction: a command is encoded as a command word of its own row, an octet class as
one or two octets (30_encoding.md R90, R92, R99). -/

namespace Sys2Proof.Laws.Shape

/-- The shape of an instruction's code. -/
def Statement (i : Instr) : Prop :=
  match encode i with
  | .command _ => i.isCommand = true ∧ i.row.isSome = true
  | .octets bytes => i.isCommand = false ∧ i.row = none ∧ (bytes.length = 1 ∨ bytes.length = 2)

theorem rd8 (offset : Nat) : Statement (.rd8 offset) := ⟨rfl, rfl⟩
theorem rd16 (offset : Nat) : Statement (.rd16 offset) := ⟨rfl, rfl⟩
theorem rd32 (offset : Nat) : Statement (.rd32 offset) := ⟨rfl, rfl⟩
theorem hdr : Statement .hdr := ⟨rfl, rfl⟩
theorem name (offset : Nat) : Statement (.name offset) := ⟨rfl, rfl⟩
theorem ques (offset : Nat) : Statement (.ques offset) := ⟨rfl, rfl⟩
theorem rr (offset : Nat) : Statement (.rr offset) := ⟨rfl, rfl⟩
theorem msg : Statement .msg := ⟨rfl, rfl⟩
theorem octTerm : Statement .octTerm := ⟨rfl, rfl, .inl rfl⟩
theorem octLabel (len : BitVec 6) : Statement (.octLabel len) := ⟨rfl, rfl, .inl rfl⟩
theorem octRsv01 (any : BitVec 6) : Statement (.octRsv01 any) := ⟨rfl, rfl, .inl rfl⟩
theorem octRsv10 (any : BitVec 6) : Statement (.octRsv10 any) := ⟨rfl, rfl, .inl rfl⟩
theorem octPtr (target : BitVec 14) : Statement (.octPtr target) := ⟨rfl, rfl, .inr rfl⟩

end Sys2Proof.Laws.Shape
end

