-- ==== Sys2Proof/Laws/Registers.lean ====
section
/-! SUPPORT. What a register of a given width reads as, and that the widths taken from the parameters are enough. -/

namespace Sys2Proof.Machine.Laws

/-- `bitsFor n` bits hold every number up to `n`. -/
theorem lt_two_pow_bitsFor {v n : Nat} (h : v ≤ n) : v < 2 ^ bitsFor n := lt_of_le_of_lt h Nat.lt_log2_self

/-- A register whose value fits its width reads as that value, zero-extended. -/
theorem regWord_of_fits {s : State} {r : Reg} {v n : Nat} (hv : s.regNat r = some v) (hw : r.width s.params = some n)
    (h : v < 2 ^ n) : s.regWord r = some (BitVec.ofNat 32 v) := by
  simp [State.regWord, hv, hw, Nat.mod_eq_of_lt h]

/-- The parameters of this hardware are in the ranges of 00_scope.md R8. -/
theorem hw_valid : Config.hw.Valid := by unfold Config.Params.Valid; decide

end Sys2Proof.Machine.Laws
end

