-- ==== Sys2Proof/Laws/Step.lean ====
section
/-! SUPPORT. What a step can do, said once: whose turn it is, and what the engine's turn leaves. -/

namespace Sys2Proof.Machine.Laws

theorem step_engine {s : State} (h : s.EngineMoves) : step s = engineTurn s := by
  rcases h with h | ⟨rest, h, hb⟩
  · simp [step, nextTurn, h]
  · simp [step, nextTurn, h, hb]

theorem step_host {s : State} {mv : HostMove} {rest : List HostMove} (h : s.host = mv :: rest)
    (hw : mv = .await → s.status.busy = false) : step s = hostTurn mv (s.withHost rest) := by
  cases mv <;> simp [step, nextTurn, h]
  simp [hw rfl]

/-- Whose turn it is. -/
theorem step_turn (s : State) :
    (s.EngineMoves ∧ step s = engineTurn s) ∨
    (∃ mv rest, s.host = mv :: rest ∧ (mv = .await → s.status.busy = false) ∧ step s = hostTurn mv (s.withHost rest)) := by
  cases h : s.host with
  | nil => exact .inl ⟨.inl h, step_engine (.inl h)⟩
  | cons mv rest =>
    by_cases hw : mv = .await ∧ s.status.busy = true
    · obtain ⟨rfl, hb⟩ := hw
      exact .inl ⟨.inr ⟨rest, h, hb⟩, step_engine (.inr ⟨rest, h, hb⟩)⟩
    · have hw' : mv = .await → s.status.busy = false := fun e => by
        cases hb : s.status.busy
        · rfl
        · exact absurd ⟨e, hb⟩ hw
      exact .inr ⟨mv, rest, rfl, hw', step_host h hw'⟩

/-- What a turn of the engine leaves: the state as it was, or completed, or with an error, or further on in the command. -/
def Moved (s t : State) : Prop :=
  t = s ∨ (∃ r, t = s.complete r) ∨ (∃ k f off w, t = s.raise k f off w) ∨ (∃ e, t = s.withEngine e)

theorem moved_stop {s t : State} {e : Stop} (h : s.stop e = .next t) : Moved s t := by
  obtain ⟨k, f, off, w, -, ht⟩ := stop_cases h
  exact .inr (.inr (.inl ⟨k, f, off, w, ht⟩))

theorem moved_settle {s t : State} {o : Except Stop Result} (h : s.settle o = .next t) : Moved s t := by
  rcases settle_cases h with ⟨r, -, ht⟩ | ⟨k, f, off, w, -, ht⟩
  · exact .inr (.inl ⟨r, ht⟩)
  · exact .inr (.inr (.inl ⟨k, f, off, w, ht⟩))

theorem moved_settleWalk {s t : State} {task : Task} {o : Except Stop Walk} (h : s.settleWalk task o = .next t) : Moved s t := by
  rcases settleWalk_cases h with ⟨w, -, ht⟩ | ⟨k, f, off, w, -, ht⟩
  · exact .inr (.inr (.inr ⟨_, ht⟩))
  · exact .inr (.inr (.inl ⟨k, f, off, w, ht⟩))

theorem moved_exec {i : Instr} {s t : State} (h : exec i s = .next t) : Moved s t := by
  cases hc : i.isCommand with
  | true =>
    rcases exec_command_cases hc h with ⟨r, -, ht⟩ | ⟨k, f, off, w, -, ht⟩
    · exact .inr (.inl ⟨r, ht⟩)
    · exact .inr (.inr (.inl ⟨k, f, off, w, ht⟩))
  | false =>
    obtain ⟨w, task, -, -, ⟨w', ht⟩ | ⟨k, f, off, wd, ht⟩⟩ := exec_octet_cases hc h
    · exact .inr (.inr (.inr ⟨_, ht⟩))
    · exact .inr (.inr (.inl ⟨k, f, off, wd, ht⟩))

theorem moved_withEngine {s t : State} {e : Engine}
    (h : (Host.Outcome.next (s.withEngine e) : Host.Outcome State Fault Refusal) = .next t) : Moved s t := by
  cases h
  exact .inr (.inr (.inr ⟨e, rfl⟩))

theorem moved_complete {s t : State} {r : Result}
    (h : (Host.Outcome.next (s.complete r) : Host.Outcome State Fault Refusal) = .next t) : Moved s t := by
  cases h
  exact .inr (.inl ⟨r, rfl⟩)

theorem moved_illegal {s t : State} {k : ErrKind} {f : ErrField} {off w : Nat}
    (h : (Host.Outcome.next (s.raise k f off w) : Host.Outcome State Fault Refusal) = .next t) : Moved s t := by
  cases h
  exact .inr (.inr (.inl ⟨k, f, off, w, rfl⟩))

theorem moved_openAccepted {s t : State} (h : openAccepted s = .next t) : Moved s t := by
  unfold openAccepted at h
  split at h
  case h_2 => exact moved_illegal h
  case h_1 i _ =>
    cases i
    case msg =>
      simp only [openCommand, openMessage] at h
      split at h
      · exact moved_withEngine h
      · exact moved_stop h
    all_goals
      simp only [openCommand] at h
      first | exact moved_withEngine h | exact moved_exec h

theorem moved_finishRecord {c : MsgCtx} {n : Name} {s t : State} (h : finishRecord c n s = .next t) : Moved s t := by
  unfold finishRecord at h
  split at h <;> split at h <;> first | exact moved_withEngine h | exact moved_stop h

theorem moved_nameTick {w : Walk} {task : Task} {s t : State} (h : nameTick w task s = .next t) : Moved s t := by
  unfold nameTick at h
  split at h
  · unfold readLength at h
    split at h
    · exact moved_stop h
    · split at h
      · exact moved_exec h
      · exact moved_stop h
  · exact moved_settleWalk h
  · exact moved_settleWalk h
  · cases task
    · exact moved_complete h
    · exact moved_settle h
    · exact moved_settle h
    · exact moved_finishRecord h

theorem moved_recordsTop {c : MsgCtx} {s t : State} (h : recordsTop c s = .next t) : Moved s t := by
  unfold recordsTop at h
  split_ifs at h
  · exact moved_stop h
  · exact moved_withEngine h
  · split at h
    · exact moved_withEngine h
    · exact moved_complete h

theorem moved_engineTick {s t : State} (h : engineTick s = .next t) : Moved s t := by
  unfold engineTick at h
  split at h
  · cases h; exact .inl rfl
  · exact moved_openAccepted h
  · exact moved_nameTick h
  · exact moved_recordsTop h

/-- All that a turn of the engine can do. -/
theorem moved_engineTurn {s t : State} (h : engineTurn s = .next t) : Moved s t := by
  unfold engineTurn at h
  split at h
  · unfold runCommand at h
    split at h
    · exact moved_exec h
    · exact moved_illegal h
  all_goals exact moved_engineTick h

/-- A turn of the engine keeps the parameters, BUF, BUF_LEN, CMD and the model's record of the host. -/
theorem Moved.keeps {s t : State} (h : Moved s t) :
    t.params = s.params ∧ t.buf = s.buf ∧ t.bufLen = s.bufLen ∧ t.cmd = s.cmd ∧ t.host = s.host ∧ t.hostSaw = s.hostSaw ∧
      t.resets = s.resets := by
  rcases h with rfl | ⟨r, rfl⟩ | ⟨k, f, off, w, rfl⟩ | ⟨e, rfl⟩ <;> simp

end Sys2Proof.Machine.Laws
end

