-- ==== Sys2Proof/Machine/AsmText.lean ====
section
/-! DEFINITION. The assembler lines of 30_encoding.md R108 and the second spellings of R109, as characters, and the host moves of a
program: each command is issued after the one before it has completed (R108). No instruction's meaning uses this. -/

namespace Sys2Proof.Machine

/-- A mnemonic, its second spelling (R109), its OPC, and whether it takes an offset (format O of R91). -/
structure AsmRow where
  mnemonic : List Char
  entryPoint : List Char
  opc : BitVec 4
  takesOffset : Bool
  deriving DecidableEq, Repr

/-- The eight commands (R92, R108, R109). -/
def asmRows : List AsmRow :=
  [⟨['R', 'D', '8'], ['r', 'e', 'a', 'd', '_', 'u', '8'], 1, true⟩,
   ⟨['R', 'D', '1', '6'], ['r', 'e', 'a', 'd', '_', 'u', '1', '6', '_', 'b', 'e'], 2, true⟩,
   ⟨['R', 'D', '3', '2'], ['r', 'e', 'a', 'd', '_', 'u', '3', '2', '_', 'b', 'e'], 3, true⟩,
   ⟨['H', 'D', 'R'], ['d', 'e', 'c', 'o', 'd', 'e', '_', 'h', 'e', 'a', 'd', 'e', 'r'], 4, false⟩,
   ⟨['N', 'A', 'M', 'E'], ['d', 'e', 'c', 'o', 'd', 'e', '_', 'n', 'a', 'm', 'e'], 5, true⟩,
   ⟨['Q', 'U', 'E', 'S'], ['d', 'e', 'c', 'o', 'd', 'e', '_', 'q', 'u', 'e', 's', 't', 'i', 'o', 'n'], 6, true⟩,
   ⟨['R', 'R'],
    ['d', 'e', 'c', 'o', 'd', 'e', '_', 'r', 'e', 's', 'o', 'u', 'r', 'c', 'e', '_', 'r', 'e', 'c', 'o', 'r', 'd'], 7, true⟩,
   ⟨['M', 'S', 'G'], ['d', 'e', 'c', 'o', 'd', 'e', '_', 'm', 'e', 's', 's', 'a', 'g', 'e'], 8, false⟩]

/-- The value of a hexadecimal digit. -/
def hexDigit (c : Char) : Option Nat :=
  let v := c.toNat
  if 48 ≤ v ∧ v ≤ 57 then some (v - 48)
  else if 65 ≤ v ∧ v ≤ 70 then some (v - 55)
  else if 97 ≤ v ∧ v ≤ 102 then some (v - 87)
  else none

/-- The number of a run of digits in a base, after the digits read so far. -/
def digits (base : Nat) : List Char → Nat → Option Nat
  | [], acc => some acc
  | c :: cs, acc => match hexDigit c with
    | some d => if d < base then digits base cs (base * acc + d) else none
    | none => none

/-- A number, decimal or `0x` hexadecimal (R108). -/
def asmNumber : List Char → Option Nat
  | [] => none
  | '0' :: 'x' :: c :: cs => digits 16 (c :: cs) 0
  | c :: cs => digits 10 (c :: cs) 0

/-- A byte of a LOAD line, two hexadecimal digits (R108, 00_scope.md R9). -/
def asmByte : List Char → Option Byte
  | [h, l] => do return BitVec.ofNat 8 (16 * (← hexDigit h) + (← hexDigit l))
  | _ => none

/-- The words of a line, in order; a comment runs from `;` to the end (R108). -/
def asmWords : List Char → List Char → List (List Char)
  | [], acc => if acc = [] then [] else [acc]
  | c :: cs, acc =>
    if c = ';' then (if acc = [] then [] else [acc])
    else if c = ' ' ∨ c = '\t' then (if acc = [] then asmWords cs [] else acc :: asmWords cs [])
    else asmWords cs (acc ++ [c])

/-- The word of a command line, `(OPC << 28) | OFFSET` (R108). -/
def asmCommand (p : Config.Params) (name : List Char) (operands : List (List Char)) : Option Word := do
  let row ← asmRows.find? (fun r => r.mnemonic = name || r.entryPoint = name)
  match row.takesOffset, operands with
  | false, [] => some (commandWord row.opc 0)
  | true, [n] => do
    let v ← asmNumber n
    if v < 2 ^ p.aw then some (commandWord row.opc v) else none
  | _, _ => none

/-- The host moves of one line (R108): nothing for an empty line, a LOAD, a raw word, or a command, whose completion the
host awaits. `none` where the line is not of the syntax. -/
def asmLine (p : Config.Params) (line : List Char) : Option (List HostMove) :=
  match asmWords line [] with
  | [] => some []
  | ['L', 'O', 'A', 'D'] :: bytes => (bytes.mapM asmByte).map (fun bs => [.load bs])
  | [['.', 'w', 'o', 'r', 'd'], n] => do
    let v ← asmNumber n
    if v < 2 ^ 32 then some [.start (BitVec.ofNat 32 v), .await] else none
  | name :: operands => (asmCommand p name operands).map (fun w => [.start w, .await])

/-- The host moves of a program, one line after the other (R108). -/
def asmProgram (p : Config.Params) (lines : List (List Char)) : Option (List HostMove) := (lines.mapM (asmLine p)).map List.flatten

end Sys2Proof.Machine
end

