-- ==== Sys2Proof/Tests/Slice0.lean ====
section
/-! SUPPORT. The model's own tests. Expected values are those of spec/95_test_vectors.md, by the vector's id, or are written out by
hand from the rule named. The witnesses at the end meet the hypotheses of the statements in
Sys2Proof/Certificates/Slice0/Obligations.lean, by the statement's name. -/

namespace Sys2Proof.Tests

open Sys2Proof.Machine

/-! ## Buffers and helpers -/

/-- S1's header. -/
def s1head : List Byte := [0x30, 0x39, 0x01, 0x00, 0x00, 0x01, 0x00, 0x00, 0x00, 0x00, 0x00, 0x00]
/-- "example", "com" on the wire, with the terminator. -/
def wireName : List Byte := [0x07, 0x65, 0x78, 0x61, 0x6D, 0x70, 0x6C, 0x65, 0x03, 0x63, 0x6F, 0x6D, 0x00]
def exampleCom : List Label := [[0x65, 0x78, 0x61, 0x6D, 0x70, 0x6C, 0x65], [0x63, 0x6F, 0x6D]]
def www : Label := [0x77, 0x77, 0x77]
/-- S1. -/
def s1 : List Byte := s1head ++ wireName ++ [0x00, 0x01, 0x00, 0x01]
/-- S2's header. -/
def s2head : List Byte := [0x30, 0x39, 0x81, 0x80, 0x00, 0x01, 0x00, 0x01, 0x00, 0x00, 0x00, 0x00]
/-- The fields and RDATA of the answers of S2 and B3. -/
def answerTail : List Byte := [0x00, 0x01, 0x00, 0x01, 0x00, 0x00, 0x0E, 0x10, 0x00, 0x04, 0x5D, 0xB8, 0xD8, 0x22]
/-- S2. -/
def s2 : List Byte := s2head ++ wireName ++ [0x00, 0x01, 0x00, 0x01, 0xC0, 0x0C] ++ answerTail
/-- B3. -/
def b3 : List Byte := s2head ++ wireName ++ [0x00, 0x01, 0x00, 0x01, 0x03, 0x77, 0x77, 0x77, 0xC0, 0x0C] ++ answerTail
/-- C4. -/
def c4 : List Byte := List.replicate 12 0 ++ [0x03, 0x63, 0x6F, 0x6D, 0x00, 0xC0, 0x0C, 0xC0, 0x11]

/-- The reset state with a message loaded. -/
def on (m : List Byte) : State := State.reset.load m
/-- A command word accepted over a message. -/
def accepted (m : List Byte) (w : Word) : State := (on m).accept w
/-- A name decode that has just begun. -/
def walking (m : List Byte) (o : Nat) : State :=
  (accepted m (commandWord 5 o)).withEngine (.naming (Walk.start o) .name)
/-- The same, after a pointer has been followed to `at_`. -/
def jumped (m : List Byte) (o at_ : Nat) : State :=
  (walking m o).withEngine (.naming { Walk.start o with jumped := true, fwd := 2, pos := at_ } .name)

/-- The outcome is a next state with a property. -/
def answers (o : Host.Outcome State Fault Refusal) (p : State → Bool) : Bool :=
  match o with
  | .next t => p t
  | .fault _ => false
  | .refused _ => false

theorem next_of_answers {o : Host.Outcome State Fault Refusal} {p : State → Bool} (h : answers o p = true) :
    ∃ t, o = .next t ∧ p t = true := by
  cases o with
  | next t => exact ⟨t, rfl, h⟩
  | fault _ => cases h
  | refused _ => cases h

/-- Done-ok with a result. -/
def returned (r : Result) (s : State) : Bool := s.status = .doneOk && s.result = r
/-- Done-error with an error record and no result. -/
def raised (k : ErrKind) (f : ErrField) (off w : Nat) (s : State) : Bool :=
  s.status = .doneError && s.errKind = k && s.errField = f && s.errOffset = off && s.errWidth.toNat = w &&
    s.result = .none

/-! ## WellFormed, decode, encode -/

theorem test_label_of_length_0_is_ill_formed : Instr.wellFormed Config.hw (.octLabel 0) = false := by decide
theorem test_label_of_length_63_is_well_formed : Instr.wellFormed Config.hw (.octLabel 63) = true := by decide

/-- K1 to K8. -/
theorem test_command_words :
    decode Config.hw (.command 0x10000004) = some (.rd8 4) ∧ decode Config.hw (.command 0x2000000C) = some (.rd16 12) ∧
    decode Config.hw (.command 0x30FFFFFF) = some (.rd32 16777215) ∧ decode Config.hw (.command 0x40000000) = some .hdr ∧
    decode Config.hw (.command 0x5000001D) = some (.name 29) ∧ decode Config.hw (.command 0x6000000C) = some (.ques 12) ∧
    decode Config.hw (.command 0x7000001D) = some (.rr 29) ∧ decode Config.hw (.command 0x80000000) = some .msg := by decide

/-- K9 to K15. -/
theorem test_illegal_words :
    [0x00000000, 0x90000000, 0xF0000000, 0x5100001D, 0x40000001, 0x8000000C, 0x1F000000].all
      (fun w => decodeCommand Config.hw w = none) = true := by decide

/-- The octet classes at the ends of their ranges (30_encoding.md R99), and E13's pointers. -/
theorem test_octets :
    decodeOctets [0b00000000, 0xEE] = some (.octTerm, [0xEE]) ∧ decodeOctets [0b00000001] = some (.octLabel 1, []) ∧
    decodeOctets [0b00111111] = some (.octLabel 63, []) ∧ decodeOctets [0b01000000] = some (.octRsv01 0, []) ∧
    decodeOctets [0b01111111] = some (.octRsv01 63, []) ∧ decodeOctets [0b10000000] = some (.octRsv10 0, []) ∧
    decodeOctets [0b10111111] = some (.octRsv10 63, []) ∧
    decodeOctets [0b11000000, 0b00001100] = some (.octPtr 12, []) ∧ decodeOctets [0xFF, 0xFF] = some (.octPtr 16383, []) ∧
    decodeOctets [0xC0, 0x00, 0x07] = some (.octPtr 0, [0x07]) ∧ decodeOctets [0xC0] = none ∧ decodeOctets [] = none := by
  decide

/-- Each row of spec/opcode_table.json, at one word of it. -/
theorem test_table_words :
    decodeTableWord 32 0x10000004 = some (.rd8 4) ∧ decodeTableWord 32 0x20000004 = some (.rd16 4) ∧
    decodeTableWord 32 0x30000004 = some (.rd32 4) ∧ decodeTableWord 32 0x40000000 = some .hdr ∧
    decodeTableWord 32 0x50000004 = some (.name 4) ∧ decodeTableWord 32 0x60000004 = some (.ques 4) ∧
    decodeTableWord 32 0x70000004 = some (.rr 4) ∧ decodeTableWord 32 0x80000000 = some .msg ∧
    decodeTableWord 8 0x00 = some .octTerm ∧ decodeTableWord 8 0x05 = some (.octLabel 5) ∧
    decodeTableWord 8 0x45 = some (.octRsv01 5) ∧ decodeTableWord 8 0x85 = some (.octRsv10 5) ∧
    decodeTableWord 16 0xC00C = some (.octPtr 12) := by decide

/-- The next step after reset runs the instruction placed: an empty BUF is too short for a command, and octets stand at
offset 12. -/
theorem test_fetch_runs_the_word :
    answers (step (State.reset.withFetchWord 32 0x10000000)) (raised .tooShort .raw 0 1) = true ∧
    answers (step (State.reset.withFetchWord 32 0x40000000)) (raised .tooShort .hdrLen 0 12) = true ∧
    answers (step (State.reset.withFetchWord 32 0x80000000)) (raised .tooShort .hdrLen 0 12) = true ∧
    answers (step (State.reset.withFetchWord 8 0x45)) (raised .invalidValue .nameLen 12 1) = true ∧
    answers (step (State.reset.withFetchWord 8 0x01)) (raised .invalidLabelSyntax .nameLabel 13 1) = true ∧
    answers (step (State.reset.withFetchWord 16 0xC00C)) (raised .invalidValue .namePtr 12 2) = true ∧
    answers (step (State.reset.withFetchWord 8 0x00))
      (fun t => t.engine = .naming { Walk.start 12 with fwd := 1, st := .done } .name) = true := by decide

/-! ## The commands -/

/-- PV2, PV10. -/
theorem test_rd8 :
    answers (exec (.rd8 4) (on [1, 2, 3, 4, 5])) (returned (.raw 5)) = true ∧
    answers (exec (.rd8 16777215) (on [1, 2, 3, 4, 5])) (raised .tooShort .raw 16777215 1) = true := by decide

/-- PV5, PV6. -/
theorem test_rd16 :
    answers (exec (.rd16 3) (on [1, 2, 3, 4, 5])) (returned (.raw 1029)) = true ∧
    answers (exec (.rd16 4) (on [1, 2, 3, 4, 5])) (raised .tooShort .raw 4 2) = true := by decide

/-- PV8, PV9. -/
theorem test_rd32 :
    answers (exec (.rd32 1) (on [1, 2, 3, 4, 5])) (returned (.raw 33752069)) = true ∧
    answers (exec (.rd32 2) (on [1, 2, 3, 4, 5])) (raised .tooShort .raw 2 4) = true := by decide

/-- H16. -/
theorem test_hdr_fields :
    answers (exec .hdr (on [0x30, 0x39, 0x97, 0x85, 0x00, 0x01, 0x00, 0x00, 0x00, 0x00, 0x00, 0x00]))
      (returned (.hdr ⟨12345, true, 2, true, true, true, true, 0, 5, 1, 0, 0, 0⟩)) = true := by decide

/-- H14, and S1 as a header. -/
theorem test_hdr_errors :
    answers (exec .hdr (on [0x30, 0x39, 0x04, 0x79, 0x00, 0x01, 0x00, 0x00, 0x00, 0x00, 0x00, 0x00]))
      (raised .inconsistentFields .hdrAa 2 1) = true ∧
    answers (exec .hdr (on s1)) (raised .invalidValue .hdrLen 0 12) = true := by decide

/-- N41, N43. -/
theorem test_name_labels :
    answers (exec (.name 29) (on b3)) (returned (.nam ⟨www :: exampleCom, 6⟩)) = true ∧
    answers (exec (.name 20) (on b3)) (returned (.nam ⟨[[0x63, 0x6F, 0x6D]], 5⟩)) = true := by decide

/-- N59, N62. -/
theorem test_name_second_pointer :
    answers (exec (.name 19) (on c4)) (raised .recursivePointer .namePtr 17 2) = true ∧
    answers (exec (.name 14) (on (s1head ++ [0x01, 0x61, 0x01, 0x62, 0xC0, 0x0C])))
      (raised .recursivePointer .namePtr 16 2) = true := by decide

/-- Q4. -/
theorem test_ques_result :
    answers (exec (.ques 0) (on (wireName ++ [0x00, 0xFF, 0x00, 0xFF])))
      (returned (.que ⟨⟨exampleCom, 13⟩, 255, 255⟩ 17)) = true := by decide

/-- Q18, and the question whose qtype is bad and whose qclass is cut. -/
theorem test_ques_order :
    answers (exec (.ques 0) (on (wireName ++ [0x00, 0x00, 0x00, 0x00]))) (raised .invalidValue .qQtype 13 2) = true ∧
    answers (exec (.ques 0) (on (wireName ++ [0x00, 0x00, 0x00]))) (raised .tooShort .qQclass 15 2) = true := by decide

/-- RV1, and RR 29 on S2. -/
theorem test_rr_result :
    answers (exec (.rr 0) (on [0, 0x00, 0x02, 0x00, 0x01, 0x7F, 0xFF, 0xFF, 0xFF, 0x00, 0x00]))
      (returned (.rr ⟨⟨[], 1⟩, 2, 1, 2147483647, 0, 11⟩ 11)) = true ∧
    answers (exec (.rr 29) (on s2)) (returned (.rr ⟨⟨exampleCom, 2⟩, 1, 1, 3600, 4, 41⟩ 16)) = true := by decide

/-- RV9, RV10, RV5. -/
theorem test_rr_order :
    answers (exec (.rr 0) (on [0, 0x00, 0x01, 0x00, 0x01, 0x00, 0x00, 0x00, 0x3C, 0x00, 0x06, 0x01, 0x02, 0x03]))
      (raised .inconsistentFields .rrRdata 11 6) = true ∧
    answers (exec (.rr 0) (on [0, 0x00, 0x01, 0x00, 0x01, 0x00, 0x00, 0x00, 0x3C, 0x00, 0x00]))
      (raised .inconsistentFields .rrRdlength 9 2) = true ∧
    answers (exec (.rr 0) (on [0, 0x00, 0x02, 0x00, 0x01, 0x80, 0x00, 0x00, 0x00])) (raised .invalidValue .rrTtl 5 4) = true := by
  decide

/-- MV2: an answer beside a question. -/
theorem test_msg_result :
    answers (exec .msg (on s2)) (returned (.msg
      ⟨⟨12345, true, 0, false, false, true, true, 0, 0, 1, 1, 0, 0⟩,
        ⟨[⟨⟨exampleCom, 13⟩, 1, 1⟩], [⟨⟨exampleCom, 2⟩, 1, 1, 3600, 4, 41⟩], [], []⟩⟩ 45)) = true := by decide

/-- MV6, MV10. -/
theorem test_msg_counts :
    answers (exec .msg (on s1head)) (raised .countMismatch .msgCount 12 0) = true ∧
    answers (exec .msg (on (s1.set 5 2 ++ [0x00]))) (raised .tooShort .qQtype 30 2) = true := by decide

/-! ## The octet classes (95_test_vectors.md, the engine trace of program P3) -/

/-- The trace's `00 at 24: jumped, so fwd stays`, and a terminator where no pointer has been followed (P1: fwd 13). -/
theorem test_octTerm :
    answers (exec .octTerm ((walking b3 29).withEngine (.naming ⟨29, 24, true, 6, 17, www :: exampleCom, .readLength⟩ .name)))
      (fun t => t.engine = .naming ⟨29, 24, true, 6, 17, www :: exampleCom, .done⟩ .name) = true ∧
    answers (exec .octTerm ((walking s1 12).withEngine (.naming ⟨12, 24, false, 12, 13, exampleCom, .readLength⟩ .name)))
      (fun t => t.engine = .naming ⟨12, 24, false, 13, 13, exampleCom, .done⟩ .name) = true := by decide

/-- The trace's label "www" at 29, and N31's error: total 193 and a label of 62 make 256. -/
theorem test_octLabel :
    answers (exec (.octLabel 3) (walking b3 29))
      (fun t => t.engine = .naming ⟨29, 33, false, 4, 5, [www], .readLength⟩ .name) = true ∧
    answers (exec (.octLabel 62)
      ((walking (62 :: List.replicate 62 0x61) 0).withEngine (.naming ⟨0, 0, false, 192, 193, [], .readLength⟩ .name)))
      (raised .invalidValue .nameTotal 0 63) = true := by decide

/-- N25. -/
theorem test_octRsv01 : answers (exec (.octRsv01 0) (walking [0x40, 1, 2, 3] 0)) (raised .invalidValue .nameLen 0 1) = true := by
  decide

/-- N26. -/
theorem test_octRsv10 : answers (exec (.octRsv10 63) (walking [0xBF, 1, 2, 3] 0)) (raised .invalidValue .nameLen 0 1) = true := by
  decide

/-- The trace's pointer at 33 to 12, and N56's missing second octet. -/
theorem test_octPtr :
    answers (exec (.octPtr 12) ((walking b3 29).withEngine (.naming ⟨29, 33, false, 4, 5, [www], .readLength⟩ .name)))
      (fun t => t.engine = .naming ⟨29, 12, true, 6, 5, [www], .readLength⟩ .name) = true ∧
    answers (exec (.octPtr 0) (walking (s1head ++ [0xC0]) 12)) (raised .tooShort .namePtr2 13 1) = true := by decide

/-- N16 of 95_test_vectors.md 2.4 under both values of ACE_CASE_INSENSITIVE, and a command word of a block with AW = 10, in which
bits 27:10 are RSV (log 15). -/
theorem test_parameters :
    (decodeName Config.hw [5, 0x58, 0x4E, 0x2D, 0x2D, 0x61, 0] 0).toOption = none ∧
    (decodeName { Config.hw with aceCaseInsensitive := true } [5, 0x58, 0x4E, 0x2D, 0x2D, 0x61, 0] 0).toOption =
      some ⟨[[0x58, 0x4E, 0x2D, 0x2D, 0x61]], 7⟩ ∧
    decodeCommand { bufMax := 512, aw := 10, aceCaseInsensitive := false } 0x500003FF = some (.name 1023) ∧
    decodeCommand { bufMax := 512, aw := 10, aceCaseInsensitive := false } 0x50000400 = none := by decide

/-- STATUS after an error reads 110 in bits 2:0 (10_state.md R24), and registers of P2's line 6: R_TTL, R_TYPE, LBL. -/
theorem test_register_reads :
    ((on s1).raise .tooShort .raw 29 1).readReg .status = some (.word 6) ∧
    ((on s1).raise .tooShort .raw 29 1).readReg .errOffset = some (.word 29) ∧
    ((on s2).complete (.rr ⟨⟨exampleCom, 2⟩, 1, 1, 3600, 4, 41⟩ 16)).readReg .rTtl = some (.word 3600) ∧
    ((on s2).complete (.rr ⟨⟨exampleCom, 2⟩, 1, 1, 3600, 4, 41⟩ 16)).readReg .lbl = some (.lbl (wireName.take 12)) ∧
    ((on s2).complete (.rr ⟨⟨exampleCom, 2⟩, 1, 1, 3600, 4, 41⟩ 16)).readReg .rRdoff = some (.word 41) := by decide

/-! ## The host, the reference encoders, the assembler -/

/-- START while BUSY = 1 is dropped (10_state.md R41), a reset abandons a command (R302), BUF_LEN reads as LOAD left it (R40). -/
theorem test_host_moves :
    answers (step ((accepted s1 0x80000000).withHost [.start 0x10000000])) (fun t => t.cmd = 0x80000000) = true ∧
    answers (step ((accepted s1 0x80000000).withHost [.reset])) (fun t => t.status.word = 0 && t.bufLen = 0) = true ∧
    answers (step ((on s1).withHost [.read .bufLen])) (fun t => t.hostSaw = some (.word 29)) = true := by decide

/-- X3, X6, X7, X10. -/
theorem test_reference_encoders :
    encodeHeader ⟨0xABCD, true, 2, true, true, true, true, 0, 5, 0x0102, 0x0304, 0x0506, 0x0708⟩ =
      [0xAB, 0xCD, 0x97, 0x85, 0x01, 0x02, 0x03, 0x04, 0x05, 0x06, 0x07, 0x08] ∧
    (encodeName (www :: exampleCom)).toOption = some ([0x03, 0x77, 0x77, 0x77] ++ wireName) ∧
    (encodeName [List.replicate 64 0x61]).toOption = none ∧
    (encodeQuestion ⟨⟨exampleCom, 13⟩, 1, 1⟩).toOption = some (wireName ++ [0x00, 0x01, 0x00, 0x01]) := by decide

/-- The syntax of 30_encoding.md R108 and a second spelling of R109. -/
theorem test_assembler :
    asmLine Config.hw ['L', 'O', 'A', 'D', ' ', '3', '0', ' ', 'a', 'F', ' ', ';', 'x'] = some [.load [0x30, 0xAF]] ∧
    asmLine Config.hw ['N', 'A', 'M', 'E', ' ', '0', 'x', '1', 'D'] = some [.start 0x5000001D, .await] ∧
    asmLine Config.hw ['r', 'e', 'a', 'd', '_', 'u', '8', ' ', '4'] = some [.start 0x10000004, .await] ∧
    asmLine Config.hw ['H', 'D', 'R', ' ', '1'] = none := by decide

/-! ## Witnesses for the statements -/

/-- A state in the done-ok status, with a raw result. -/
def withResult : State := (accepted [5] 0x10000000).complete (.raw 5)

theorem witness_StepRunsTheDecodedInstruction :
    ((accepted s1 0x10000004).EngineMoves ∧ (accepted s1 0x10000004).engine = .accepted ∧
      decodeCommand (accepted s1 0x10000004).params (accepted s1 0x10000004).cmd = some (.rd8 4)) ∧
    ((walking s1 12).EngineMoves ∧ (walking s1 12).engine = .naming (Walk.start 12) .name ∧
      (Walk.start 12).st = .readLength ∧
      decodeOctets (slice (walking s1 12).message (Walk.start 12).pos 2) = some (.octLabel 7, [0x65])) ∧
    ((walking s1 29).engine = .naming (Walk.start 29) .name ∧ (walking s1 29).bufLen ≤ (Walk.start 29).pos) ∧
    ((walking (s1 ++ [0xC0]) 29).engine = .naming (Walk.start 29) .name ∧
      (Walk.start 29).pos + 1 = (walking (s1 ++ [0xC0]) 29).bufLen ∧ 0xC0 ≤ ((walking (s1 ++ [0xC0]) 29).byteAt 29).toNat) ∧
    (((walking s1 12).withHost [.tick]).host = .tick :: [] ∧
      ((walking s1 12).withHost [.tick]).engine = .naming (Walk.start 12) .name) :=
  ⟨⟨.inl rfl, rfl, by decide⟩, ⟨.inl rfl, rfl, rfl, by decide⟩, ⟨rfl, by decide⟩, ⟨rfl, by decide, by decide⟩, rfl, rfl⟩

theorem witness_DecodeAndEncodeAgree : Config.hw.aw ≤ 28 ∧
    (Instr.octLabel 63).wellFormed Config.hw = true ∧ (Instr.name 16777215).wellFormed Config.hw = true ∧
    decodeCommand Config.hw 0x5000001D = some (.name 29) ∧ decodeOctets [0xC0, 0x0C, 0x01] = some (.octPtr 12, [0x01]) := by decide

theorem witness_IllegalWordsRaiseIllegalCommand :
    (accepted s1 0x1F000000).EngineMoves ∧ (accepted s1 0x1F000000).engine = .accepted ∧
    decodeCommand (accepted s1 0x1F000000).params (accepted s1 0x1F000000).cmd = none := ⟨.inl rfl, rfl, by decide⟩

theorem witness_ResetLeavesTheValuesOfTheTable :
    State.reset.bufLen = 0 ∧ Instr.msg.isCommand = true ∧ Reg.msgStore.isResult = true := by decide

theorem witness_HardResetAbandonsAndRestores :
    ((walking s1 12).withHost [.reset, .await]).host = .reset :: [.await] ∧
    ((walking s1 12).withHost [.reset, .await]).status.busy = true := by decide

theorem witness_StartIsAcceptedOrDropped :
    (((walking s1 12).withHost [.start 0]).host = .start 0 :: [] ∧ (walking s1 12).status.busy = true) ∧
    (((walking s1 12).withHost [.load [1]]).host = .load [1] :: [] ∧
      ((walking s1 12).withHost [.writeByte 0 1]).host = .writeByte 0 1 :: [] ∧
      ((walking s1 12).withHost [.writeLen 1]).host = .writeLen 1 :: []) ∧
    (((on s1).withHost [.start 0x80000000]).host = .start 0x80000000 :: [] ∧ (on s1).status.busy = false) := by decide

theorem witness_LoadMakesTheMessage :
    (withResult.withHost [.load c4]).host = .load c4 :: [] ∧ withResult.status.busy = false ∧
    c4.length ≤ Config.hw.bufMax ∧ ([] : List Byte).length ≤ Config.hw.bufMax := by decide

theorem controlOK_busy : (walking s1 12).ControlOK :=
  { statusLegal := by decide, busyIff := by decide, errIff := by decide, errZero := by decide, resultIff := by decide }

theorem controlOK_done : withResult.ControlOK :=
  { statusLegal := by decide, busyIff := by decide, errIff := by decide, errZero := by decide, resultIff := by decide }

theorem witness_ReadChangesNothing :
    ((withResult.withHost [.read .resValue]).host = .read .resValue :: [] ∧
      (withResult.withHost [.read .resValue]).readReg .resValue = some (.word 5)) ∧
    ((withResult.withHost [.read .lbl]).host = .read .lbl :: [] ∧ (withResult.withHost [.read .lbl]).readReg .lbl = none) ∧
    ((walking s1 12).ControlOK ∧ (walking s1 12).status.busy = true) :=
  ⟨⟨rfl, by decide⟩, ⟨rfl, by decide⟩, controlOK_busy, rfl⟩

theorem witness_ResultLastsUntilTheNextStart :
    withResult.ControlOK ∧ withResult.result ≠ .none ∧ step withResult = .next withResult :=
  ⟨controlOK_done, by decide, rfl⟩

theorem witness_RaiseWritesTheErrorRecord : 16777215 < 2 ^ 24 ∧ 65535 < 2 ^ 16 ∧ Reg.resValue.isResult = true := by decide

theorem witness_EveryCommandEnds : (Instr.msg).isCommand = true ∧ (Instr.rd8 0).isCommand = true := by decide

/-- Every one of the thirteen instructions answers a next state somewhere. -/
theorem witness_InstructionsLeaveBufferAndCommandAlone :
    [Instr.rd8 4, .rd16 0, .rd32 41, .hdr, .name 29, .ques 12, .rr 29, .msg].all
      (fun i => answers (exec i (on s2)) (fun _ => true)) = true ∧
    [Instr.octTerm, .octLabel 7, .octRsv01 0, .octRsv10 0, .octPtr 0].all
      (fun i => answers (exec i (walking s1 12)) (fun _ => true)) = true := by decide

theorem witness_OctetsChangeOnlyTheWalk :
    [Instr.octTerm, .octLabel 7, .octPtr 0].all
      (fun i => !i.isCommand && answers (exec i (walking s1 12)) (fun t => t.engine ≠ .idle)) = true := by decide

theorem witness_OnlyTheIdleHostChangesTheBuffer :
    answers (step ((on [1]).withHost [.load [2]])) (fun t => t.byteAt 0 ≠ (on [1]).byteAt 0) = true ∧
    answers (step ((on [1]).withHost [.writeByte 0 2])) (fun t => t.byteAt 0 ≠ (on [1]).byteAt 0) = true := by decide

/-- Two states with the same word and message and a different past: a byte past the message, and an earlier result. -/
theorem witness_OutcomeIsAFunctionOfWordAndMessage :
    (accepted [1, 2] 0x10000001).EngineMoves ∧ ((accepted [1, 2, 9] 0x10000001).writeLen 2).EngineMoves ∧
    (accepted [1, 2] 0x10000001).engine = .accepted ∧ ((accepted [1, 2, 9] 0x10000001).writeLen 2).engine = .accepted ∧
    (accepted [1, 2] 0x10000001).cmd = ((accepted [1, 2, 9] 0x10000001).writeLen 2).cmd ∧
    (accepted [1, 2] 0x10000001).bufLen = ((accepted [1, 2, 9] 0x10000001).writeLen 2).bufLen ∧
    (∀ a < (accepted [1, 2] 0x10000001).bufLen,
      (accepted [1, 2] 0x10000001).byteAt a = ((accepted [1, 2, 9] 0x10000001).writeLen 2).byteAt a) ∧
    ∃ t, step (accepted [1, 2] 0x10000001) = .next t := by
  refine ⟨.inl rfl, .inl rfl, rfl, rfl, rfl, by decide, by decide, ?_⟩
  obtain ⟨t, h, -⟩ := next_of_answers (p := fun _ => true) (o := step (accepted [1, 2] 0x10000001)) (by decide)
  exact ⟨t, h⟩

theorem witness_KindsEachCommandReports :
    [Instr.rd8 45, .rd16 45, .rd32 45, .hdr, .name 45, .ques 45, .rr 45].all
      (fun i => answers (exec i (on s2)) (fun t => t.status = .doneError)) = true ∧
    answers (exec .msg (on s1head)) (fun t => t.status = .doneError) = true := by decide

/-- Each of the six raises an error on some message and offset, the last byte of the range of offsets included. -/
theorem witness_RaisedOffsetsAndWidthsFit : Config.hw.Valid ∧ 16777215 < 2 ^ Config.hw.aw ∧
    (on s2).message.length ≤ Config.hw.bufMax ∧
    decodeHeader [] = .error (.raise .tooShort .hdrLen 0 12) ∧
    decodeName Config.hw [] 16777215 = .error (.raise .tooShort .nameLen 16777215 1) ∧
    decodeQuestion Config.hw [] 16777215 = .error (.raise .tooShort .nameLen 16777215 1) ∧
    decodeRecord Config.hw [] 16777215 = .error (.raise .tooShort .nameLen 16777215 1) ∧
    decodeMessage Config.hw [] = .error (.raise .tooShort .hdrLen 0 12) ∧
    memRead [] 16777215 4 .raw = .error (.raise .tooShort .raw 16777215 4) :=
  ⟨Laws.hw_valid, by decide, by decide, rfl, rfl, rfl, rfl, rfl, rfl⟩

theorem witness_MemReadIsBigEndianInBounds :
    ([1, 2, 3] : List Byte).length < 2 + 2 ∧ 1 + 2 ≤ ([1, 2, 3] : List Byte).length ∧ 3 + 0 ≤ ([1, 2, 3] : List Byte).length := by
  decide

theorem witness_MemSpanIsTheBytesInBounds :
    ([1, 2, 3] : List Byte).length < 3 + 1 ∧ 0 + 3 ≤ ([1, 2, 3] : List Byte).length := by decide

/-- Offsets at both sides of each bound, on BUF = 01 02 03 04 05. -/
theorem witness_PrimitiveReadsGiveTheValueOrTooShort : 16777215 < 2 ^ 24 ∧
    (on [1, 2, 3, 4, 5]).message = [1, 2, 3, 4, 5] ∧
    4 + 1 ≤ (on [1, 2, 3, 4, 5]).bufLen ∧ (on [1, 2, 3, 4, 5]).bufLen < 5 + 1 ∧
    3 + 2 ≤ (on [1, 2, 3, 4, 5]).bufLen ∧ (on [1, 2, 3, 4, 5]).bufLen < 4 + 2 ∧
    1 + 4 ≤ (on [1, 2, 3, 4, 5]).bufLen ∧ (on [1, 2, 3, 4, 5]).bufLen < 2 + 4 := by decide

theorem witness_WideReadsAreMadeOfNarrowOnes :
    1 + 4 ≤ (on [1, 2, 3, 4, 5]).bufLen ∧ 3 + 2 ≤ (on [1, 2, 3, 4, 5]).bufLen := by
  decide

/-- A header with given bytes 2 and 3. -/
def headed (b2 b3 : Byte) : State := on [0x30, 0x39, b2, b3, 0x00, 0x01, 0x00, 0x00, 0x00, 0x00, 0x00, 0x00]

/-- Each branch at a boundary: H6, H4, H8, H11, H10, and the two lengths. -/
theorem witness_HeaderIsCheckedInOrderThenReturned :
    (List.replicate 11 (0 : Byte)).length < 12 ∧ 12 ≤ (List.replicate 12 (0 : Byte)).length ∧
    (decodeHeader s1head).toOption.isSome = true ∧ decodeHeader [] = .error (.raise .tooShort .hdrLen 0 12) ∧
    (on (List.replicate 11 0)).bufLen < 12 ∧ 12 < (on (List.replicate 13 0)).bufLen ∧
    ((headed 0x18 0).bufLen = 12 ∧ 2 < ((headed 0x18 0).byteAt 2).toNat / 8 % 16) ∧
    (((headed 0x04 0).byteAt 2).toNat / 8 % 16 ≤ 2 ∧ ((headed 0x04 0).byteAt 2).toNat / 128 = 0 ∧
      ((headed 0x04 0).byteAt 2).toNat / 4 % 2 = 1) ∧
    (((headed 0x10 0x10).byteAt 2).toNat / 8 % 16 ≤ 2 ∧
      ¬(((headed 0x10 0x10).byteAt 2).toNat / 128 = 0 ∧ ((headed 0x10 0x10).byteAt 2).toNat / 4 % 2 = 1) ∧
      ((headed 0x10 0x10).byteAt 3).toNat / 16 % 8 ≠ 0) ∧
    (((headed 0 6).byteAt 3).toNat / 16 % 8 = 0 ∧ 5 < ((headed 0 6).byteAt 3).toNat % 16) ∧
    (((headed 0x84 5).byteAt 3).toNat / 16 % 8 = 0 ∧ ((headed 0x84 5).byteAt 3).toNat % 16 ≤ 5 ∧
      ¬(((headed 0x84 5).byteAt 2).toNat / 128 = 0 ∧ ((headed 0x84 5).byteAt 2).toNat / 4 % 2 = 1)) ∧
    (headed 1 0).message = [0x30, 0x39, 0x01, 0x00, 0x00, 0x01, 0x00, 0x00, 0x00, 0x00, 0x00, 0x00] := by decide

theorem witness_AcceptedHeadersAreValid : (decodeHeader s1head).toOption.isSome = true := by decide

/-- S1's header, as MV5 has it: no record counted. -/
def plainHeader : Header := ⟨12345, false, 0, false, false, true, false, 0, 0, 0, 0, 0, 0⟩

theorem witness_HeaderRoundTrips :
    decodeHeader (s1head.set 5 0) = .ok plainHeader ∧ plainHeader.Valid :=
  ⟨rfl, by unfold Header.Valid; decide⟩

theorem witness_LabelGrammar :
    1 ≤ ([0x61] : Label).length ∧ ([0x61] : Label).length ≤ 63 ∧ (List.replicate 63 0x61 : Label).length ≤ 63 ∧
    labelOK true [0x58, 0x4E, 0x2D, 0x2D, 0x61] = true := by decide

theorem witness_TerminatorEndsTheName :
    ((walking s1 12).engine = .naming (Walk.start 12) .name ∧ (Walk.start 12).st = .readLength ∧
      (Walk.start 12).jumped = false) ∧
    ((jumped b3 33 24).engine = .naming { Walk.start 33 with jumped := true, fwd := 2, pos := 24 } .name) := by decide

/-- N28's cut label; N18's label; N30's last label, which makes 255, and one byte more. -/
theorem witness_LabelOctetReadsTheLabel :
    ((walking [0x03, 0x63, 0x6F] 0).bufLen < 0 + 1 + (3 : BitVec 6).toNat) ∧
    ((walking [0x03, 0x61, 0x5F, 0x62, 0x00] 0).Holds 1 [0x61, 0x5F, 0x62] ∧
      labelOK Config.hw.aceCaseInsensitive [0x61, 0x5F, 0x62] = false) ∧
    ((walking [0x01, 0x61] 0).Holds 1 [0x61] ∧ labelOK Config.hw.aceCaseInsensitive [0x61] = true ∧
      ([0x61] : Label).length = (1 : BitVec 6).toNat ∧ 253 + 1 + 1 ≤ 255 ∧ 255 < 254 + 1 + 1) :=
  ⟨by decide, ⟨⟨by decide, by decide⟩, by decide⟩, ⟨by decide, by decide⟩, by decide⟩

theorem witness_ReservedOctetsAreInvalidLengths :
    (0x40 ≤ (0x40 : Byte).toNat ∧ (0xBF : Byte).toNat ≤ 0xBF) ∧ (walking [0x40] 0).engine = .naming (Walk.start 0) .name ∧
    (on [0x40]).Holds 0 [0x40] := ⟨by decide, rfl, by decide, by decide⟩

/-- N56; a second pointer; N51; N53's target past the message with the name after it; N40. -/
theorem witness_PointerIsFollowedOnceAndBackward :
    ((walking (s1head ++ [0xC0]) 12).bufLen < 12 + 2) ∧
    ((jumped s2 29 25).engine = .naming { Walk.start 29 with jumped := true, fwd := 2, pos := 25 } .name ∧
      25 + 2 ≤ (jumped s2 29 25).bufLen) ∧
    ((walking s2 29).engine = .naming (Walk.start 29) .name ∧ 29 + 2 ≤ (walking s2 29).bufLen ∧
      (Walk.start 29).o ≤ (29 : BitVec 14).toNat ∧ (12 : BitVec 14).toNat < (Walk.start 29).o ∧
      (12 : BitVec 14).toNat < (walking s2 29).bufLen) ∧
    (((walking s2 29).withEngine (.naming { Walk.start 60 with pos := 29 } .name)).bufLen ≤ (50 : BitVec 14).toNat ∧
      (50 : BitVec 14).toNat < (Walk.start 60).o) := by decide

/-- N51 (its own offset), N59 (a chain). -/
theorem witness_SelfForwardAndChainedPointersAreRejected :
    ((on (s1 ++ [0xC0, 0x1D])).Holds 29 [0xC0, 0x1D] ∧ 29 ≤ 256 * ((0xC0 : Byte).toNat % 64) + (0x1D : Byte).toNat) ∧
    ((on c4).Holds 19 [0xC0, 0x11] ∧ 256 * ((0xC0 : Byte).toNat % 64) + (0x11 : Byte).toNat < 19 ∧
      (on c4).Holds (256 * ((0xC0 : Byte).toNat % 64) + (0x11 : Byte).toNat) [0xC0, 0x0C]) :=
  ⟨⟨⟨by decide, by decide⟩, by decide⟩, ⟨by decide, by decide⟩, by decide, ⟨by decide, by decide⟩⟩

theorem witness_UncompressedNameDecodes :
    LabelsOK Config.hw exampleCom ∧ (on s1).Holds 12 (labelBytes exampleCom ++ [0]) :=
  ⟨by unfold LabelsOK Label.OK; decide, by decide, by decide⟩

theorem witness_CompressedNameDecodes :
    LabelsOK Config.hw ([www] ++ exampleCom) ∧ 12 < 29 ∧ 12 < 16384 ∧
    (on b3).Holds 29 (labelBytes [www] ++ [BitVec.ofNat 8 (192 + 12 / 256), BitVec.ofNat 8 (12 % 256)]) ∧
    (on b3).Holds 12 (labelBytes exampleCom ++ [0]) :=
  ⟨by unfold LabelsOK Label.OK; decide, by decide, by decide, ⟨by decide, by decide⟩, by decide, by decide⟩

/-- Names 12 of S1 and 29 of B3, for the statements about decoded names. -/
theorem witness_DecodedNamesEncodeBack :
    decodeName Config.hw s1 12 = .ok ⟨exampleCom, 13⟩ ∧ (⟨exampleCom, 13⟩ : Name).consumed = (⟨exampleCom, 13⟩ : Name).wireLen :=
  ⟨rfl, rfl⟩

theorem witness_DecodedNamesAreBounded :
    decodeName Config.hw b3 29 = .ok ⟨www :: exampleCom, 6⟩ ∧ decodeName Config.hw wireName 0 = .ok ⟨exampleCom, 13⟩ := ⟨rfl, rfl⟩

theorem witness_NameStateMachineComputesTheFunction : (walking s1 12).engine = .naming (Walk.start 12) .name ∧ 130 ≤ 130 := by
  decide

theorem witness_BothGrainsEndAlike :
    (accepted s2 0x90000000).engine = .accepted ∧ decodeCommand Config.hw 0x90000000 = none ∧
    (accepted s2 0x80000000).engine = .accepted ∧ decodeCommand (accepted s2 0x80000000).params (accepted s2 0x80000000).cmd = some .msg := by decide

/-- `QUES 0` on wireName and qtype, qclass: the cuts of 95_test_vectors.md 2.5, Q8 and Q10 to Q3's ends, Q14, Q4. -/
theorem witness_QuestionFieldsFollowTheName :
    decodeName Config.hw [] 0 = .error (.raise .tooShort .nameLen 0 1) ∧
    decodeName Config.hw (wireName ++ [0x00, 0xFC, 0x00, 0xFF]) 0 = .ok ⟨exampleCom, 13⟩ ∧
    ((on (wireName ++ [0x00])).bufLen < 13 + 2) ∧
    (13 + 2 ≤ (on (wireName ++ [0x00, 0x01, 0x00])).bufLen ∧ (on (wireName ++ [0x00, 0x01, 0x00])).bufLen < 13 + 4) ∧
    (13 + 4 ≤ (on (wireName ++ [0x00, 0x11, 0x00, 0x01])).bufLen ∧
      (on (wireName ++ [0x00, 0x11, 0x00, 0x01])).be16 13 = 17) ∧
    ((on (wireName ++ [0x00, 0xFC, 0x00, 0x02])).be16 13 = 252 ∧ (on (wireName ++ [0x00, 0xFC, 0x00, 0x02])).be16 15 = 2) ∧
    ((on (wireName ++ [0x00, 0x10, 0x00, 0xFF])).be16 13 = 16 ∧ (on (wireName ++ [0x00, 0x10, 0x00, 0xFF])).be16 15 = 255) :=
  ⟨rfl, rfl, by decide, by decide, by decide, by decide, by decide⟩

/-- The root-name records of 95_test_vectors.md 2.6: RV17, RV18, RV19, RV2, RV20, RV9, RV7, RV6, with the name's end at 1. -/
theorem witness_RecordFieldsFollowTheName :
    decodeName Config.hw [0] 0 = .ok ⟨[], 1⟩ ∧ decodeName Config.hw [] 0 = .error (.raise .tooShort .nameLen 0 1) ∧
    (on [0, 0]).bufLen < 1 + 2 ∧
    (1 + 2 ≤ (on [0, 0, 2]).bufLen ∧ (on [0, 0, 2]).bufLen < 1 + 4) ∧
    (1 + 4 ≤ (on [0, 0, 2, 0, 1]).bufLen ∧ (on [0, 0, 2, 0, 1]).bufLen < 1 + 8) ∧
    (1 + 8 ≤ (on [0, 0, 2, 0, 1, 0x80, 0, 0, 0]).bufLen ∧ (on [0, 0, 2, 0, 1, 0x80, 0, 0, 0]).be32 (1 + 4) = 0x80000000) ∧
    ((on [0, 0, 2, 0, 1, 0x7F, 0xFF, 0xFF, 0xFF]).be32 (1 + 4) = 0x7FFFFFFF ∧
      (on [0, 0, 2, 0, 1, 0x7F, 0xFF, 0xFF, 0xFF]).bufLen < 1 + 10) ∧
    (1 + 10 ≤ (on [0, 0, 1, 0, 1, 0, 0, 0, 0x3C, 0, 6, 1]).bufLen ∧
      (on [0, 0, 1, 0, 1, 0, 0, 0, 0x3C, 0, 6, 1]).bufLen <
        1 + 10 + (on [0, 0, 1, 0, 1, 0, 0, 0, 0x3C, 0, 6, 1]).be16 (1 + 8)) ∧
    (1 + 10 + (on [0, 0, 1, 0, 1, 0, 0, 0, 0x3C, 0, 3, 1, 2, 3]).be16 (1 + 8) ≤
        (on [0, 0, 1, 0, 1, 0, 0, 0, 0x3C, 0, 3, 1, 2, 3]).bufLen ∧
      (on [0, 0, 1, 0, 1, 0, 0, 0, 0x3C, 0, 3, 1, 2, 3]).be16 1 = 1) ∧
    (1 + 10 + (on [0, 0, 1, 0, 1, 0, 0, 0, 0x3C, 0, 4, 1, 2, 3, 4]).be16 (1 + 8) ≤
        (on [0, 0, 1, 0, 1, 0, 0, 0, 0x3C, 0, 4, 1, 2, 3, 4]).bufLen ∧
      (on [0, 0, 1, 0, 1, 0, 0, 0, 0x3C, 0, 4, 1, 2, 3, 4]).be16 (1 + 8) = 4) :=
  ⟨rfl, rfl, by decide, by decide, by decide, by decide, by decide, by decide, by decide, by decide⟩

theorem witness_RdataIsTheSpanOfTheBuffer :
    ∃ t, exec (.rr 29) (on s2) = .next t ∧ t.result = .rr ⟨⟨exampleCom, 2⟩, 1, 1, 3600, 4, 41⟩ 16 := by
  obtain ⟨t, h, hp⟩ := next_of_answers (o := exec (.rr 29) (on s2))
    (p := fun t => t.result = .rr ⟨⟨exampleCom, 2⟩, 1, 1, 3600, 4, 41⟩ 16) (by decide)
  exact ⟨t, h, by simpa using hp⟩

/-- The question and the answer of S2, one after the other from offset 12 to 45. -/
theorem witness_MessageIsHeaderAndCountedRecords :
    headerOfMessage s2 = .ok ⟨12345, true, 0, false, false, true, true, 0, 0, 1, 1, 0, 0⟩ ∧
    QuestionsAt Config.hw s2 12 [⟨⟨exampleCom, 13⟩, 1, 1⟩] 29 ∧ RecordsAt Config.hw s2 29 [⟨⟨exampleCom, 2⟩, 1, 1, 3600, 4, 41⟩] 45 ∧
    RecordsAt Config.hw s2 45 [] 45 :=
  ⟨rfl, ⟨by decide, 17, rfl, rfl⟩, ⟨by decide, 16, rfl, rfl⟩, rfl⟩

/-- The failing places: no header; MV6 and MV15 (questions); MV20 and MV22 (answers); MV21; S2 with nscount or arcount 1 and
one byte more. -/
theorem witness_MessageFailsAtTheFirstBadRecord :
    headerOfMessage [] = .error (.raise .tooShort .hdrLen 0 12) ∧
    (QuestionsAt Config.hw s1head 12 [] 12 ∧ (on s1head).bufLen ≤ 12) ∧
    (QuestionsAt Config.hw (s1.take 20) 12 [] 12 ∧ 12 < (on (s1.take 20)).bufLen ∧
      decodeQuestion Config.hw (s1.take 20) 12 = .error (.raise .tooShort .nameLen 20 1)) ∧
    (QuestionsAt Config.hw s2 12 [⟨⟨exampleCom, 13⟩, 1, 1⟩] 29 ∧ RecordsAt Config.hw (s2.take 44) 29 [] 29 ∧
      decodeRecord Config.hw (s2.take 44) 29 = .error (.raise .inconsistentFields .rrRdata 41 4)) ∧
    (RecordsAt Config.hw s2 29 [⟨⟨exampleCom, 2⟩, 1, 1, 3600, 4, 41⟩] 45 ∧ (on s2).bufLen ≤ 45) ∧
    (RecordsAt Config.hw (s2 ++ [0]) 45 [] 45 ∧ 45 < (on (s2 ++ [0])).bufLen ∧
      decodeRecord Config.hw (s2 ++ [0]) 45 = .error (.raise .tooShort .rrType 46 2)) :=
  ⟨rfl, ⟨rfl, by decide⟩, ⟨rfl, by decide, rfl⟩, ⟨⟨by decide, 17, rfl, rfl⟩, rfl, rfl⟩, ⟨⟨by decide, 16, rfl, rfl⟩, by decide⟩,
    rfl, by decide, rfl⟩

/-- MV1 and MV12. -/
theorem witness_TrailingBytesAreNotLookedAt :
    (decodeMessage Config.hw s1).toOption.map Prod.snd = some 29 ∧ 29 ≤ (s1 ++ [0xFF, 0xC0, 0x0C]).length ∧
    (s1 ++ [0xFF, 0xC0, 0x0C]).take 29 = s1.take 29 := by decide

/-- A name of S1 being decoded: the invariant holds in the middle of a command. -/
theorem witness_StepKeepsTheInvariant : (walking s1 12).Inv :=
  { params := Laws.hw_valid
    control := controlOK_busy
    memory := ⟨by decide, by decide⟩
    result := trivial
    engine := ⟨{ labels := ⟨by simp [Walk.start], by decide⟩, total := rfl, count := ⟨rfl, rfl⟩, inside := .inl rfl, st := trivial,
                 fits := by decide }, trivial⟩
    errFits := by decide }

theorem witness_StepKeepsControl : (walking s1 12).ControlOK ∧ ∃ t, step (walking s1 12) = .next t := by
  obtain ⟨t, h, -⟩ := next_of_answers (o := step (walking s1 12)) (p := fun _ => true) (by decide)
  exact ⟨controlOK_busy, t, h⟩

theorem witness_StepKeepsTheBufferCanonical :
    ((on s1).withHost [.writeByte 65534 7]).MemoryOK ∧
    ∃ t, step ((on s1).withHost [.writeByte 65534 7]) = .next t := by
  obtain ⟨t, h, -⟩ := next_of_answers (o := step ((on s1).withHost [.writeByte 65534 7])) (p := fun _ => true) (by decide)
  exact ⟨⟨by decide, by decide⟩, t, h⟩

theorem witness_RegistersHoldTheirValuesWhole :
    (walking s1 12).Inv ∧ (walking s1 12).regNat .bufLen = some 29 ∧ Reg.bufLen.width (walking s1 12).params = some 16 :=
  ⟨witness_StepKeepsTheInvariant, by decide, rfl⟩

theorem witness_OnlyHostMovesStop : (walking s1 12).Inv := witness_StepKeepsTheInvariant

theorem witness_ControlRegistersReadTheirFields : (walking s1 12).Inv := witness_StepKeepsTheInvariant

theorem s1_memory : (on s1).MemoryOK := ⟨by decide, by decide⟩

/-- A state that has completed with a result meets the invariant if the result is good. -/
theorem completed_inv {r : Result} (h : r.OK Config.hw) (hn : r ≠ .none) : ((on s1).complete r).Inv :=
  { params := Laws.hw_valid
    control :=
      { statusLegal := rfl, busyIff := by simp [State.complete, Status.doneOk], errIff := by simp [State.complete, Status.doneOk]
        errZero := by simp [State.complete], resultIff := by simpa [State.complete] using hn }
    memory := s1_memory
    result := h
    engine := trivial
    errFits := (by decide : 0 < 2 ^ Config.hw.aw) }

theorem exampleCom_ok : (⟨exampleCom, 13⟩ : Name).OK Config.hw := by unfold Name.OK LabelsOK Label.OK; decide

/-- Each of the six kinds of result in a state that meets the invariant. -/
theorem witness_ResultRegistersReadTheResult :
    ((on s1).complete (.raw 5)).Inv ∧ ((on s1).complete (.hdr plainHeader)).Inv ∧
    ((on s1).complete (.nam ⟨exampleCom, 13⟩)).Inv ∧ ((on s1).complete (.que ⟨⟨exampleCom, 13⟩, 255, 255⟩ 17)).Inv ∧
    ((on s1).complete (.rr ⟨⟨exampleCom, 13⟩, 1, 1, 3600, 4, 41⟩ 27)).Inv ∧
    ((on s1).complete (.msg ⟨plainHeader, .empty⟩ 12)).Inv :=
  ⟨completed_inv trivial (by decide), completed_inv (by unfold Result.OK Header.Valid; decide) (by decide),
    completed_inv exampleCom_ok (by decide), completed_inv ⟨⟨exampleCom_ok, by decide, by decide⟩, by decide⟩ (by decide),
    completed_inv ⟨⟨exampleCom_ok, by decide, by decide, by decide⟩, by decide⟩ (by decide),
    completed_inv ⟨by unfold Header.Valid; decide, by simp [MsgStore.OK, MsgStore.empty], by unfold MsgStore.Counted; decide,
      by decide, by decide⟩ (by decide)⟩

/-- N34, N27, N56 after a label, and N28 (95_test_vectors.md 2.4). -/
theorem witness_NamesCutOffAtTheEnd :
    LabelsOK Config.hw [www] ∧ LabelsOK Config.hw [] ∧ (on [1, 2, 3]).bufLen ≤ 3 ∧
    ((on [3, 0x77, 0x77, 0x77]).Holds 0 (labelBytes [www]) ∧ (on [3, 0x77, 0x77, 0x77]).bufLen = 0 + labelsLen [www]) ∧
    ((on [3, 0x77, 0x77, 0x77, 0xC0]).Holds 0 (labelBytes [www] ++ [0xC0]) ∧
      (on [3, 0x77, 0x77, 0x77, 0xC0]).bufLen = 0 + labelsLen [www] + 1) ∧
    ((on [0x03, 0x63, 0x6F]).Holds 0 (labelBytes [] ++ [0x03]) ∧ (on [0x03, 0x63, 0x6F]).bufLen < 0 + labelsLen [] + 1 + 3) :=
  ⟨by unfold LabelsOK Label.OK; decide, by simp [LabelsOK, Config.nameMax], by decide, ⟨⟨by decide, by decide⟩, by decide⟩,
    ⟨⟨by decide, by decide⟩, by decide⟩, ⟨by decide, by decide⟩, by decide⟩

/-- Both ends of both ranges: offsets 65534 and 65535, lengths 65535 and 65536. -/
theorem witness_HostWritesAByteOrTheLength :
    (((on s1).withHost [.writeByte 65534 7]).host = .writeByte 65534 7 :: [] ∧ (on s1).status.busy = false ∧
      65534 < (on s1).params.bufMax ∧ (on s1).params.bufMax ≤ 65535) ∧
    (((on s1).withHost [.writeLen 65535]).host = .writeLen 65535 :: [] ∧ 65535 ≤ (on s1).params.bufMax ∧
      (on s1).params.bufMax < 65536) := by decide

/-- Another instance of the block: a smaller BUF and a narrower OFFSET. -/
def smallBlock : Config.Params := { bufMax := 512, aw := 10, aceCaseInsensitive := false }

theorem witness_ParametersAreFixedAndSizesDoNotMatter :
    smallBlock.aceCaseInsensitive = (on s1).params.aceCaseInsensitive ∧ ∃ t, exec (.name 12) (on s1) = .next t := by
  obtain ⟨t, h, -⟩ := next_of_answers (o := exec (.name 12) (on s1)) (p := fun _ => true) (by decide)
  exact ⟨rfl, t, h⟩

end Sys2Proof.Tests
end

/-! SUPPORT. Proofs about the state family (10_state.md): reset, START, `return`, and the outcome of a command. -/

namespace Sys2Proof.Machine.StateProofs

open Sys2Proof.Machine.Laws

/-! ## No result, no value (R35) -/

theorem regNat_eq_none {s : State} (h : s.result = .none) {r : Reg} (hr : r.isResult = true) : s.regNat r = none := by
  cases r
  case cmd | status | bufLen | errKind | errField | errOffset | errWidth | resTag => cases hr
  all_goals simp [State.regNat, h, Result.value, Result.consumed, Result.header, Result.name, Result.question, Result.record]

theorem readReg_eq_none {s : State} (h : s.result = .none) {r : Reg} (hr : r.isResult = true) : s.readReg r = none := by
  cases r
  case lbl => simp [State.readReg, h, Result.name]
  case msgStore => simp [State.readReg, h, Result.store]
  all_goals simp [State.readReg, State.regWord, regNat_eq_none h hr]

/-! ## The empty message (R44) -/

theorem message_eq_nil {s : State} (h : s.bufLen = 0) : s.message = [] :=
  List.eq_nil_of_length_eq_zero (by rw [message_length, h])

/-- A read of at least one byte is out of an empty message. -/
theorem memRead_nil (a : Nat) {n : Nat} (f : ErrField) (hn : 0 < n) :
    memRead [] a n f = .error (.raise .tooShort f a n) :=
  memRead_out f (by rw [List.length_nil]; omega)

theorem decodeName_nil (p : Config.Params) (o : Nat) :
    decodeName p [] o = .error (.raise .tooShort .nameLen o 1) := by
  simp [decodeName, Config.namePasses, nameLoop, Walk.start, memRead_nil, bind, Except.bind]

theorem readRaw_nil {n : Nat} (hn : 0 < n) (off : Nat) : readRaw [] n off = .error (.raise .tooShort .raw off n) := by
  simp [readRaw, memRead_nil _ _ hn, offsetOperand, bind, Except.bind]

/-- A command's first bounds check fails on the empty message: the raw read's, the header's, or the name's length octet. -/
theorem decodeOf_nil (p : Config.Params) {i : Instr} (hi : i.isCommand = true) :
    ∃ f off w, decodeOf p [] i = some (.error (.raise .tooShort f off w)) := by
  cases i
  case rd8 off => exact ⟨.raw, off, 1, congrArg some (readRaw_nil (by decide) off)⟩
  case rd16 off => exact ⟨.raw, off, 2, congrArg some (readRaw_nil (by decide) off)⟩
  case rd32 off => exact ⟨.raw, off, 4, congrArg some (readRaw_nil (by decide) off)⟩
  case hdr => exact ⟨.hdrLen, 0, 12, rfl⟩
  case name off => exact ⟨.nameLen, off, 1, by simp [decodeOf, offsetOperand, decodeName_nil, Except.map]⟩
  case ques off =>
    exact ⟨.nameLen, off, 1, by simp [decodeOf, offsetOperand, decodeQuestion, decodeName_nil, Except.map, bind, Except.bind]⟩
  case rr off =>
    exact ⟨.nameLen, off, 1, by simp [decodeOf, offsetOperand, decodeRecord, decodeName_nil, Except.map, bind, Except.bind]⟩
  case msg => exact ⟨.hdrLen, 0, 12, rfl⟩
  case octTerm | octLabel | octRsv01 | octRsv10 | octPtr => cases hi

theorem exec_tooShort_of_bufLen_zero {s : State} {i : Instr} (hl : s.bufLen = 0) (hi : i.isCommand = true) :
    ∃ f off w, exec i s = .next (s.raise .tooShort f off w) := by
  obtain ⟨o, ho, hx⟩ := exec_command hi s
  obtain ⟨f, off, w, he⟩ := decodeOf_nil s.params hi
  rw [message_eq_nil hl, he] at ho
  cases ho
  exact ⟨f, off, w, hx⟩

/-! ## A host write while BUSY = 1 (R41) -/

/-- The moves that write BUF, BUF_LEN or CMD. -/
def IsHostWrite (mv : HostMove) : Prop :=
  (∃ w, mv = .start w) ∨ (∃ bytes, mv = .load bytes) ∨ (∃ a b, mv = .writeByte a b) ∨ (∃ n, mv = .writeLen n)

theorem hostTurn_of_busy {mv : HostMove} {s : State} (hb : s.status.busy = true) (hm : IsHostWrite mv) :
    hostTurn mv s = .next s := by
  rcases hm with ⟨w, rfl⟩ | ⟨bytes, rfl⟩ | ⟨a, b, rfl⟩ | ⟨n, rfl⟩
  all_goals exact if_pos hb

theorem step_drops_of_busy {s : State} {mv : HostMove} {rest : List HostMove} (hh : s.host = mv :: rest)
    (hb : s.status.busy = true) (hm : IsHostWrite mv) : step s = .next (s.withHost rest) := by
  have hw : mv ≠ .await := by rintro rfl; simp [IsHostWrite] at hm
  rw [step_host hh (absurd · hw)]
  exact hostTurn_of_busy hb hm

theorem step_start_of_idle {s : State} {w : Word} {rest : List HostMove} (hh : s.host = .start w :: rest)
    (hb : s.status.busy = false) : step s = .next ((s.withHost rest).accept w) := by
  rw [step_host hh nofun]
  simp [hostTurn, hostStart, hb]

/-! ## The outcome of an accepted word (R41, R43) -/

theorem engineTurn_accepted {s : State} (h : s.engine = .accepted) : engineTurn s = runCommand s := by
  simp [engineTurn, h]

theorem formatO_eq_some {p : Config.Params} {w : Word} {row : Nat → Instr} {i : Instr} :
    formatO p w row = some i ↔ cmdRsv p w = 0 ∧ row (cmdOffset p w) = i := by
  unfold formatO
  split_ifs with h <;> simp [h]

theorem formatZ_eq_some {p : Config.Params} {w : Word} {row i : Instr} :
    formatZ p w row = some i ↔ (cmdRsv p w = 0 ∧ cmdOffset p w = 0) ∧ row = i := by
  unfold formatZ
  split_ifs with h <;> simp [h]

/-- Every row of the opcode map (30_encoding.md R92) is a command's. -/
theorem isCommand_of_decodeCommand {p : Config.Params} {w : Word} {i : Instr} (h : decodeCommand p w = some i) :
    i.isCommand = true := by
  unfold decodeCommand at h
  split at h
  case h_4 | h_8 =>
    obtain ⟨-, rfl⟩ := formatZ_eq_some.1 h
    rfl
  case h_9 => cases h
  all_goals
    obtain ⟨-, rfl⟩ := formatO_eq_some.1 h
    rfl

/-- What an accepted word's run ends with, of the parameters, the word and the message alone (R43): its command's decode, or
IllegalCommand where it is illegal. The default is never taken, since the decoded instruction is a command. -/
def wordDecode (p : Config.Params) (w : Word) (m : List Byte) : Except Stop Result :=
  match decodeCommand p w with
  | some i => (decodeOf p m i).getD (.error .unfinished)
  | none => .error (.raise .illegalCommand .cmd 0 0)

theorem runCommand_eq_settle (s : State) : runCommand s = s.settle (wordDecode s.params s.cmd s.message) := by
  unfold runCommand wordDecode
  cases h : decodeCommand s.params s.cmd with
  | none => rfl
  | some i =>
    obtain ⟨o, ho, hx⟩ := exec_command (isCommand_of_decodeCommand h) s
    simp [ho, hx]

theorem step_accepted {s : State} (hm : s.EngineMoves) (he : s.engine = .accepted) :
    step s = s.settle (wordDecode s.params s.cmd s.message) := by
  rw [step_engine hm, engineTurn_accepted he, runCommand_eq_settle]

/-- The same result, STATUS and error record: OUTCOME of R34, as the host can read it. -/
def SameOutcome (t t' : State) : Prop :=
  t'.result = t.result ∧ t'.status = t.status ∧ t'.errKind = t.errKind ∧ t'.errField = t.errField ∧
    t'.errOffset = t.errOffset ∧ t'.errWidth = t.errWidth

/-- `return` and `raise` write the whole outcome, whatever state they end. -/
theorem settle_sameOutcome {s t : State} {o : Except Stop Result} (h : s.settle o = .next t) (s' : State) :
    ∃ t', s'.settle o = .next t' ∧ SameOutcome t t' := by
  rcases settle_cases h with ⟨r, rfl, rfl⟩ | ⟨k, f, off, w, rfl, rfl⟩
  · exact ⟨s'.complete r, rfl, by simp [SameOutcome]⟩
  · exact ⟨s'.raise k f off w, rfl, by simp [SameOutcome]⟩

/-! ## The statements -/

/-- Settles O19: the step of an accepted word ends `wordDecode`, which both states share. -/
theorem outcomeIsAFunctionOfWordAndMessage : Obligations.OutcomeIsAFunctionOfWordAndMessage := by
  intro s s' t hm hm' he he' hp hc hl hb ht
  have hmsg : s.message = s'.message := message_congr hl hb
  rw [step_accepted hm he, hp, hc, hmsg] at ht
  rw [step_accepted hm' he']
  exact settle_sameOutcome ht s'

/-- Settles O6: the reset table is read off `State.reset`; on the empty message every command's first bounds check fails. -/
theorem resetLeavesTheValuesOfTheTable : Obligations.ResetLeavesTheValuesOfTheTable :=
  ⟨rfl, rfl, rfl, message_eq_nil rfl, rfl, rfl, rfl, rfl, rfl, fun _ hr => readReg_eq_none rfl hr, rfl, rfl,
    fun _ _ hl hi => exec_tooShort_of_bufLen_zero hl hi⟩

/-- Settles O8: a write while BUSY = 1 is dropped by its own first test; an accepted START leaves `accept`. -/
theorem startIsAcceptedOrDropped : Obligations.StartIsAcceptedOrDropped := by
  constructor
  · intro s mv rest hh hb hm
    exact step_drops_of_busy hh hb hm
  · intro s w rest hh hb
    exact ⟨(s.withHost rest).accept w, step_start_of_idle hh hb, rfl, rfl, fun _ hr => readReg_eq_none rfl hr,
      rfl, rfl, rfl, rfl, rfl, rfl, rfl, rfl, engineTurn_accepted rfl⟩

/-- Settles O13: each field as `complete` writes it or leaves it. -/
theorem returnWritesResultAndStatus : Obligations.ReturnWritesResultAndStatus := by
  intro s v
  simp [ErrKind.code, ErrField.code, Status.doneOk]

end Sys2Proof.Machine.StateProofs

/-! SUPPORT. Proofs about the memory family (20_memory.md): the value of a fixed-width read. -/

namespace Sys2Proof.Machine.MemoryProofs

open Sys2Proof.Machine.Laws

/-- The sum of R66 over a whole byte sequence. -/
theorem beValue_eq_sum (bs : List Byte) :
    beValue bs = ∑ i ∈ Finset.range bs.length, (bs.getD i 0).toNat * 256 ^ (bs.length - 1 - i) := by
  induction bs using List.reverseRecOn with
  | nil => rfl
  | append_singleton bs b ih =>
    have hlast : (bs ++ [b]).getD bs.length 0 = b := by simp
    have hshift : ∀ i ∈ Finset.range bs.length,
        256 * ((bs.getD i 0).toNat * 256 ^ (bs.length - 1 - i)) =
          ((bs ++ [b]).getD i 0).toNat * 256 ^ (bs.length - i) := by
      intro i hi
      have hi : i < bs.length := Finset.mem_range.1 hi
      rw [List.getD_append _ _ _ _ hi, show bs.length - i = bs.length - 1 - i + 1 by omega, pow_succ]
      ring
    rw [beValue_append_one, ih, Finset.mul_sum, Finset.sum_congr rfl hshift, List.length_append, List.length_singleton,
      Nat.add_sub_cancel, Finset.sum_range_succ, hlast, Nat.sub_self, pow_zero, mul_one]

theorem slice_getD (m : List Byte) (a : Nat) {n i : Nat} (h : i < n) : (slice m a n).getD i 0 = m.getD (a + i) 0 := by
  simp [slice, List.getD_eq_getElem?_getD, List.getElem?_take_of_lt h, List.getElem?_drop]

/-- The value of `BUF[a..a+n)`, read off the message's own bytes (R66). -/
theorem beValue_slice {m : List Byte} {a n : Nat} (h : a + n ≤ m.length) :
    beValue (slice m a n) = ∑ i ∈ Finset.range n, (m.getD (a + i) 0).toNat * 256 ^ (n - 1 - i) := by
  rw [beValue_eq_sum, slice_length h]
  refine Finset.sum_congr rfl fun i hi => ?_
  rw [slice_getD m a (Finset.mem_range.1 hi)]

/-- Settles O22: out of bounds by the read's only test; in bounds the big-endian fold is the sum, byte by byte from the last. -/
theorem memReadIsBigEndianInBounds : Obligations.MemReadIsBigEndianInBounds := by
  intro m a n f
  refine ⟨memRead_out f, fun h => ?_⟩
  rw [← beValue_slice h]
  exact ⟨memRead_in f h, memRead_lt (memRead_in f h)⟩

end Sys2Proof.Machine.MemoryProofs

/-! SUPPORT. Proofs about the encoding family (30_encoding.md): the words of the opcode map and the illegal words. -/

namespace Sys2Proof.Machine.EncodingProofs

open Sys2Proof.Machine.StateProofs

/-! ## The fields of a command word (R90) -/

theorem cmdOpc_toNat (w : Word) : (cmdOpc w).toNat = w.toNat / 2 ^ 28 := by
  have := w.isLt
  rw [cmdOpc, BitVec.extractLsb'_toNat, Nat.shiftRight_eq_div_pow]
  omega

theorem cmdRsv_hw (w : Word) : cmdRsv Config.hw w = w.toNat / 2 ^ 24 % 16 := by
  simp only [cmdRsv, Config.hw]
  omega

theorem cmdOffset_hw (w : Word) : cmdOffset Config.hw w = w.toNat % 2 ^ 24 := by
  simp only [cmdOffset, Config.hw]
  omega

/-! ## The words the decoder refuses (R93) -/

theorem formatO_eq_none {p : Config.Params} {w : Word} {row : Nat → Instr} :
    formatO p w row = none ↔ cmdRsv p w ≠ 0 := by
  simp [formatO]

theorem formatZ_eq_none {p : Config.Params} {w : Word} {row : Instr} :
    formatZ p w row = none ↔ cmdRsv p w ≠ 0 ∨ cmdOffset p w ≠ 0 := by
  simp [formatZ, imp_iff_not_or]

/-- R93's list in the word's fields, for every AW. -/
theorem decodeCommand_eq_none {p : Config.Params} {w : Word} :
    decodeCommand p w = none ↔
      (cmdOpc w).toNat = 0 ∨ 9 ≤ (cmdOpc w).toNat ∨ cmdRsv p w ≠ 0 ∨
        (((cmdOpc w).toNat = 4 ∨ (cmdOpc w).toNat = 8) ∧ cmdOffset p w ≠ 0) := by
  unfold decodeCommand
  split
  case h_4 h | h_8 h => simp [formatZ_eq_none, h]
  case h_9 =>
    simp only [true_iff, imp_false] at *
    omega
  case h_1 h | h_2 h | h_3 h | h_5 h | h_6 h | h_7 h => simp [formatO_eq_none, h]

/-! ## The rows as conditions on the fields (R92) -/

theorem holds_iff_toNat {r : CommandRow} {w : Word} : r.holds w = true ↔ (w &&& r.mask).toNat = r.pattern.toNat := by
  rw [CommandRow.holds, beq_iff_eq, BitVec.toNat_inj]

theorem commandWord_zero_toNat (k : BitVec 4) : (commandWord k 0).toNat = k.toNat * 2 ^ 28 := by
  rw [commandWord, BitVec.toNat_append, Nat.shiftLeft_eq, BitVec.toNat_ofNat, Nat.zero_mod, Nat.or_zero]

/-- The mask of Format O keeps OPC and RSV. -/
theorem and_maskO_toNat (w : Word) : (w &&& 0xFF000000).toNat = w.toNat / 2 ^ 24 * 2 ^ 24 := by
  have hmask : (0xFF000000 : Word) = BitVec.allOnes 32 <<< 24 := by decide
  have := w.isLt
  rw [hmask, ← BitVec.shiftLeft_ushiftRight, BitVec.toNat_shiftLeft, BitVec.toNat_ushiftRight, Nat.shiftLeft_eq,
    Nat.shiftRight_eq_div_pow]
  omega

theorem holds_formatO {w : Word} {k : BitVec 4} :
    (⟨commandWord k 0, 0xFF000000⟩ : CommandRow).holds w = true ↔
      (cmdOpc w).toNat = k.toNat ∧ cmdRsv Config.hw w = 0 := by
  rw [holds_iff_toNat, and_maskO_toNat, commandWord_zero_toNat, cmdOpc_toNat, cmdRsv_hw]
  omega

theorem holds_formatZ {w : Word} {k : BitVec 4} :
    (⟨commandWord k 0, 0xFFFFFFFF⟩ : CommandRow).holds w = true ↔
      (cmdOpc w).toNat = k.toNat ∧ cmdRsv Config.hw w = 0 ∧ cmdOffset Config.hw w = 0 := by
  have hall : w &&& 0xFFFFFFFF = w := BitVec.and_allOnes
  rw [holds_iff_toNat, hall, commandWord_zero_toNat, cmdOpc_toNat, cmdRsv_hw, cmdOffset_hw]
  omega

theorem commandRows_eq : commandRows =
    [⟨commandWord 1 0, 0xFF000000⟩, ⟨commandWord 2 0, 0xFF000000⟩, ⟨commandWord 3 0, 0xFF000000⟩,
     ⟨commandWord 4 0, 0xFFFFFFFF⟩, ⟨commandWord 5 0, 0xFF000000⟩, ⟨commandWord 6 0, 0xFF000000⟩,
     ⟨commandWord 7 0, 0xFF000000⟩, ⟨commandWord 8 0, 0xFFFFFFFF⟩] := by decide

/-- The decoder, written over the fields, and the rows, written as match and mask, refuse the same words. -/
theorem decodeCommand_eq_none_iff_no_row (w : Word) :
    decodeCommand Config.hw w = none ↔ ∀ r ∈ commandRows, r.holds w = false := by
  rw [decodeCommand_eq_none, commandRows_eq]
  simp only [List.forall_mem_cons, ← Bool.not_eq_true, holds_formatO, holds_formatZ, List.not_mem_nil, false_imp_iff,
    implies_true, and_true]
  simp only [BitVec.ofNat_eq_ofNat, BitVec.toNat_ofNat, Nat.reducePow, Nat.reduceMod]
  omega

/-! ## At most one row (R93) -/

/-- Two rows whose patterns differ in a bit that both masks keep. -/
def RowsClash (r r' : CommandRow) : Prop := r.pattern &&& r'.mask ≠ r'.pattern &&& r.mask

theorem commandRows_clash : commandRows.Pairwise RowsClash := by
  unfold RowsClash
  decide

theorem not_holds_of_clash {r r' : CommandRow} {w : Word} (hc : RowsClash r r') (h : r.holds w = true) :
    r'.holds w = false := by
  by_contra h'
  rw [Bool.not_eq_false, CommandRow.holds, beq_iff_eq] at h'
  rw [CommandRow.holds, beq_iff_eq] at h
  apply hc
  rw [← h, ← h', BitVec.and_assoc, BitVec.and_assoc, BitVec.and_comm r.mask]

theorem length_le_one_of_clash {rows : List CommandRow} {w : Word} (hc : rows.Pairwise RowsClash)
    (hh : ∀ r ∈ rows, r.holds w = true) : rows.length ≤ 1 := by
  match rows with
  | [] | [_] => simp
  | r :: r' :: _ =>
    have hno : r'.holds w = false := not_holds_of_clash (List.rel_of_pairwise_cons hc (by simp)) (hh r (by simp))
    have hyes : r'.holds w = true := hh r' (by simp)
    rw [hno] at hyes
    cases hyes

theorem filter_holds_length_le_one (w : Word) : (commandRows.filter (fun r => r.holds w)).length ≤ 1 :=
  length_le_one_of_clash (commandRows_clash.filter _) fun _ hr => (List.mem_filter.1 hr).2

/-! ## The statement -/

/-- An accepted illegal word raises without a look at the message. -/
theorem step_illegal {s : State} (hm : s.EngineMoves) (he : s.engine = .accepted)
    (hd : decodeCommand s.params s.cmd = none) : step s = .next (s.raise .illegalCommand .cmd 0 0) := by
  rw [step_accepted hm he]
  simp [wordDecode, hd, State.settle, State.stop]

/-- Settles O5: the rows clash pairwise, rows and decoder are read in the word's fields, and the run of an illegal word is
its raise. -/
theorem illegalWordsRaiseIllegalCommand : Obligations.IllegalWordsRaiseIllegalCommand := by
  refine ⟨filter_holds_length_le_one, decodeCommand_eq_none_iff_no_row, fun w => ?_, fun _ => step_illegal⟩
  rw [decodeCommand_eq_none, cmdOpc_toNat, cmdRsv_hw, cmdOffset_hw]

end Sys2Proof.Machine.EncodingProofs

/-! SUPPORT. Proofs about the primitive reader family (40_primitive_reader.md): RD8, RD16 and RD32. -/

namespace Sys2Proof.Machine.ReaderProofs

open Sys2Proof.Machine.Laws Sys2Proof.Machine.StateProofs Sys2Proof.Machine.MemoryProofs Sys2Proof.Machine.EncodingProofs

/-! ## The command word of an OPC and an OFFSET, with RSV = 0 (R90) -/

section
variable {w : Word} {k off : Nat} (ho : off < 2 ^ 24) (hw : w.toNat = k * 2 ^ 28 + off)
include ho hw

theorem cmdOpc_of_toNat : (cmdOpc w).toNat = k := by
  rw [cmdOpc_toNat]
  omega

theorem formatO_of_toNat (row : Nat → Instr) : formatO Config.hw w row = some (row off) := by
  have hrsv : cmdRsv Config.hw w = 0 := by
    rw [cmdRsv_hw]
    omega
  have hoff : cmdOffset Config.hw w = off := by
    rw [cmdOffset_hw]
    omega
  exact formatO_eq_some.2 ⟨hrsv, congrArg row hoff⟩

end

theorem toNat_ofNat_word (k : Nat) {off : Nat} (hk : k < 16) (ho : off < 2 ^ 24) :
    (BitVec.ofNat 32 (k * 2 ^ 28 + off)).toNat = k * 2 ^ 28 + off := by
  rw [BitVec.toNat_ofNat]
  omega

section
variable {w : Word} {off : Nat} (ho : off < 2 ^ 24)
include ho

theorem decodeCommand_rd8 (hw : w.toNat = 1 * 2 ^ 28 + off) : decodeCommand Config.hw w = some (.rd8 off) := by
  rw [decodeCommand, cmdOpc_of_toNat ho hw]
  exact formatO_of_toNat ho hw .rd8

theorem decodeCommand_rd16 (hw : w.toNat = 2 * 2 ^ 28 + off) : decodeCommand Config.hw w = some (.rd16 off) := by
  rw [decodeCommand, cmdOpc_of_toNat ho hw]
  exact formatO_of_toNat ho hw .rd16

theorem decodeCommand_rd32 (hw : w.toNat = 3 * 2 ^ 28 + off) : decodeCommand Config.hw w = some (.rd32 off) := by
  rw [decodeCommand, cmdOpc_of_toNat ho hw]
  exact formatO_of_toNat ho hw .rd32

end

/-! ## The value of a read, in the bytes of BUF (00_scope.md R10) -/

theorem message_getD {s : State} {a : Nat} (h : a < s.bufLen) : s.message.getD a 0 = s.byteAt a := by
  have hm : a < s.message.length := by rwa [message_length]
  rw [List.getD_eq_getElem _ _ hm, message_getElem]

theorem beValue_message {s : State} {a n : Nat} (h : a + n ≤ s.bufLen) :
    beValue (slice s.message a n) = ∑ i ∈ Finset.range n, (s.byteAt (a + i)).toNat * 256 ^ (n - 1 - i) := by
  rw [beValue_slice (by rwa [message_length])]
  refine Finset.sum_congr rfl fun i hi => ?_
  have hi : i < n := Finset.mem_range.1 hi
  rw [message_getD (by omega)]

theorem beValue_message_one {s : State} {a : Nat} (h : a + 1 ≤ s.bufLen) :
    beValue (slice s.message a 1) = (s.byteAt a).toNat := by
  simp [beValue_message h]

theorem beValue_message_two {s : State} {a : Nat} (h : a + 2 ≤ s.bufLen) :
    beValue (slice s.message a 2) = s.be16 a := by
  simp [beValue_message h, Finset.sum_range_succ, State.be16, Nat.mul_comm]

theorem beValue_message_four {s : State} {a : Nat} (h : a + 4 ≤ s.bufLen) :
    beValue (slice s.message a 4) = s.be32 a := by
  simp [beValue_message h, Finset.sum_range_succ, State.be32, Nat.mul_comm]

/-! ## The end of a raw read of `n` bytes -/

theorem readRaw_in {m : List Byte} {n off : Nat} (h : off + n ≤ m.length) :
    readRaw m n off = .ok (.raw (BitVec.ofNat 32 (beValue (slice m off n)))) := by
  simp [readRaw, offsetOperand, memRead_in _ h, bind, Except.bind, pure, Except.pure]

theorem readRaw_out {m : List Byte} {n off : Nat} (h : m.length < off + n) :
    readRaw m n off = .error (.raise .tooShort .raw off n) := by
  simp [readRaw, offsetOperand, memRead_out _ h, bind, Except.bind]

theorem settle_readRaw_in {s : State} {n off : Nat} (h : off + n ≤ s.bufLen) :
    s.settle (readRaw s.message n off) = .next (s.complete (.raw (BitVec.ofNat 32 (beValue (slice s.message off n))))) := by
  rw [readRaw_in (by rwa [message_length]), State.settle]

theorem settle_readRaw_out {s : State} {n off : Nat} (h : s.bufLen < off + n) :
    s.settle (readRaw s.message n off) = .next (s.raise .tooShort .raw off n) := by
  rw [readRaw_out (by rwa [message_length]), State.settle, State.stop]

/-! ## The three reads -/

theorem exec_rd8 (off : Nat) (s : State) : exec (.rd8 off) s = s.settle (readRaw s.message 1 off) := rfl
theorem exec_rd16 (off : Nat) (s : State) : exec (.rd16 off) s = s.settle (readRaw s.message 2 off) := rfl
theorem exec_rd32 (off : Nat) (s : State) : exec (.rd32 off) s = s.settle (readRaw s.message 4 off) := rfl

theorem exec_rd8_in {s : State} {off : Nat} (h : off + 1 ≤ s.bufLen) :
    exec (.rd8 off) s = .next (s.complete (.raw (BitVec.ofNat 32 (s.byteAt off).toNat))) := by
  rw [exec_rd8, settle_readRaw_in h, beValue_message_one h]

theorem exec_rd16_in {s : State} {off : Nat} (h : off + 2 ≤ s.bufLen) :
    exec (.rd16 off) s = .next (s.complete (.raw (BitVec.ofNat 32 (s.be16 off)))) := by
  rw [exec_rd16, settle_readRaw_in h, beValue_message_two h]

theorem exec_rd32_in {s : State} {off : Nat} (h : off + 4 ≤ s.bufLen) :
    exec (.rd32 off) s = .next (s.complete (.raw (BitVec.ofNat 32 (s.be32 off)))) := by
  rw [exec_rd32, settle_readRaw_in h, beValue_message_four h]

/-- The examples of R131, R132 and R133: the message is all that a read looks at. -/
theorem exec_reads_of_example {s : State} (hm : s.message = [1, 2, 3, 4, 5]) :
    exec (.rd8 4) s = .next (s.complete (.raw 5)) ∧ exec (.rd8 5) s = .next (s.raise .tooShort .raw 5 1) ∧
    exec (.rd16 0) s = .next (s.complete (.raw 0x0102)) ∧ exec (.rd16 4) s = .next (s.raise .tooShort .raw 4 2) ∧
    exec (.rd32 1) s = .next (s.complete (.raw 0x02030405)) ∧ exec (.rd32 2) s = .next (s.raise .tooShort .raw 2 4) := by
  simp only [exec_rd8, exec_rd16, exec_rd32, hm]
  exact ⟨rfl, rfl, rfl, rfl, rfl, rfl⟩

/-! ## The statement -/

/-- Settles O24: each read ends the raw read of its width, whose big-endian sum over the bytes of BUF is R10's value. -/
theorem primitiveReadsGiveTheValueOrTooShort : Obligations.PrimitiveReadsGiveTheValueOrTooShort :=
  ⟨fun _ ho =>
      ⟨decodeCommand_rd8 ho (toNat_ofNat_word 1 (by decide) ho), decodeCommand_rd16 ho (toNat_ofNat_word 2 (by decide) ho),
        decodeCommand_rd32 ho (toNat_ofNat_word 3 (by decide) ho)⟩,
    fun _ _ => ⟨exec_rd8_in, settle_readRaw_out, exec_rd16_in, settle_readRaw_out, exec_rd32_in, settle_readRaw_out⟩,
    fun _ hm => exec_reads_of_example hm⟩

end Sys2Proof.Machine.ReaderProofs

/-! SUPPORT. Proofs about the header family (41_header.md): HDR and the header step of MSG. -/

namespace Sys2Proof.Machine.HeaderProofs

open Sys2Proof.Machine.Laws Sys2Proof.Machine.ReaderProofs

/-! ## The header's fields, by the values of its bytes (30_encoding.md R96) -/

theorem getLsbD_eq_true_iff (b : Byte) (i : Nat) : b.getLsbD i = true ↔ b.toNat / 2 ^ i % 2 = 1 := by
  rw [← BitVec.testBit_toNat, Nat.testBit_eq_decide_div_mod_eq, decide_eq_true_iff]

theorem getLsbD_seven_eq_true_iff (b : Byte) : b.getLsbD 7 = true ↔ b.toNat / 128 = 1 := by
  have := b.isLt
  rw [getLsbD_eq_true_iff]
  omega

theorem extractLsb'_byte_toNat (b : Byte) (i n : Nat) : (b.extractLsb' i n).toNat = b.toNat / 2 ^ i % 2 ^ n := by
  rw [BitVec.extractLsb'_toNat, Nat.shiftRight_eq_div_pow]

theorem u16_toNat (hi lo : Byte) : (u16 hi lo).toNat = 256 * hi.toNat + lo.toNat := by
  rw [u16, BitVec.toNat_append, Nat.shiftLeft_eq, Nat.mul_comm, ← Nat.two_pow_add_eq_or_of_lt lo.isLt]

section
variable (m : List Byte)

theorem unpackHeader_qr : (unpackHeader m).qr = true ↔ (byteOf m 2).toNat / 128 = 1 := getLsbD_seven_eq_true_iff _

theorem unpackHeader_opcode : (unpackHeader m).opcode.toNat = (byteOf m 2).toNat / 8 % 16 := extractLsb'_byte_toNat _ 3 4

theorem unpackHeader_aa : (unpackHeader m).aa = true ↔ (byteOf m 2).toNat / 4 % 2 = 1 := getLsbD_eq_true_iff _ 2

theorem unpackHeader_tc : (unpackHeader m).tc = true ↔ (byteOf m 2).toNat / 2 % 2 = 1 := getLsbD_eq_true_iff _ 1

theorem unpackHeader_rd : (unpackHeader m).rd = true ↔ (byteOf m 2).toNat % 2 = 1 := by
  rw [← Nat.div_one (byteOf m 2).toNat]
  exact getLsbD_eq_true_iff _ 0

theorem unpackHeader_ra : (unpackHeader m).ra = true ↔ (byteOf m 3).toNat / 128 = 1 := getLsbD_seven_eq_true_iff _

theorem unpackHeader_z : (unpackHeader m).z.toNat = (byteOf m 3).toNat / 16 % 8 := extractLsb'_byte_toNat _ 4 3

theorem unpackHeader_rcode : (unpackHeader m).rcode.toNat = (byteOf m 3).toNat % 16 := by
  rw [← Nat.div_one (byteOf m 3).toNat]
  exact extractLsb'_byte_toNat _ 0 4

/-- The condition of the aa check: a query that claims authority. -/
theorem unpackHeader_aa_without_qr :
    (unpackHeader m).qr = false ∧ (unpackHeader m).aa = true ↔
      (byteOf m 2).toNat / 128 = 0 ∧ (byteOf m 2).toNat / 4 % 2 = 1 := by
  have := (byteOf m 2).isLt
  rw [← Bool.not_eq_true, unpackHeader_qr, unpackHeader_aa]
  omega

theorem unpackHeader_z_eq_zero : (unpackHeader m).z = 0 ↔ (byteOf m 3).toNat / 16 % 8 = 0 := by
  rw [← BitVec.toNat_inj, unpackHeader_z, BitVec.ofNat_eq_ofNat, BitVec.toNat_ofNat, Nat.zero_mod]

end

/-! ## The checks, in their order (R151, R158) -/

theorem decodeHeader_short {m : List Byte} (hl : m.length < 12) :
    decodeHeader m = .error (.raise .tooShort .hdrLen 0 12) := if_pos hl

theorem decodeHeader_long {m : List Byte} (hl : 12 < m.length) :
    decodeHeader m = .error (.raise .invalidValue .hdrLen 0 12) := (if_neg (Nat.lt_asymm hl)).trans (if_pos hl)

theorem decodeHeader_eq_check {m : List Byte} (hl : m.length = 12) :
    decodeHeader m = checkHeader (unpackHeader m) := by
  simp [decodeHeader, Config.hdrBytes, hl]

/-- Steps 3 to 6 of R151, as conditions on bytes 2 and 3. -/
theorem checkHeader_unpackHeader (m : List Byte) :
    checkHeader (unpackHeader m) =
      if 2 < (byteOf m 2).toNat / 8 % 16 then .error (.raise .invalidValue .hdrOpcode 2 1)
      else if (byteOf m 2).toNat / 128 = 0 ∧ (byteOf m 2).toNat / 4 % 2 = 1 then
        .error (.raise .inconsistentFields .hdrAa 2 1)
      else if (byteOf m 3).toNat / 16 % 8 ≠ 0 then .error (.raise .invalidValue .hdrZ 3 1)
      else if 5 < (byteOf m 3).toNat % 16 then .error (.raise .invalidValue .hdrRcode 3 1)
      else .ok (unpackHeader m) := by
  simp only [checkHeader, unpackHeader_opcode, unpackHeader_aa_without_qr, ne_eq, unpackHeader_z_eq_zero,
    unpackHeader_rcode, Config.opcodeMax, Config.rcodeMax, gt_iff_lt]

section
variable {m : List Byte} (hl : m.length = 12)
include hl

theorem decodeHeader_opcode (ho : 2 < (byteOf m 2).toNat / 8 % 16) :
    decodeHeader m = .error (.raise .invalidValue .hdrOpcode 2 1) := by
  rw [decodeHeader_eq_check hl, checkHeader_unpackHeader, if_pos ho]

variable (ho : (byteOf m 2).toNat / 8 % 16 ≤ 2)
include ho

theorem decodeHeader_aa (ha : (byteOf m 2).toNat / 128 = 0 ∧ (byteOf m 2).toNat / 4 % 2 = 1) :
    decodeHeader m = .error (.raise .inconsistentFields .hdrAa 2 1) := by
  rw [decodeHeader_eq_check hl, checkHeader_unpackHeader, if_neg (Nat.not_lt.2 ho), if_pos ha]

variable (ha : ¬((byteOf m 2).toNat / 128 = 0 ∧ (byteOf m 2).toNat / 4 % 2 = 1))
include ha

theorem decodeHeader_z (hz : (byteOf m 3).toNat / 16 % 8 ≠ 0) :
    decodeHeader m = .error (.raise .invalidValue .hdrZ 3 1) := by
  rw [decodeHeader_eq_check hl, checkHeader_unpackHeader, if_neg (Nat.not_lt.2 ho), if_neg ha, if_pos hz]

variable (hz : (byteOf m 3).toNat / 16 % 8 = 0)
include hz

theorem decodeHeader_rcode (hr : 5 < (byteOf m 3).toNat % 16) :
    decodeHeader m = .error (.raise .invalidValue .hdrRcode 3 1) := by
  rw [decodeHeader_eq_check hl, checkHeader_unpackHeader, if_neg (Nat.not_lt.2 ho), if_neg ha, if_neg (not_not.2 hz),
    if_pos hr]

theorem decodeHeader_good (hr : (byteOf m 3).toNat % 16 ≤ 5) : decodeHeader m = .ok (unpackHeader m) := by
  rw [decodeHeader_eq_check hl, checkHeader_unpackHeader, if_neg (Nat.not_lt.2 ho), if_neg ha, if_neg (not_not.2 hz),
    if_neg (Nat.not_lt.2 hr)]

end

/-! ## The header step of MSG (R152) -/

theorem headerOfMessage_short {m : List Byte} (hl : m.length < 12) :
    headerOfMessage m = .error (.raise .tooShort .hdrLen 0 12) := if_pos hl

theorem headerOfMessage_eq_take {m : List Byte} (hl : 12 ≤ m.length) : headerOfMessage m = decodeHeader (m.take 12) :=
  if_neg (Nat.not_lt.2 hl)

/-! ## HDR -/

theorem exec_hdr (s : State) : exec .hdr s = s.settle ((decodeHeader s.message).map .hdr) := rfl

theorem exec_hdr_of_ok {s : State} {h : Header} (hd : decodeHeader s.message = .ok h) :
    exec .hdr s = .next (s.complete (.hdr h)) := by
  rw [exec_hdr, hd, Except.map, State.settle]

theorem exec_hdr_of_error {s : State} {e : Stop} (hd : decodeHeader s.message = .error e) :
    exec .hdr s = s.stop e := by
  rw [exec_hdr, hd, Except.map, State.settle]

theorem exec_hdr_of_raise {s : State} {k : ErrKind} {f : ErrField} {off w : Nat}
    (hd : decodeHeader s.message = .error (.raise k f off w)) : exec .hdr s = .next (s.raise k f off w) :=
  exec_hdr_of_error hd

theorem byteOf_message {s : State} {i : Nat} (h : i < s.bufLen) : byteOf s.message i = s.byteAt i := message_getD h

theorem fieldOf_message {s : State} {i : Nat} (h : i + 1 < s.bufLen) : (fieldOf s.message i).toNat = s.be16 i := by
  rw [fieldOf, u16_toNat, byteOf_message h, byteOf_message (Nat.lt_of_succ_lt h), State.be16]

/-! ## The statement -/

/-- Settles O26: HDR ends `decodeHeader` over the message, whose checks are conditions on bytes 2 and 3 and whose fields are
bits of the bytes. -/
theorem headerIsCheckedInOrderThenReturned : Obligations.HeaderIsCheckedInOrderThenReturned := by
  refine ⟨rfl, fun _ => ⟨headerOfMessage_short, headerOfMessage_eq_take⟩, fun _ _ => exec_hdr_of_ok,
    fun _ _ => exec_hdr_of_error, fun s => ?_⟩
  have hlen : s.message.length = s.bufLen := message_length s
  refine ⟨fun hl => exec_hdr_of_raise (decodeHeader_short (by rwa [hlen])),
    fun hl => exec_hdr_of_raise (decodeHeader_long (by rwa [hlen])), fun hl => ?_,
    fun hm => exec_hdr_of_ok (by rw [hm]; rfl)⟩
  have hm : s.message.length = 12 := by rw [hlen, hl]
  have hfield (i : Nat) (hi : i + 1 < 12) : (fieldOf s.message i).toNat = s.be16 i := fieldOf_message (by rwa [hl])
  rw [← byteOf_message (i := 2) (by omega), ← byteOf_message (i := 3) (by omega)]
  refine ⟨fun ho => exec_hdr_of_raise (decodeHeader_opcode hm ho),
    fun ho hq ha => exec_hdr_of_raise (decodeHeader_aa hm ho ⟨hq, ha⟩),
    fun ho ha => ⟨fun hz => exec_hdr_of_raise (decodeHeader_z hm ho ha hz),
      fun hz hr => exec_hdr_of_raise (decodeHeader_rcode hm ho ha hz hr),
      fun hz hr => ⟨unpackHeader s.message, exec_hdr_of_ok (decodeHeader_good hm ho ha hz hr), ?_⟩⟩⟩
  exact ⟨hfield 0 (by decide), unpackHeader_qr _, unpackHeader_opcode _, unpackHeader_aa _, unpackHeader_tc _,
    unpackHeader_rd _, unpackHeader_ra _, unpackHeader_z _, unpackHeader_rcode _, hfield 4 (by decide),
    hfield 6 (by decide), hfield 8 (by decide), hfield 10 (by decide)⟩

end Sys2Proof.Machine.HeaderProofs

/-! SUPPORT. Proofs about the name family (42_name.md): the label grammar and the transitions of the octet classes. -/

namespace Sys2Proof.Machine.NameProofs

open Sys2Proof.Machine.Laws

/-! ## The label grammar (R177) -/

theorem labelByte_iff (b : Byte) :
    labelByte b = true ↔ (0x41 ≤ b.toNat ∧ b.toNat ≤ 0x5A) ∨ (0x61 ≤ b.toNat ∧ b.toNat ≤ 0x7A) ∨
      (0x30 ≤ b.toNat ∧ b.toNat ≤ 0x39) ∨ b.toNat = 0x2D := by
  simp only [labelByte, Bool.or_eq_true, Bool.and_eq_true, decide_eq_true_eq, or_assoc]

theorem hyphens34_iff (l : Label) : hyphens34 l = true ↔ l[2]? = some hyphen ∧ l[3]? = some hyphen := by
  match l with
  | [] | [_] | [_, _] | [_, _, _] => simp [hyphens34]
  | _ :: _ :: _ :: _ :: _ => simp [hyphens34]

/-- `xn--`, with clause 3's other letter cases where the parameter allows them. -/
theorem isAce_iff (ci : Bool) (l : Label) :
    isAce ci l = true ↔ l.take 4 = [0x78, 0x6E, 0x2D, 0x2D] ∨
      (ci = true ∧ (l.take 4 = [0x58, 0x4E, 0x2D, 0x2D] ∨ l.take 4 = [0x58, 0x6E, 0x2D, 0x2D] ∨
        l.take 4 = [0x78, 0x4E, 0x2D, 0x2D])) := by
  match l with
  | [] | [_] | [_, _] | [_, _, _] => simp [isAce]
  | c0 :: c1 :: c2 :: c3 :: l =>
    simp only [isAce, hyphen, List.take_succ_cons, List.take_zero, List.cons.injEq, and_true, Bool.and_eq_true,
      Bool.or_eq_true, decide_eq_true_eq]
    grind

/-- Clause 3 (R177): hyphens at positions 3 and 4 only in a label that begins with `xn--`. -/
theorem aceClause_iff (ci : Bool) (l : Label) :
    (!hyphens34 l || isAce ci l) = true ↔
      (4 ≤ l.length → l[2]? = some hyphen → l[3]? = some hyphen → isAce ci l = true) := by
  have hlen (h : l[3]? = some hyphen) : 4 ≤ l.length := (List.getElem?_eq_some_iff.1 h).1
  rw [Bool.or_eq_true, Bool.not_eq_true', ← Bool.not_eq_true, ← imp_iff_not_or, hyphens34_iff]
  exact ⟨fun h _ h2 h3 => h ⟨h2, h3⟩, fun h ⟨h2, h3⟩ => h (hlen h3) h2 h3⟩

theorem labelOK_iff (ci : Bool) (l : Label) :
    labelOK ci l = true ↔ (∀ b ∈ l, labelByte b = true) ∧ l[0]? ≠ some hyphen ∧ l[l.length - 1]? ≠ some hyphen ∧
      (4 ≤ l.length → l[2]? = some hyphen → l[3]? = some hyphen → isAce ci l = true) := by
  rw [labelOK, Bool.and_eq_true, Bool.and_eq_true, Bool.and_eq_true, aceClause_iff, List.all_eq_true, bne_iff_ne,
    bne_iff_ne, List.head?_eq_getElem?, List.getLast?_eq_getElem?, and_assoc, and_assoc]

/-- Settles O30: the grammar clause by clause; the examples are evaluated. -/
theorem labelGrammar : Obligations.LabelGrammar := by
  refine ⟨fun ci l _ _ => ?_, by decide⟩
  simp only [← labelByte_iff, ← isAce_iff]
  exact labelOK_iff ci l

/-! ## The bytes a message holds -/

theorem message_length_of_holds {s : State} {a : Nat} {bytes : List Byte} (h : s.Holds a bytes) :
    a + bytes.length ≤ s.message.length := h.1.trans_eq (message_length s).symm

theorem slice_of_holds {s : State} {a : Nat} {bytes : List Byte} (h : s.Holds a bytes) :
    slice s.message a bytes.length = bytes := by
  refine List.ext_getElem (slice_length (message_length_of_holds h)) fun i _ hi => ?_
  simp only [slice, List.getElem_take, List.getElem_drop, message_getElem]
  exact h.2 i hi

/-! ## ReadLabel (R176) -/

section
variable {p : Config.Params} {w : Walk} {m : List Byte} {len : Nat}

theorem readLabel_out (h : m.length < w.pos + 1 + len) :
    w.readLabel p m len = .error (.raise .outOfBounds .nameLabel (w.pos + 1) len) := by
  rw [Walk.readLabel, memSpan_out _ _ h]
  rfl

variable {c : Label} (h : w.pos + 1 + len ≤ m.length) (hc : slice m (w.pos + 1) len = c)
include h hc

theorem readLabel_in :
    w.readLabel p m len =
      if labelOK p.aceCaseInsensitive c = false then .error (.raise .invalidLabelSyntax .nameLabel (w.pos + 1) len)
      else if w.total + len + 1 > Config.nameMax then .error (.raise .invalidValue .nameTotal w.pos (len + 1))
      else .ok (appended w c len) := by
  rw [Walk.readLabel, memSpan_in _ _ h, hc]
  rfl

theorem readLabel_syntax (hg : labelOK p.aceCaseInsensitive c = false) :
    w.readLabel p m len = .error (.raise .invalidLabelSyntax .nameLabel (w.pos + 1) len) := by
  rw [readLabel_in h hc, if_pos hg]

variable (hg : labelOK p.aceCaseInsensitive c = true)
include hg

theorem readLabel_total (ht : 255 < w.total + len + 1) :
    w.readLabel p m len = .error (.raise .invalidValue .nameTotal w.pos (len + 1)) := by
  rw [readLabel_in h hc, if_neg (by simp [hg])]
  exact if_pos ht

theorem readLabel_good (ht : w.total + len + 1 ≤ 255) : w.readLabel p m len = .ok (appended w c len) := by
  rw [readLabel_in h hc, if_neg (by simp [hg])]
  exact if_neg (Nat.not_lt.2 ht)

end

/-! ## FollowPointer (R180), after the read of the second octet (R179) -/

section
variable {w : Walk} {m : List Byte} {target : Nat}

theorem pointer_cut (h : m.length < w.pos + 2) :
    w.pointer m target = .error (.raise .tooShort .namePtr2 (w.pos + 1) 1) := by
  rw [Walk.pointer, memRead_out (a := w.pos + 1) (n := 1) _ h]
  rfl

theorem pointer_whole (h : w.pos + 2 ≤ m.length) : w.pointer m target = w.followPointer m target w.pos := by
  rw [Walk.pointer, memRead_in (a := w.pos + 1) (n := 1) _ h]
  rfl

variable {at_ : Nat}

theorem followPointer_second (hj : w.jumped = true) :
    w.followPointer m target at_ = .error (.raise .recursivePointer .namePtr at_ 2) := if_pos hj

variable (hj : w.jumped = false)
include hj

theorem followPointer_not_backward (ht : w.o ≤ target) :
    w.followPointer m target at_ = .error (.raise .invalidValue .namePtr at_ 2) := by
  rw [Walk.followPointer, if_neg (by simp [hj]), if_pos ht]

theorem followPointer_out (ht : target < w.o) (hm : m.length ≤ target) :
    w.followPointer m target at_ = .error (.raise .outOfBounds .namePtr at_ 2) := by
  rw [Walk.followPointer, if_neg (by simp [hj]), if_neg (Nat.not_le.2 ht), if_pos hm]

theorem followPointer_jump (ht : target < w.o) (hm : target < m.length) :
    w.followPointer m target at_ = .ok (followed w target) := by
  rw [Walk.followPointer, if_neg (by simp [hj]), if_neg (Nat.not_le.2 ht), if_neg (Nat.not_le.2 hm)]
  rfl

end

/-! ## The terminator (R174) -/

theorem terminate_forward {w : Walk} (hj : w.jumped = false) : w.terminate = { w with fwd := w.fwd + 1, st := .done } := by
  simp [Walk.terminate, hj]

theorem terminate_jumped {w : Walk} (hj : w.jumped = true) : w.terminate = { w with st := .done } := by
  simp [Walk.terminate, hj]

/-! ## A reserved octet at the start of a name (R175) -/

theorem decodeName_reserved {p : Config.Params} {m : List Byte} {o : Nat} (h : o < m.length) (h1 : 64 ≤ (m[o]).toNat)
    (h2 : (m[o]).toNat < 192) : decodeName p m o = .error (.raise .invalidValue .nameLen o 1) := by
  rcases nameLoop_cases p 128 m (Walk.start o) with ⟨hs, -⟩ | ⟨_, ⟨h0, -⟩ | ⟨-, h63, -⟩ | ⟨-, -, he⟩ | ⟨h3, -⟩ | ⟨h3, -⟩⟩
  · exact absurd h (Nat.not_lt.2 hs)
  · exact absurd (h0 ▸ h1 : 64 ≤ 0) (by decide)
  · exact absurd (h1.trans h63) (by decide)
  · exact he
  · exact absurd h2 (Nat.not_lt.2 h3)
  · exact absurd h2 (Nat.not_lt.2 h3)

theorem exec_name (off : Nat) (s : State) : exec (.name off) s = s.settle ((decodeName s.params s.message off).map .nam) := rfl

theorem exec_name_reserved {s : State} {off : Nat} {b : Byte} (h : s.Holds off [b]) (h1 : 64 ≤ b.toNat)
    (h2 : b.toNat < 192) : exec (.name off) s = .next (s.raise .invalidValue .nameLen off 1) := by
  have hm : off < s.message.length := message_length_of_holds h
  have hb : s.message[off] = b := (message_getElem s off hm).trans (h.2 0 Nat.one_pos)
  have hd : decodeName s.params s.message off = .error (.raise .invalidValue .nameLen off 1) :=
    decodeName_reserved hm (by rwa [hb]) (by rwa [hb])
  rw [exec_name, hd, Except.map, State.settle, State.stop]

/-! ## The octet classes in ReadLength -/

theorem exec_octTerm (s : State) : exec .octTerm s = s.inReadLength (fun w => .ok w.terminate) := rfl
theorem exec_octLabel (len : BitVec 6) (s : State) :
    exec (.octLabel len) s = s.inReadLength (fun w => w.readLabel s.params s.message len.toNat) := rfl
theorem exec_octRsv01 (any : BitVec 6) (s : State) : exec (.octRsv01 any) s = s.inReadLength Walk.badLength := rfl
theorem exec_octRsv10 (any : BitVec 6) (s : State) : exec (.octRsv10 any) s = s.inReadLength Walk.badLength := rfl
theorem exec_octPtr (target : BitVec 14) (s : State) :
    exec (.octPtr target) s = s.inReadLength (fun w => w.pointer s.message target.toNat) := rfl

section
variable {s : State} {w : Walk} {task : Task} {tr : Walk → Except Stop Walk} (he : s.engine = .naming w task)
  (hst : w.st = .readLength)
include he hst

theorem inReadLength_of_ok {w' : Walk} (h : tr w = .ok w') :
    s.inReadLength tr = .next (s.withEngine (.naming w' task)) := by
  rw [inReadLength_eq tr he hst, h, State.settleWalk]

theorem inReadLength_of_raise {k : ErrKind} {f : ErrField} {off width : Nat} (h : tr w = .error (.raise k f off width)) :
    s.inReadLength tr = .next (s.raise k f off width) := by
  rw [inReadLength_eq tr he hst, h, State.settleWalk, State.stop]

end

/-! ## The statements of the octet classes -/

/-- Settles O31: the forward count by whether a pointer has been followed. -/
theorem terminatorEndsTheName : Obligations.TerminatorEndsTheName := by
  intro s w task he hst
  rw [exec_octTerm]
  exact ⟨fun hj => inReadLength_of_ok he hst (congrArg _ (terminate_forward hj)),
    fun hj => inReadLength_of_ok he hst (congrArg _ (terminate_jumped hj))⟩

/-- Settles O32: the four endings of ReadLabel, with the label read from BUF. -/
theorem labelOctetReadsTheLabel : Obligations.LabelOctetReadsTheLabel := by
  intro s w task len he hst _
  rw [exec_octLabel]
  refine ⟨fun hl => inReadLength_of_raise he hst (readLabel_out (by rwa [message_length])), fun c hh hlen => ?_⟩
  have hin : w.pos + 1 + len.toNat ≤ s.message.length := hlen ▸ message_length_of_holds hh
  have hc : slice s.message (w.pos + 1) len.toNat = c := hlen ▸ slice_of_holds hh
  refine ⟨fun hg => inReadLength_of_raise he hst (readLabel_syntax hin hc hg),
    fun hg ht => inReadLength_of_raise he hst (readLabel_total hin hc hg ht), fun hg ht => ?_⟩
  rw [inReadLength_of_ok he hst (readLabel_good hin hc hg ht), appended, ← hst]
  rfl

/-- Settles O33: the octets by the value of their top bits; both classes share one transition; NAME meets it in its first
pass. -/
theorem reservedOctetsAreInvalidLengths : Obligations.ReservedOctetsAreInvalidLengths := by
  refine ⟨fun b rest h1 h2 => ⟨octetLow b, decodeOctets_reserved h1 (Nat.lt_succ_of_le h2)⟩, fun s w task any he hst => ?_,
    fun s hh => exec_name_reserved hh (by decide) (by decide)⟩
  rw [exec_octRsv01, exec_octRsv10, and_self]
  exact inReadLength_of_raise he hst rfl

/-- Settles O34: the second octet's read, then the four endings of FollowPointer. -/
theorem pointerIsFollowedOnceAndBackward : Obligations.PointerIsFollowedOnceAndBackward := by
  intro s w task target he hst
  have hlen : s.message.length = s.bufLen := message_length s
  rw [exec_octPtr]
  refine ⟨fun hl => inReadLength_of_raise he hst (pointer_cut (by rwa [hlen])), fun hl => ?_⟩
  have hp : w.pointer s.message target.toNat = w.followPointer s.message target.toNat w.pos :=
    pointer_whole (by rwa [hlen])
  refine ⟨fun hj => inReadLength_of_raise he hst (hp.trans (followPointer_second hj)),
    fun hj ht => inReadLength_of_raise he hst (hp.trans (followPointer_not_backward hj ht)),
    fun hj ht hm => inReadLength_of_raise he hst (hp.trans (followPointer_out hj ht (by rwa [hlen]))), fun hj ht hm => ?_⟩
  rw [inReadLength_of_ok he hst (hp.trans (followPointer_jump hj ht (by rwa [hlen]))), followed, ← hst]
  rfl

end Sys2Proof.Machine.NameProofs

/-! SUPPORT. Proofs about the question family (43_question.md): the accepted sets and what follows the name in a question. -/

namespace Sys2Proof.Machine.QuestionProofs

open Sys2Proof.Machine.Laws Sys2Proof.Machine.ReaderProofs

/-! ## The accepted sets (R202) -/

theorem qtypeOK_iff (t : Nat) : qtypeOK t = true ↔ (1 ≤ t ∧ t ≤ 16) ∨ (252 ≤ t ∧ t ≤ 255) := by
  simp only [qtypeOK, Bool.or_eq_true, Bool.and_eq_true, decide_eq_true_eq]

theorem qclassOK_iff (k : Nat) : qclassOK k = true ↔ k ∈ [1, 3, 4, 255] := by
  simp only [qclassOK, Bool.or_eq_true, decide_eq_true_eq, List.mem_cons, List.not_mem_nil, or_false, or_assoc]

/-! ## Both reads, then both checks (R201, R204) -/

theorem memRead_two_message {s : State} {a : Nat} (f : ErrField) (h : a + 2 ≤ s.bufLen) :
    memRead s.message a 2 f = .ok (s.be16 a) := by
  rw [memRead_in f (by rwa [message_length]), beValue_message_two h]

theorem memRead_two_message_out {s : State} {a : Nat} (f : ErrField) (h : s.bufLen < a + 2) :
    memRead s.message a 2 f = .error (.raise .tooShort f a 2) :=
  memRead_out f (by rwa [message_length])

section
variable {s : State} {o a : Nat} {name : Name} (ha : a = o + name.consumed)
include ha

theorem questionFields_cut_qtype (h : s.bufLen < a + 2) :
    questionFields s.message o name = .error (.raise .tooShort .qQtype a 2) := by
  rw [questionFields, ← ha, memRead_two_message_out _ h]
  rfl

theorem questionFields_cut_qclass (h : a + 2 ≤ s.bufLen) (h' : s.bufLen < a + 4) :
    questionFields s.message o name = .error (.raise .tooShort .qQclass (a + 2) 2) := by
  rw [questionFields, ← ha, memRead_two_message _ h, memRead_two_message_out _ h']
  rfl

variable (h : a + 4 ≤ s.bufLen)
include h

/-- Where both reads fit, the checks decide. -/
theorem questionFields_whole :
    questionFields s.message o name =
      if qtypeOK (s.be16 a) = false then .error (.raise .invalidValue .qQtype a 2)
      else if qclassOK (s.be16 (a + 2)) = false then .error (.raise .invalidValue .qQclass (a + 2) 2)
      else .ok (⟨name, BitVec.ofNat 16 (s.be16 a), BitVec.ofNat 16 (s.be16 (a + 2))⟩, name.consumed + 4) := by
  rw [questionFields, ← ha, memRead_two_message _ (Nat.le_of_add_right_le (k := 2) h), memRead_two_message _ h]
  rfl

theorem questionFields_bad_qtype (ht : qtypeOK (s.be16 a) = false) :
    questionFields s.message o name = .error (.raise .invalidValue .qQtype a 2) := by
  rw [questionFields_whole ha h, if_pos ht]

variable (ht : qtypeOK (s.be16 a) = true)
include ht

theorem questionFields_bad_qclass (hk : qclassOK (s.be16 (a + 2)) = false) :
    questionFields s.message o name = .error (.raise .invalidValue .qQclass (a + 2) 2) := by
  rw [questionFields_whole ha h, if_neg (by simp [ht]), if_pos hk]

theorem questionFields_good (hk : qclassOK (s.be16 (a + 2)) = true) :
    questionFields s.message o name =
      .ok (⟨name, BitVec.ofNat 16 (s.be16 a), BitVec.ofNat 16 (s.be16 (a + 2))⟩, name.consumed + 4) := by
  rw [questionFields_whole ha h, if_neg (by simp [ht]), if_neg (by simp [hk])]

end

/-! ## QUES (R200) -/

theorem decodeQuestion_of_name_error {p : Config.Params} {m : List Byte} {o : Nat} {e : Stop}
    (h : decodeName p m o = .error e) : decodeQuestion p m o = .error e := by
  rw [decodeQuestion, h]
  rfl

theorem decodeQuestion_of_name {p : Config.Params} {m : List Byte} {o : Nat} {name : Name}
    (h : decodeName p m o = .ok name) : decodeQuestion p m o = questionFields m o name := by
  rw [decodeQuestion, h]
  rfl

theorem exec_ques (off : Nat) (s : State) :
    exec (.ques off) s = s.settle ((decodeQuestion s.params s.message off).map (fun p => .que p.1 p.2)) := rfl

section
variable {s : State} {off : Nat}

theorem exec_ques_of_ok {q : Question} {k : Nat} (h : decodeQuestion s.params s.message off = .ok (q, k)) :
    exec (.ques off) s = .next (s.complete (.que q k)) := by
  rw [exec_ques, h, Except.map, State.settle]

theorem exec_ques_of_error {e : Stop} (h : decodeQuestion s.params s.message off = .error e) :
    exec (.ques off) s = s.stop e := by
  rw [exec_ques, h, Except.map, State.settle]

theorem exec_ques_of_raise {k : ErrKind} {f : ErrField} {o w : Nat}
    (h : decodeQuestion s.params s.message off = .error (.raise k f o w)) :
    exec (.ques off) s = .next (s.raise k f o w) := exec_ques_of_error h

end

/-! ## The statement -/

/-- Settles O43: after the name QUES ends as `questionFields` does, read by read and check by check. -/
theorem questionFieldsFollowTheName : Obligations.QuestionFieldsFollowTheName := by
  intro s off
  refine ⟨fun _ he => exec_ques_of_error (decodeQuestion_of_name_error he), fun name a hn ha => ?_⟩
  have hq : decodeQuestion s.params s.message off = questionFields s.message off name := decodeQuestion_of_name hn
  simp only [← qtypeOK_iff, ← qclassOK_iff, Bool.not_eq_true]
  exact ⟨fun h => exec_ques_of_raise (hq.trans (questionFields_cut_qtype ha h)),
    fun h h' => exec_ques_of_raise (hq.trans (questionFields_cut_qclass ha h h')),
    fun h => ⟨fun ht => exec_ques_of_raise (hq.trans (questionFields_bad_qtype ha h ht)),
      fun ht => ⟨fun hk => exec_ques_of_raise (hq.trans (questionFields_bad_qclass ha h ht hk)),
        fun hk => exec_ques_of_ok (hq.trans (questionFields_good ha h ht hk))⟩⟩⟩

end Sys2Proof.Machine.QuestionProofs

/-! SUPPORT. Proofs about the resource-record family (44_resource_record.md): what follows the name in a record. -/

namespace Sys2Proof.Machine.RecordProofs

open Sys2Proof.Machine.Laws Sys2Proof.Machine.ReaderProofs Sys2Proof.Machine.QuestionProofs

/-! ## The reads and checks, in the order of the text (R211, R218) -/

theorem memRead_four_message {s : State} {a : Nat} (f : ErrField) (h : a + 4 ≤ s.bufLen) :
    memRead s.message a 4 f = .ok (s.be32 a) := by
  rw [memRead_in f (by rwa [message_length]), beValue_message_four h]

theorem memRead_four_message_out {s : State} {a : Nat} (f : ErrField) (h : s.bufLen < a + 4) :
    memRead s.message a 4 f = .error (.raise .tooShort f a 4) :=
  memRead_out f (by rwa [message_length])

/-- The record that a name's end at `a` gives, where its fields fit (R211). -/
def recordAt (s : State) (name : Name) (a : Nat) : Record :=
  ⟨name, BitVec.ofNat 16 (s.be16 a), BitVec.ofNat 16 (s.be16 (a + 2)), BitVec.ofNat 32 (s.be32 (a + 4)),
    BitVec.ofNat 16 (s.be16 (a + 8)), a + 10⟩

section
variable {s : State} {o a : Nat} {name : Name} (ha : a = o + name.consumed)
include ha

theorem recordFields_cut_type (h : s.bufLen < a + 2) :
    recordFields s.message o name = .error (.raise .tooShort .rrType a 2) := by
  rw [recordFields, ← ha, memRead_two_message_out _ h]
  rfl

theorem recordFields_cut_class (h : a + 2 ≤ s.bufLen) (h' : s.bufLen < a + 4) :
    recordFields s.message o name = .error (.raise .tooShort .rrClass (a + 2) 2) := by
  rw [recordFields, ← ha, memRead_two_message _ h, memRead_two_message_out _ h']
  rfl

theorem recordFields_cut_ttl (h : a + 4 ≤ s.bufLen) (h' : s.bufLen < a + 8) :
    recordFields s.message o name = .error (.raise .tooShort .rrTtl (a + 4) 4) := by
  rw [recordFields, ← ha, memRead_two_message _ (Nat.le_of_add_right_le (k := 2) h), memRead_two_message _ h,
    memRead_four_message_out _ h']
  rfl

section
variable (h : a + 8 ≤ s.bufLen)
include h

theorem recordFields_bad_ttl (ht : 0x80000000 ≤ s.be32 (a + 4)) :
    recordFields s.message o name = .error (.raise .invalidValue .rrTtl (a + 4) 4) := by
  rw [recordFields, ← ha, memRead_two_message _ (by omega), memRead_two_message _ (by omega), memRead_four_message _ h]
  exact if_pos ht

theorem recordFields_cut_rdlength (ht : s.be32 (a + 4) < 0x80000000) (h' : s.bufLen < a + 10) :
    recordFields s.message o name = .error (.raise .tooShort .rrRdlength (a + 8) 2) := by
  rw [recordFields, ← ha, memRead_two_message _ (by omega), memRead_two_message _ (by omega), memRead_four_message _ h,
    memRead_two_message_out _ h']
  exact if_neg (Nat.not_lt.2 (Nat.le_of_lt_succ ht))

end

variable (ht : s.be32 (a + 4) < 0x80000000)
include ht

/-- Where the four fields fit and the TTL is good, the RDATA slice decides before the A rule. -/
theorem recordFields_rdata (h : a + 10 ≤ s.bufLen) :
    recordFields s.message o name = (do
      let _ ← memSpan s.message (a + 10) (s.be16 (a + 8)) .inconsistentFields .rrRdata
      if s.be16 a = 1 ∧ s.be16 (a + 8) ≠ 4 then .error (.raise .inconsistentFields .rrRdlength (a + 8) 2)
      else .ok (recordAt s name a, name.consumed + 10 + s.be16 (a + 8))) := by
  rw [recordFields, ← ha, memRead_two_message _ (by omega), memRead_two_message _ (by omega),
    memRead_four_message _ (by omega), memRead_two_message _ h]
  exact if_neg (Nat.not_lt.2 (Nat.le_of_lt_succ ht))

theorem recordFields_cut_rdata (h : a + 10 ≤ s.bufLen) (h' : s.bufLen < a + 10 + s.be16 (a + 8)) :
    recordFields s.message o name = .error (.raise .inconsistentFields .rrRdata (a + 10) (s.be16 (a + 8))) := by
  rw [recordFields_rdata ha ht h, memSpan_out _ _ (by rwa [message_length])]
  rfl

variable (h : a + 10 + s.be16 (a + 8) ≤ s.bufLen)
include h

/-- Where the RDATA fits too, only the A rule is left. -/
theorem recordFields_whole :
    recordFields s.message o name =
      if s.be16 a = 1 ∧ s.be16 (a + 8) ≠ 4 then .error (.raise .inconsistentFields .rrRdlength (a + 8) 2)
      else .ok (recordAt s name a, name.consumed + 10 + s.be16 (a + 8)) := by
  rw [recordFields_rdata ha ht (Nat.le_of_add_right_le h), memSpan_in _ _ (by rwa [message_length])]
  rfl

theorem recordFields_bad_a (hr : s.be16 a = 1 ∧ s.be16 (a + 8) ≠ 4) :
    recordFields s.message o name = .error (.raise .inconsistentFields .rrRdlength (a + 8) 2) := by
  rw [recordFields_whole ha ht h, if_pos hr]

theorem recordFields_good (hr : ¬(s.be16 a = 1 ∧ s.be16 (a + 8) ≠ 4)) :
    recordFields s.message o name = .ok (recordAt s name a, name.consumed + 10 + s.be16 (a + 8)) := by
  rw [recordFields_whole ha ht h, if_neg hr]

end

/-! ## RR (R210) -/

theorem decodeRecord_of_name_error {p : Config.Params} {m : List Byte} {o : Nat} {e : Stop}
    (h : decodeName p m o = .error e) : decodeRecord p m o = .error e := by
  rw [decodeRecord, h]
  rfl

theorem decodeRecord_of_name {p : Config.Params} {m : List Byte} {o : Nat} {name : Name}
    (h : decodeName p m o = .ok name) : decodeRecord p m o = recordFields m o name := by
  rw [decodeRecord, h]
  rfl

theorem exec_rr (off : Nat) (s : State) :
    exec (.rr off) s = s.settle ((decodeRecord s.params s.message off).map (fun p => .rr p.1 p.2)) := rfl

section
variable {s : State} {off : Nat}

theorem exec_rr_of_ok {r : Record} {k : Nat} (h : decodeRecord s.params s.message off = .ok (r, k)) :
    exec (.rr off) s = .next (s.complete (.rr r k)) := by
  rw [exec_rr, h, Except.map, State.settle]

theorem exec_rr_of_error {e : Stop} (h : decodeRecord s.params s.message off = .error e) :
    exec (.rr off) s = s.stop e := by
  rw [exec_rr, h, Except.map, State.settle]

theorem exec_rr_of_raise {k : ErrKind} {f : ErrField} {o w : Nat}
    (h : decodeRecord s.params s.message off = .error (.raise k f o w)) :
    exec (.rr off) s = .next (s.raise k f o w) := exec_rr_of_error h

end

/-! ## The statement -/

/-- Settles O44: after the name RR ends as `recordFields` does, read by read and check by check. -/
theorem recordFieldsFollowTheName : Obligations.RecordFieldsFollowTheName := by
  intro s off
  refine ⟨fun _ he => exec_rr_of_error (decodeRecord_of_name_error he), fun name a hn ha => ?_⟩
  have hr : decodeRecord s.params s.message off = recordFields s.message off name := decodeRecord_of_name hn
  exact ⟨fun h => exec_rr_of_raise (hr.trans (recordFields_cut_type ha h)),
    fun h h' => exec_rr_of_raise (hr.trans (recordFields_cut_class ha h h')),
    fun h h' => exec_rr_of_raise (hr.trans (recordFields_cut_ttl ha h h')),
    fun h ht => exec_rr_of_raise (hr.trans (recordFields_bad_ttl ha h ht)),
    fun h ht => ⟨fun h' => exec_rr_of_raise (hr.trans (recordFields_cut_rdlength ha h ht h')),
      fun h' hd => exec_rr_of_raise (hr.trans (recordFields_cut_rdata ha ht h' hd)),
      fun hd h1 h4 => exec_rr_of_raise (hr.trans (recordFields_bad_a ha ht hd ⟨h1, h4⟩)),
      fun hd hA => exec_rr_of_ok (hr.trans (recordFields_good ha ht hd hA))⟩⟩

end Sys2Proof.Machine.RecordProofs

/-! SUPPORT. Proofs about the message family (45_message.md): the counted loops, where MSG fails, and what the message decode
does not look at. -/

namespace Sys2Proof.Machine.MessageProofs

open Sys2Proof.Machine.Laws Sys2Proof.Machine.HeaderProofs Sys2Proof.Machine.NameProofs Sys2Proof.Machine.QuestionProofs
  Sys2Proof.Machine.RecordProofs

/-- A sequence of decodes returns where both parts do. -/
theorem bind_eq_ok_iff {α β : Type} {x : Except Stop α} {f : α → Except Stop β} {b : β} :
    x.bind f = .ok b ↔ ∃ a, x = .ok a ∧ f a = .ok b := by
  cases x <;> simp [Except.bind]

/-! ## One loop for all four sections (R231) -/

/-- The decode of one item at an offset, with the bytes it consumes: `decodeQuestion` or `decodeRecord`. -/
abbrev ItemDecode (α : Type) := List Byte → Nat → Except Stop (α × Nat)

/-- What the loops over questions and over records have in common. -/
def countedLoop {α : Type} (dec : ItemDecode α) : Nat → List Byte → Nat → List α → Except Stop (List α × Nat)
  | 0, _, off, acc => .ok (acc, off)
  | n + 1, m, off, acc =>
    if off ≥ m.length then .error (countMismatch off)
    else (dec m off).bind fun x => countedLoop dec n m (off + x.2) (acc ++ [x.1])

/-- What `QuestionsAt` and `RecordsAt` have in common. -/
def ItemsAt {α : Type} (dec : ItemDecode α) (m : List Byte) : Nat → List α → Nat → Prop
  | off, [], e => e = off
  | off, x :: xs, e => off < m.length ∧ ∃ k, dec m off = .ok (x, k) ∧ ItemsAt dec m (off + k) xs e

section
variable {p : Config.Params} {m : List Byte}

theorem questionLoop_eq_countedLoop (n off : Nat) (acc : List Question) :
    questionLoop p n m off acc = countedLoop (decodeQuestion p) n m off acc := by
  induction n generalizing off acc with
  | zero => rfl
  | succ n ih => simp only [questionLoop, countedLoop, ih]; rfl

theorem recordLoop_eq_countedLoop (n off : Nat) (acc : List Record) :
    recordLoop p n m off acc = countedLoop (decodeRecord p) n m off acc := by
  induction n generalizing off acc with
  | zero => rfl
  | succ n ih => simp only [recordLoop, countedLoop, ih]; rfl

theorem questionsAt_iff_itemsAt {off e : Nat} {qs : List Question} :
    QuestionsAt p m off qs e ↔ ItemsAt (decodeQuestion p) m off qs e := by
  induction qs generalizing off with
  | nil => rfl
  | cons q qs ih => simp only [QuestionsAt, ItemsAt, ih]

theorem recordsAt_iff_itemsAt {off e : Nat} {rs : List Record} :
    RecordsAt p m off rs e ↔ ItemsAt (decodeRecord p) m off rs e := by
  induction rs generalizing off with
  | nil => rfl
  | cons r rs ih => simp only [RecordsAt, ItemsAt, ih]

end

section
variable {α : Type} {dec : ItemDecode α} {m : List Byte} {off e n : Nat} {xs : List α}

theorem ItemsAt.le (h : ItemsAt dec m off xs e) : off ≤ e := by
  induction xs generalizing off with
  | nil => exact h.ge
  | cons x xs ih =>
    obtain ⟨-, k, -, hr⟩ := h
    exact Nat.le_of_add_right_le (ih hr)

/-- The loop passes over the items that stand there. -/
theorem countedLoop_of_itemsAt (n : Nat) (acc : List α) (h : ItemsAt dec m off xs e) :
    countedLoop dec (xs.length + n) m off acc = countedLoop dec n m e (acc ++ xs) := by
  induction xs generalizing off acc with
  | nil => rw [show e = off from h, List.append_nil, List.length_nil, Nat.zero_add]
  | cons x xs ih =>
    obtain ⟨hlt, k, hx, hr⟩ := h
    rw [List.length_cons, Nat.add_right_comm, countedLoop, if_neg (Nat.not_le.2 hlt), hx, Except.bind, ih _ hr,
      List.append_assoc, List.singleton_append]

theorem itemsAt_of_countedLoop {acc ys : List α} (h : countedLoop dec n m off acc = .ok (ys, e)) :
    ∃ xs, ys = acc ++ xs ∧ xs.length = n ∧ ItemsAt dec m off xs e := by
  induction n generalizing off acc with
  | zero =>
    cases h
    exact ⟨[], (List.append_nil _).symm, rfl, rfl⟩
  | succ n ih =>
    rw [countedLoop] at h
    split_ifs at h with hl
    cases hx : dec m off with
    | error err => rw [hx] at h; cases h
    | ok x =>
      rw [hx] at h
      obtain ⟨xs, rfl, rfl, hxs⟩ := ih h
      exact ⟨x.1 :: xs, by simp, rfl, Nat.not_le.1 hl, x.2, hx, hxs⟩

theorem countedLoop_eq_ok_iff :
    countedLoop dec n m off [] = .ok (xs, e) ↔ xs.length = n ∧ ItemsAt dec m off xs e := by
  constructor
  · intro h
    obtain ⟨_, rfl, hlen, hxs⟩ := itemsAt_of_countedLoop h
    exact ⟨hlen, hxs⟩
  · rintro ⟨rfl, h⟩
    exact countedLoop_of_itemsAt 0 [] h

/-- What stops a section at an offset where a further item is due: no byte is left (R235), or the item's own error (R239). -/
def FailsAt (dec : ItemDecode α) (m : List Byte) (off : Nat) (err : Stop) : Prop :=
  m.length ≤ off ∧ err = countMismatch off ∨ off < m.length ∧ dec m off = .error err

theorem countedLoop_of_failsAt {acc : List α} {err : Stop} (hx : ItemsAt dec m off xs e) (hn : xs.length < n)
    (hf : FailsAt dec m e err) : countedLoop dec n m off acc = .error err := by
  obtain ⟨j, rfl⟩ := Nat.exists_eq_add_of_lt hn
  rw [Nat.add_assoc, countedLoop_of_itemsAt _ _ hx, countedLoop]
  rcases hf with ⟨hl, rfl⟩ | ⟨hl, hd⟩
  · exact if_pos hl
  · rw [if_neg (Nat.not_le.2 hl), hd, Except.bind]

end

/-! ## The message decode, section by section (R231) -/

section
variable {p : Config.Params} {m : List Byte}

theorem decodeMessage_eq :
    decodeMessage p m =
      (headerOfMessage m).bind fun h =>
      (countedLoop (decodeQuestion p) h.qdcount.toNat m 12 []).bind fun qs =>
      (countedLoop (decodeRecord p) h.ancount.toNat m qs.2 []).bind fun ans =>
      (countedLoop (decodeRecord p) h.nscount.toNat m ans.2 []).bind fun auth =>
      (countedLoop (decodeRecord p) h.arcount.toNat m auth.2 []).bind fun adds =>
      .ok (⟨h, ⟨qs.1, ans.1, auth.1, adds.1⟩⟩, adds.2) := by
  simp only [← questionLoop_eq_countedLoop, ← recordLoop_eq_countedLoop]
  rfl

/-- The message decode returns exactly where a header and as many items as it counts stand one after the other. -/
theorem decodeMessage_eq_ok_iff {msg : Message} {e : Nat} :
    decodeMessage p m = .ok (msg, e) ↔
      headerOfMessage m = .ok msg.header ∧
      ∃ o1 o2 o3,
        (msg.store.questions.length = msg.header.qdcount.toNat ∧
          ItemsAt (decodeQuestion p) m 12 msg.store.questions o1) ∧
        (msg.store.answers.length = msg.header.ancount.toNat ∧ ItemsAt (decodeRecord p) m o1 msg.store.answers o2) ∧
        (msg.store.authorities.length = msg.header.nscount.toNat ∧
          ItemsAt (decodeRecord p) m o2 msg.store.authorities o3) ∧
        (msg.store.additionals.length = msg.header.arcount.toNat ∧
          ItemsAt (decodeRecord p) m o3 msg.store.additionals e) := by
  simp only [decodeMessage_eq, bind_eq_ok_iff, ← countedLoop_eq_ok_iff]
  constructor
  · rintro ⟨h, hh, ⟨qs, o1⟩, hq, ⟨ans, o2⟩, ha, ⟨auth, o3⟩, hu, ⟨adds, o4⟩, hd, heq⟩
    cases heq
    exact ⟨hh, o1, o2, o3, hq, ha, hu, hd⟩
  · rintro ⟨hh, o1, o2, o3, hq, ha, hu, hd⟩
    exact ⟨_, hh, _, hq, _, ha, _, hu, _, hd, rfl⟩

variable {h : Header} {err : Stop}

theorem decodeMessage_of_header_error (hh : headerOfMessage m = .error err) : decodeMessage p m = .error err := by
  rw [decodeMessage_eq, hh, Except.bind]

variable (hh : headerOfMessage m = .ok h)
include hh

theorem decodeMessage_of_questions_error (hq : countedLoop (decodeQuestion p) h.qdcount.toNat m 12 [] = .error err) :
    decodeMessage p m = .error err := by
  simp only [decodeMessage_eq, hh, hq, Except.bind]

variable {qs : List Question} {o1 : Nat} (hq : countedLoop (decodeQuestion p) h.qdcount.toNat m 12 [] = .ok (qs, o1))
include hq

theorem decodeMessage_of_answers_error (ha : countedLoop (decodeRecord p) h.ancount.toNat m o1 [] = .error err) :
    decodeMessage p m = .error err := by
  simp only [decodeMessage_eq, hh, hq, ha, Except.bind]

variable {ans : List Record} {o2 : Nat} (ha : countedLoop (decodeRecord p) h.ancount.toNat m o1 [] = .ok (ans, o2))
include ha

theorem decodeMessage_of_authorities_error (hu : countedLoop (decodeRecord p) h.nscount.toNat m o2 [] = .error err) :
    decodeMessage p m = .error err := by
  simp only [decodeMessage_eq, hh, hq, ha, hu, Except.bind]

variable {auth : List Record} {o3 : Nat} (hu : countedLoop (decodeRecord p) h.nscount.toNat m o2 [] = .ok (auth, o3))
include hu

theorem decodeMessage_of_additionals_error (hd : countedLoop (decodeRecord p) h.arcount.toNat m o3 [] = .error err) :
    decodeMessage p m = .error err := by
  simp only [decodeMessage_eq, hh, hq, ha, hu, hd, Except.bind]

end

/-! ## Where MSG fails (R235, R239) -/

section
variable {s : State}

theorem exec_msg (s : State) :
    exec .msg s = s.settle ((decodeMessage s.params s.message).map (fun p => .msg p.1 p.2)) := rfl

theorem exec_msg_of_error {e : Stop} (h : decodeMessage s.params s.message = .error e) : exec .msg s = s.stop e := by
  rw [exec_msg, h, Except.map, State.settle]

/-- Where a section's error is the message decode's, MSG fails at the first place of the section that does. -/
theorem exec_msg_of_failsAt {α : Type} {dec : ItemDecode α} {off o n : Nat} {xs : List α}
    (hloop : ∀ {err}, countedLoop dec n s.message off [] = .error err → decodeMessage s.params s.message = .error err)
    (hx : ItemsAt dec s.message off xs o) (hn : xs.length < n) :
    (s.bufLen ≤ o → exec .msg s = .next (s.raise .countMismatch .msgCount o 0)) ∧
    (o < s.bufLen → ∀ e, dec s.message o = .error e → exec .msg s = s.stop e) := by
  have fails {err} (hf : FailsAt dec s.message o err) : exec .msg s = s.stop err :=
    exec_msg_of_error (hloop (countedLoop_of_failsAt hx hn hf))
  rw [← message_length s]
  exact ⟨fun hl => fails (.inl ⟨hl, rfl⟩), fun hl _ he => fails (.inr ⟨hl, he⟩)⟩

end

/-- Settles O47: section by section, each loop passes over what stands there and stops at the first bad place. -/
theorem messageFailsAtTheFirstBadRecord : Obligations.MessageFailsAtTheFirstBadRecord := by
  intro s
  simp only [questionsAt_iff_itemsAt, recordsAt_iff_itemsAt]
  refine ⟨fun e he => exec_msg_of_error (decodeMessage_of_header_error he), fun h qs o1 hh hqs => ?_⟩
  refine ⟨exec_msg_of_failsAt (decodeMessage_of_questions_error hh) hqs, fun hql ans o2 hans => ?_⟩
  have hq := countedLoop_eq_ok_iff.2 ⟨hql, hqs⟩
  refine ⟨exec_msg_of_failsAt (decodeMessage_of_answers_error hh hq) hans, fun hal auth o3 hauth => ?_⟩
  have ha := countedLoop_eq_ok_iff.2 ⟨hal, hans⟩
  refine ⟨exec_msg_of_failsAt (decodeMessage_of_authorities_error hh hq ha) hauth, fun hul adds o4 hadds => ?_⟩
  have hu := countedLoop_eq_ok_iff.2 ⟨hul, hauth⟩
  exact exec_msg_of_failsAt (decodeMessage_of_additionals_error hh hq ha hu) hadds

/-! ## Byte sequences that agree below an offset -/

/-- `m'` has the first `e` bytes of `m`; what either holds from `e` on is left open. -/
def AgreeBelow (e : Nat) (m m' : List Byte) : Prop := e ≤ m'.length ∧ m'.take e = m.take e

namespace AgreeBelow
variable {e : Nat} {m m' : List Byte} (h : AgreeBelow e m m')
include h

theorem le_left : e ≤ m.length := by
  obtain ⟨hl, ht⟩ := h
  have := congrArg List.length ht
  simp only [List.length_take] at this
  omega

theorem le_right : e ≤ m'.length := h.1

theorem mono {e' : Nat} (he : e' ≤ e) : AgreeBelow e' m m' := by
  refine ⟨he.trans h.1, ?_⟩
  have := congrArg (List.take e') h.2
  rwa [List.take_take, List.take_take, Nat.min_eq_left he] at this

theorem getElem?_eq {i : Nat} (hi : i < e) : m'[i]? = m[i]? := by
  rw [← List.getElem?_take_of_lt hi, h.2, List.getElem?_take_of_lt hi]

theorem slice_eq {a n : Nat} (ha : a + n ≤ e) : slice m' a n = slice m a n := by
  have := congrArg (List.drop a) (h.mono ha).2
  rwa [List.drop_take, List.drop_take, Nat.add_sub_cancel_left] at this

theorem memRead_eq {a n : Nat} (f : ErrField) (ha : a + n ≤ e) : memRead m' a n f = memRead m a n f := by
  rw [memRead_in f (ha.trans h.le_right), memRead_in f (ha.trans h.le_left), h.slice_eq ha]

theorem memSpan_eq {a n : Nat} (k : ErrKind) (f : ErrField) (ha : a + n ≤ e) : memSpan m' a n k f = memSpan m a n k f := by
  rw [memSpan_in k f (ha.trans h.le_right), memSpan_in k f (ha.trans h.le_left), h.slice_eq ha]

theorem readLabel_eq {p : Config.Params} {w : Walk} {len : Nat} (hl : w.pos + 1 + len ≤ e) :
    w.readLabel p m' len = w.readLabel p m len := by
  rw [Walk.readLabel, h.memSpan_eq _ _ hl, Walk.readLabel]

theorem headerOfMessage_eq (he : 12 ≤ e) : headerOfMessage m' = headerOfMessage m := by
  rw [headerOfMessage_eq_take (he.trans h.le_right), headerOfMessage_eq_take (he.trans h.le_left), (h.mono he).2]

end AgreeBelow

/-! ## What a name decode that returns has looked at (R176, R180, R184) -/

section
variable {p : Config.Params} {m m' : List Byte} {w w' : Walk} {n : Nat} {name : Name}

theorem readLabel_eq_ok_iff {len : Nat} :
    w.readLabel p m len = .ok w' ↔
      w.pos + 1 + len ≤ m.length ∧ labelOK p.aceCaseInsensitive (slice m (w.pos + 1) len) = true ∧
      w.total + len + 1 ≤ Config.nameMax ∧ appended w (slice m (w.pos + 1) len) len = w' := by
  rcases readLabel_cases p w m len with ⟨h, he⟩ | ⟨h, h1, he⟩ | ⟨h, h1, h2, he⟩ | ⟨h, h1, h2, he⟩ <;> rw [he]
  · simp [Nat.not_le.2 h]
  · simp [h1]
  · simp [Nat.not_le.2 h2]
  · simp [h, h1, h2]

theorem followPointer_eq_ok_iff {target at_ : Nat} :
    w.followPointer m target at_ = .ok w' ↔
      w.jumped = false ∧ target < w.o ∧ target < m.length ∧ followed w target = w' := by
  rcases followPointer_cases w m target at_ with ⟨h, he⟩ | ⟨h, h1, he⟩ | ⟨h, h1, h2, he⟩ | ⟨h, h1, h2, he⟩ <;> rw [he]
  · simp [h]
  · simp [Nat.not_lt.2 h1]
  · simp [Nat.not_lt.2 h2]
  · simp [h, h1, h2]

/-- The passes that do not fail: the terminator, a label, a pointer. -/
theorem nameLoop_eq_ok_iff :
    nameLoop p (n + 1) m w = .ok name ↔ ∃ b, m[w.pos]? = some b ∧
      (b.toNat = 0 ∧ w.terminate.name = name ∨
       (1 ≤ b.toNat ∧ b.toNat ≤ 63) ∧ (∃ w', w.readLabel p m b.toNat = .ok w' ∧ nameLoop p n m w' = .ok name) ∨
       192 ≤ b.toNat ∧ ∃ b2, m[w.pos + 1]? = some b2 ∧
         ∃ w', w.followPointer m (256 * (b.toNat % 64) + b2.toNat) w.pos = .ok w' ∧ nameLoop p n m w' = .ok name) := by
  rcases nameLoop_cases p n m w with ⟨hp, he⟩ | ⟨hp, hc⟩
  · simp [he, List.getElem?_eq_none hp]
  · simp only [List.getElem?_eq_getElem hp, Option.some.injEq, exists_eq_left']
    rcases hc with ⟨hb, he⟩ | ⟨hb, hb', he⟩ | ⟨hb, hb', he⟩ | ⟨hb, hl, he⟩ | ⟨hb, hl, he⟩ <;> rw [he]
    · simp [hb]
    · rw [bind_eq_ok_iff]
      have ⟨h0, h3⟩ : (m[w.pos]).toNat ≠ 0 ∧ ¬ 192 ≤ (m[w.pos]).toNat := by omega
      simp only [h0, h3, hb, hb', false_and, or_false, false_or, and_self, true_and]
    · have ⟨h0, h1, h3⟩ : (m[w.pos]).toNat ≠ 0 ∧ ¬ (m[w.pos]).toNat ≤ 63 ∧ ¬ 192 ≤ (m[w.pos]).toNat := by omega
      simp [h0, h1, h3]
    · have ⟨h0, h1⟩ : (m[w.pos]).toNat ≠ 0 ∧ ¬ (m[w.pos]).toNat ≤ 63 := by omega
      simp [h0, h1, List.getElem?_eq_none hl.le]
    · have ⟨h0, h1⟩ : (m[w.pos]).toNat ≠ 0 ∧ ¬ (m[w.pos]).toNat ≤ 63 := by omega
      simp only [h0, h1, hb, false_and, and_false, false_or, true_and, bind_eq_ok_iff,
        List.getElem?_eq_getElem hl, Option.some.injEq, exists_eq_left']

theorem appended_fwd_of_not_jumped (hj : w.jumped = false) (c : Label) (len : Nat) :
    (appended w c len).fwd = w.fwd + (len + 1) := by
  simp [appended, hj]

/-- The forward count only grows. -/
theorem fwd_le_consumed (h : nameLoop p n m w = .ok name) : w.fwd ≤ name.consumed := by
  induction n generalizing w with
  | zero => cases h
  | succ n ih =>
    obtain ⟨b, -, ⟨-, rfl⟩ | ⟨-, w', hw, hn⟩ | ⟨-, b2, -, w', hw, hn⟩⟩ := nameLoop_eq_ok_iff.1 h
    · simp only [Walk.name, Walk.terminate]
      split_ifs <;> omega
    · obtain ⟨-, -, -, rfl⟩ := readLabel_eq_ok_iff.1 hw
      refine le_trans ?_ (ih hn)
      simp only [appended]
      split_ifs <;> omega
    · obtain ⟨-, -, -, rfl⟩ := followPointer_eq_ok_iff.1 hw
      exact le_trans (Nat.le_add_right _ 2) (ih hn)

/-- The content of a label has no octet of a pointer. -/
theorem lt_192_of_labelOK {ci : Bool} {a len i : Nat} (h : labelOK ci (slice m a len) = true) {b : Byte}
    (hb : m[i]? = some b) (hi : a ≤ i) (hi' : i < a + len) : b.toNat < 192 := by
  obtain ⟨j, rfl⟩ := Nat.exists_eq_add_of_le hi
  have hmem : b ∈ slice m a len := by
    refine List.mem_iff_getElem?.2 ⟨j, ?_⟩
    rw [slice, List.getElem?_take_of_lt (by omega), List.getElem?_drop, hb]
  have := (labelByte_iff b).1 (((labelOK_iff ci _).1 h).1 b hmem)
  omega

/-- After the jump (R188): the walk from before the pointer at `at_` ends before it, since no label holds the pointer's octet
and a second pointer is an error. So it stays below the pointer's end. -/
theorem nameLoop_agree_of_jumped {at_ e : Nat} {b : Byte} (ha : AgreeBelow e m m') (hat : m[at_]? = some b)
    (hb : 192 ≤ b.toNat) (he : at_ < e) (hj : w.jumped = true) (hp : w.pos ≤ at_) (h : nameLoop p n m w = .ok name) :
    nameLoop p n m' w = .ok name := by
  induction n generalizing w with
  | zero => cases h
  | succ n ih =>
    obtain ⟨c, hc, hcase⟩ := nameLoop_eq_ok_iff.1 h
    refine nameLoop_eq_ok_iff.2 ⟨c, by rw [ha.getElem?_eq (by omega), hc], ?_⟩
    rcases hcase with hterm | ⟨hlen, w', hw, hn⟩ | ⟨-, b2, -, w', hw, hn⟩
    · exact .inl hterm
    · obtain ⟨-, hg, -, rfl⟩ := readLabel_eq_ok_iff.1 hw
      have hne : w.pos ≠ at_ := by
        rintro rfl
        cases hat.symm.trans hc
        omega
      have hend : w.pos + c.toNat + 1 ≤ at_ := by
        by_contra hlt
        exact absurd (lt_192_of_labelOK hg hat (by omega) (by omega)) (Nat.not_lt.2 hb)
      have hend' : w.pos + 1 + c.toNat ≤ e := by omega
      have hrest := ih (w := appended w _ _) hj (by simp only [appended]; omega) hn
      exact .inr (.inl ⟨hlen, _, by rw [ha.readLabel_eq hend', hw], hrest⟩)
    · exact absurd hj (by simp [(followPointer_eq_ok_iff.1 hw).1])

/-- Before the jump: what the walk has passed over is what it counts, so it stays below the name's end. -/
theorem nameLoop_agree (ha : AgreeBelow (w.o + name.consumed) m m') (hj : w.jumped = false) (hp : w.pos = w.o + w.fwd)
    (h : nameLoop p n m w = .ok name) : nameLoop p n m' w = .ok name := by
  induction n generalizing w with
  | zero => cases h
  | succ n ih =>
    obtain ⟨c, hc, hcase⟩ := nameLoop_eq_ok_iff.1 h
    rcases hcase with ⟨h0, rfl⟩ | ⟨hlen, w', hw, hn⟩ | ⟨h3, b2, hb2, w', hw, hn⟩
    · have hcons : w.terminate.name.consumed = w.fwd + 1 := by simp [Walk.name, Walk.terminate, hj]
      exact nameLoop_eq_ok_iff.2 ⟨c, by rw [ha.getElem?_eq (by omega), hc], .inl ⟨h0, rfl⟩⟩
    · obtain ⟨-, -, -, rfl⟩ := readLabel_eq_ok_iff.1 hw
      have hfwd := fwd_le_consumed hn
      rw [appended_fwd_of_not_jumped hj] at hfwd
      have hrest := ih (w := appended w _ _) ha hj (by rw [appended_fwd_of_not_jumped hj]; simp only [appended]; omega) hn
      exact nameLoop_eq_ok_iff.2 ⟨c, by rw [ha.getElem?_eq (by omega), hc], .inr (.inl ⟨hlen, _,
        by rw [ha.readLabel_eq (by omega), hw], hrest⟩)⟩
    · obtain ⟨-, ht, -, rfl⟩ := followPointer_eq_ok_iff.1 hw
      have hfwd : w.fwd + 2 ≤ name.consumed := fwd_le_consumed hn
      have htarget := (ht.trans_le (Nat.le_add_right _ _)).trans_le ha.le_right
      have hrest := nameLoop_agree_of_jumped (w := followed w _) ha hc h3 (by omega) rfl (by simp only [followed]; omega) hn
      exact nameLoop_eq_ok_iff.2 ⟨c, by rw [ha.getElem?_eq (by omega), hc], .inr (.inr ⟨h3, b2,
        by rw [ha.getElem?_eq (by omega), hb2], _, followPointer_eq_ok_iff.2 ⟨hj, ht, htarget, rfl⟩, hrest⟩)⟩

theorem decodeName_agree {o : Nat} (ha : AgreeBelow (o + name.consumed) m m') (h : decodeName p m o = .ok name) :
    decodeName p m' o = .ok name := nameLoop_agree ha rfl rfl h

end

/-! ## Questions, records and sections (R201, R211, R231) -/

/-- A decode that returns consumes a byte at least, and looks at nothing after the bytes it consumes. -/
def LooksAtWhatItConsumes {α : Type} (dec : ItemDecode α) : Prop :=
  ∀ {m m' : List Byte} {o k : Nat} {x : α}, dec m o = .ok (x, k) →
    0 < k ∧ (AgreeBelow (o + k) m m' → dec m' o = .ok (x, k))

theorem questionFields_consumed {m : List Byte} {o k : Nat} {name : Name} {q : Question}
    (h : questionFields m o name = .ok (q, k)) : k = name.consumed + 4 := by
  obtain ⟨qtype, -, h⟩ := bind_eq_ok_iff.1 h
  obtain ⟨qclass, -, h⟩ := bind_eq_ok_iff.1 h
  split_ifs at h
  cases h
  rfl

theorem decodeQuestion_looks (p : Config.Params) : LooksAtWhatItConsumes (decodeQuestion p) := by
  intro m m' o k q h
  obtain ⟨name, hn, hq⟩ := bind_eq_ok_iff.1 h
  obtain rfl := questionFields_consumed hq
  refine ⟨Nat.succ_pos _, fun ha => ?_⟩
  rw [decodeQuestion_of_name (decodeName_agree (ha.mono (by omega)) hn), ← hq, questionFields,
    ha.memRead_eq _ (by omega), ha.memRead_eq _ (by omega), questionFields]

/-- What a record's fields that return have read (R211). -/
theorem recordFields_reads {m : List Byte} {o k : Nat} {name : Name} {r : Record}
    (h : recordFields m o name = .ok (r, k)) :
    ∃ rdlength, memRead m (o + name.consumed + 8) 2 .rrRdlength = .ok rdlength ∧ k = name.consumed + 10 + rdlength := by
  obtain ⟨rtype, -, h⟩ := bind_eq_ok_iff.1 h
  obtain ⟨rclass, -, h⟩ := bind_eq_ok_iff.1 h
  obtain ⟨ttl, -, h⟩ := bind_eq_ok_iff.1 h
  split_ifs at h
  obtain ⟨rdlength, hr, h⟩ := bind_eq_ok_iff.1 h
  obtain ⟨rdata, -, h⟩ := bind_eq_ok_iff.1 h
  split_ifs at h
  cases h
  exact ⟨rdlength, hr, rfl⟩

theorem decodeRecord_looks (p : Config.Params) : LooksAtWhatItConsumes (decodeRecord p) := by
  intro m m' o k r h
  obtain ⟨name, hn, hr⟩ := bind_eq_ok_iff.1 h
  obtain ⟨rdlength, hlen, rfl⟩ := recordFields_reads hr
  refine ⟨by omega, fun ha => ?_⟩
  have hspan := ha.memSpan_eq (a := o + name.consumed + 10) (n := rdlength) .inconsistentFields .rrRdata (by omega)
  rw [decodeRecord_of_name (decodeName_agree (ha.mono (by omega)) hn), ← hr, recordFields,
    ha.memRead_eq _ (by omega), ha.memRead_eq _ (by omega), ha.memRead_eq _ (by omega), ha.memRead_eq _ (by omega),
    recordFields, hlen]
  simp only [bind, Except.bind, hspan]

theorem itemsAt_agree {α : Type} {dec : ItemDecode α} (hdec : LooksAtWhatItConsumes dec) {m m' : List Byte} {off e : Nat}
    {xs : List α} (ha : AgreeBelow e m m') (h : ItemsAt dec m off xs e) : ItemsAt dec m' off xs e := by
  induction xs generalizing off with
  | nil => exact h
  | cons x xs ih =>
    obtain ⟨-, k, hx, hr⟩ := h
    obtain ⟨hk, hx'⟩ := hdec hx
    have hle : off + k ≤ e := hr.le
    exact ⟨(Nat.lt_add_of_pos_right hk).trans_le (hle.trans ha.le_right), k, hx' (ha.mono hle), ih hr⟩

/-- Settles O48: each section ends at or before the message's end, and looks at nothing after its own. -/
theorem trailingBytesAreNotLookedAt : Obligations.TrailingBytesAreNotLookedAt := by
  intro p m m' msg e h hl ht
  have ha : AgreeBelow e m m' := ⟨hl, ht⟩
  obtain ⟨hh, o1, o2, o3, ⟨hql, hq⟩, ⟨hal, hans⟩, ⟨hul, hauth⟩, hdl, hadds⟩ := decodeMessage_eq_ok_iff.1 h
  have h3 : o3 ≤ e := hadds.le
  have h2 : o2 ≤ e := hauth.le.trans h3
  have h1 : o1 ≤ e := hans.le.trans h2
  refine decodeMessage_eq_ok_iff.2 ⟨(ha.headerOfMessage_eq (hq.le.trans h1)).trans hh, o1, o2, o3, ⟨hql, ?_⟩, ⟨hal, ?_⟩,
    ⟨hul, ?_⟩, hdl, itemsAt_agree (decodeRecord_looks p) ha hadds⟩
  · exact itemsAt_agree (decodeQuestion_looks p) (ha.mono h1) hq
  · exact itemsAt_agree (decodeRecord_looks p) (ha.mono h2) hans
  · exact itemsAt_agree (decodeRecord_looks p) (ha.mono h3) hauth

end Sys2Proof.Machine.MessageProofs

/-! SUPPORT. Proofs that decoder and encoder agree (30_encoding.md Part A and B.2), for every AW that leaves room for OPC. -/

namespace Sys2Proof.Machine.RoundTripProofs

open Sys2Proof.Machine.Laws Sys2Proof.Machine.StateProofs Sys2Proof.Machine.EncodingProofs

/-! ## Command words (R90) -/

theorem commandWord_toNat (k : BitVec 4) {off : Nat} (ho : off < 2 ^ 28) :
    (commandWord k off).toNat = k.toNat * 2 ^ 28 + off := by
  rw [commandWord, BitVec.toNat_append, BitVec.toNat_ofNat, Nat.mod_eq_of_lt ho, Nat.shiftLeft_eq, Nat.mul_comm,
    ← Nat.two_pow_add_eq_or_of_lt ho]

section
variable {p : Config.Params} (hp : p.aw ≤ 28)
include hp

theorem lt_two_pow_28 {off : Nat} (ho : off < 2 ^ p.aw) : off < 2 ^ 28 :=
  ho.trans_le (Nat.pow_le_pow_right (by decide) hp)

theorem cmdOpc_commandWord {k : BitVec 4} {off : Nat} (ho : off < 2 ^ p.aw) : cmdOpc (commandWord k off) = k := by
  have := lt_two_pow_28 hp ho
  rw [← BitVec.toNat_inj, cmdOpc_toNat, commandWord_toNat k this]
  omega

theorem commandWord_mod (k : BitVec 4) {off : Nat} (ho : off < 2 ^ p.aw) : (commandWord k off).toNat % 2 ^ 28 = off := by
  have := lt_two_pow_28 hp ho
  rw [commandWord_toNat k this]
  omega

theorem cmdRsv_commandWord (k : BitVec 4) {off : Nat} (ho : off < 2 ^ p.aw) : cmdRsv p (commandWord k off) = 0 := by
  rw [cmdRsv, commandWord_mod hp k ho, Nat.div_eq_of_lt ho]

theorem cmdOffset_commandWord (k : BitVec 4) {off : Nat} (ho : off < 2 ^ p.aw) : cmdOffset p (commandWord k off) = off := by
  rw [cmdOffset, commandWord_mod hp k ho, Nat.mod_eq_of_lt ho]

theorem formatO_commandWord (k : BitVec 4) {off : Nat} (ho : off < 2 ^ p.aw) (row : Nat → Instr) :
    formatO p (commandWord k off) row = some (row off) :=
  formatO_eq_some.2 ⟨cmdRsv_commandWord hp k ho, congrArg row (cmdOffset_commandWord hp k ho)⟩

theorem formatZ_commandWord (k : BitVec 4) (row : Instr) : formatZ p (commandWord k 0) row = some row := by
  have ho : 0 < 2 ^ p.aw := Nat.two_pow_pos _
  exact formatZ_eq_some.2 ⟨⟨cmdRsv_commandWord hp k ho, cmdOffset_commandWord hp k ho⟩, rfl⟩

theorem decode_encode_command {i : Instr} (hi : i.isCommand = true) (hw : i.wellFormed p = true) :
    decode p (encode i) = some i := by
  cases i
  case rd8 off | rd16 off | rd32 off | name off | ques off | rr off =>
    have ho : off < 2 ^ p.aw := of_decide_eq_true hw
    rw [encode, decode, decodeCommand, cmdOpc_commandWord hp ho]
    exact formatO_commandWord hp _ ho _
  case hdr | msg =>
    rw [encode, decode, decodeCommand, cmdOpc_commandWord hp (Nat.two_pow_pos _)]
    exact formatZ_commandWord hp _ _
  case octTerm | octLabel | octRsv01 | octRsv10 | octPtr => cases hi

end

/-- A word with RSV = 0 is the word of its OPC and its OFFSET. -/
theorem commandWord_of_fields {p : Config.Params} {w : Word} (k : BitVec 4) (hk : (cmdOpc w).toNat = k.toNat)
    (hr : cmdRsv p w = 0) : commandWord k (cmdOffset p w) = w := by
  have hoff : cmdOffset p w = w.toNat % 2 ^ 28 := by
    have := (Nat.div_eq_zero_iff_lt (Nat.two_pow_pos _)).1 hr
    rw [cmdOffset, Nat.mod_eq_of_lt this]
  rw [cmdOpc_toNat] at hk
  rw [hoff, ← BitVec.toNat_inj, commandWord_toNat k (Nat.mod_lt _ (by decide))]
  omega

theorem cmdOffset_fits (p : Config.Params) (w : Word) : offsetFits p (cmdOffset p w) = true :=
  decide_eq_true (Nat.mod_lt _ (Nat.two_pow_pos _))

theorem encode_of_decodeCommand {p : Config.Params} {w : Word} {i : Instr} (h : decodeCommand p w = some i) :
    i.wellFormed p = true ∧ encode i = .command w := by
  unfold decodeCommand at h
  split at h
  case h_4 hk | h_8 hk =>
    obtain ⟨⟨hr, ho⟩, rfl⟩ := formatZ_eq_some.1 h
    refine ⟨rfl, congrArg Code.command ?_⟩
    rw [← ho]
    exact commandWord_of_fields _ hk hr
  case h_9 => cases h
  case h_1 hk | h_2 hk | h_3 hk | h_5 hk | h_6 hk | h_7 hk =>
    obtain ⟨hr, rfl⟩ := formatO_eq_some.1 h
    exact ⟨cmdOffset_fits p w, congrArg Code.command (commandWord_of_fields _ hk hr)⟩

/-- The words of the opcode map: the codes of the well-formed commands, each with its one meaning. -/
theorem decodeCommand_eq_some_iff {p : Config.Params} (hp : p.aw ≤ 28) {w : Word} {i : Instr} :
    decodeCommand p w = some i ↔ i.isCommand = true ∧ i.wellFormed p = true ∧ encode i = .command w := by
  constructor
  · intro h
    exact ⟨isCommand_of_decodeCommand h, encode_of_decodeCommand h⟩
  · rintro ⟨hi, hw, he⟩
    have := decode_encode_command hp hi hw
    rwa [he] at this

/-! ## Octets (R99, R103) -/

theorem octetOf_toNat (top : BitVec 2) (low : BitVec 6) : (octetOf top low).toNat = top.toNat * 64 + low.toNat := by
  rw [octetOf, BitVec.toNat_append, Nat.shiftLeft_eq, Nat.mul_comm, ← Nat.two_pow_add_eq_or_of_lt low.isLt, Nat.mul_comm]

theorem octetTop_octetOf (top : BitVec 2) (low : BitVec 6) : octetTop (octetOf top low) = top := by
  rw [← BitVec.toNat_inj, octetTop_toNat, octetOf_toNat]
  omega

theorem octetLow_octetOf (top : BitVec 2) (low : BitVec 6) : octetLow (octetOf top low) = low := by
  rw [← BitVec.toNat_inj, octetLow_toNat, octetOf_toNat]
  omega

theorem octetOf_top_low (b : Byte) : octetOf (octetTop b) (octetLow b) = b := by
  rw [← BitVec.toNat_inj, octetOf_toNat, octetTop_toNat, octetLow_toNat]
  omega

theorem octetOf_ne_zero {top : BitVec 2} {low : BitVec 6} (h : top ≠ 0 ∨ low ≠ 0) : octetOf top low ≠ 0 := by
  rintro he
  have htop := octetTop_octetOf top low
  have hlow := octetLow_octetOf top low
  rw [he] at htop hlow
  exact h.elim (absurd htop.symm) (absurd hlow.symm)

theorem pointerTarget_octets (target : BitVec 14) :
    pointerTarget (octetOf 3 (target.extractLsb' 8 6)) (target.extractLsb' 0 8) = target := by
  rw [← BitVec.toNat_inj, pointerTarget_toNat, octetOf_toNat, BitVec.extractLsb'_toNat, BitVec.extractLsb'_toNat,
    Nat.shiftRight_eq_div_pow]
  have := target.isLt
  simp only [BitVec.ofNat_eq_ofNat, BitVec.toNat_ofNat, Nat.shiftRight_zero]
  omega

theorem pointerTarget_high (b b2 : Byte) : (pointerTarget b b2).extractLsb' 8 6 = octetLow b := by
  rw [← BitVec.toNat_inj, BitVec.extractLsb'_toNat, pointerTarget_toNat, octetLow_toNat, Nat.shiftRight_eq_div_pow]
  omega

theorem pointerTarget_low (b b2 : Byte) : (pointerTarget b b2).extractLsb' 0 8 = b2 := by
  rw [← BitVec.toNat_inj, BitVec.extractLsb'_toNat, pointerTarget_toNat, Nat.shiftRight_zero]
  omega

theorem decode_encode_octets (p : Config.Params) {i : Instr} (hi : i.isCommand = false) (hw : i.wellFormed p = true) :
    decode p (encode i) = some i := by
  cases i
  case octTerm => rfl
  case octLabel len =>
    have hne : octetOf 0 len ≠ 0 := octetOf_ne_zero (.inr (by simpa [Instr.wellFormed] using hw))
    simp only [encode, decode, decodeOctets, if_neg hne, octetTop_octetOf, octetLow_octetOf]
    rfl
  case octRsv01 any =>
    have hne : octetOf 1 any ≠ 0 := octetOf_ne_zero (.inl (by decide))
    simp only [encode, decode, decodeOctets, if_neg hne, octetTop_octetOf, octetLow_octetOf]
    rfl
  case octRsv10 any =>
    have hne : octetOf 2 any ≠ 0 := octetOf_ne_zero (.inl (by decide))
    simp only [encode, decode, decodeOctets, if_neg hne, octetTop_octetOf, octetLow_octetOf]
    rfl
  case octPtr target =>
    have hne : octetOf 3 (target.extractLsb' 8 6) ≠ 0 := octetOf_ne_zero (.inl (by decide))
    simp only [encode, decode, decodeOctets, if_neg hne, octetTop_octetOf, pointerTarget_octets]
    rfl
  case rd8 | rd16 | rd32 | hdr | name | ques | rr | msg => cases hi

theorem encode_of_decodeOctets (p : Config.Params) {bs rest : List Byte} {i : Instr} (h : decodeOctets bs = some (i, rest)) :
    i.wellFormed p = true ∧ i.isCommand = false ∧ ∃ os, encode i = .octets os ∧ bs = os ++ rest := by
  cases bs with
  | nil => cases h
  | cons b bs =>
    have hb {top : BitVec 2} (ht : (octetTop b).toNat = top.toNat) : b = octetOf top (octetLow b) := by
      rw [← BitVec.toNat_inj.1 ht, octetOf_top_low]
    simp only [decodeOctets] at h
    split_ifs at h with h0
    · cases h
      exact ⟨rfl, rfl, [0], rfl, by rw [h0]; rfl⟩
    split at h
    case h_1 ht =>
      cases h
      have hlow : octetLow b ≠ 0 := fun e => h0 ((hb (top := 0) ht).trans (by rw [e]; rfl))
      exact ⟨by simpa [Instr.wellFormed] using hlow, rfl, _, rfl, congrArg (· :: _) (hb (top := 0) ht)⟩
    case h_2 ht =>
      cases h
      exact ⟨rfl, rfl, _, rfl, congrArg (· :: _) (hb (top := 1) ht)⟩
    case h_3 ht =>
      cases h
      exact ⟨rfl, rfl, _, rfl, congrArg (· :: _) (hb (top := 2) ht)⟩
    case h_4 h0 h1 h2 =>
      have ht : (octetTop b).toNat = 3 := by
        have := (octetTop b).isLt
        simp only [imp_false] at h0 h1 h2
        omega
      cases bs with
      | nil => cases h
      | cons b2 bs =>
        cases h
        refine ⟨rfl, rfl, _, rfl, ?_⟩
        rw [pointerTarget_high, pointerTarget_low, ← hb (top := 3) ht]
        rfl

/-! ## The statements -/

/-- Settles O3: commands by the fields of the word, octets by their top two bits and low six. -/
theorem decodeAndEncodeAgree : Obligations.DecodeAndEncodeAgree := by
  refine ⟨rfl, fun p i hp hw => ?_, fun p w i hp h => ?_, fun p bs rest i h => encode_of_decodeOctets p h⟩
  · cases hi : i.isCommand with
    | true => exact decode_encode_command hp hi hw
    | false => exact decode_encode_octets p hi hw
  · obtain ⟨hi, hw, he⟩ := (decodeCommand_eq_some_iff hp).1 h
    exact ⟨hw, hi, he⟩

/-- Format O (R91, R92): the word of an OPC and an OFFSET, by match and mask. -/
theorem commandWord_eq_iff_mask (k : BitVec 4) (off : Nat) (w : Word) :
    (offsetFits Config.hw off = true ∧ Code.command (commandWord k off) = .command w) ↔
      w &&& 0xFF000000 = commandWord k 0 ∧ off = w.toNat % 2 ^ 24 := by
  have hfit : offsetFits Config.hw off = true ↔ off < 2 ^ 24 := decide_eq_true_iff
  have hk := k.isLt
  rw [hfit, Code.command.injEq, ← BitVec.toNat_inj, ← BitVec.toNat_inj, and_maskO_toNat, commandWord_zero_toNat]
  constructor
  · rintro ⟨ho, he⟩
    rw [commandWord_toNat k (by omega)] at he
    omega
  · rintro ⟨he, ho⟩
    rw [commandWord_toNat k (by omega)]
    omega

theorem command_eq_iff_mask (w v : Word) : Code.command v = .command w ↔ w &&& 0xFFFFFFFF = v := by
  have hall : w &&& 0xFFFFFFFF = w := BitVec.and_allOnes
  rw [hall, Code.command.injEq, eq_comm]

/-- Settles O4: a word is a row's command where it is the code of it (O3), and the code is the row's match and mask. -/
theorem commandWordsDecodeByMatchAndMask : Obligations.CommandWordsDecodeByMatchAndMask := by
  intro w off
  have hdec (i : Instr) := decodeCommand_eq_some_iff (p := Config.hw) (by decide) (w := w) (i := i)
  simp only [hdec, Instr.isCommand, Instr.wellFormed, encode, true_and]
  exact ⟨commandWord_eq_iff_mask 1 off w, commandWord_eq_iff_mask 2 off w, commandWord_eq_iff_mask 3 off w,
    command_eq_iff_mask w _, commandWord_eq_iff_mask 5 off w, commandWord_eq_iff_mask 6 off w,
    commandWord_eq_iff_mask 7 off w, command_eq_iff_mask w _⟩

/-- Settles O2: each word and octet string is decoded by evaluation. -/
theorem writtenWordsDecode : Obligations.WrittenWordsDecode := by
  unfold Obligations.WrittenWordsDecode
  decide

end Sys2Proof.Machine.RoundTripProofs

/-! SUPPORT. What a host move can do, said once, and the statements about the host's moves: LOAD, the writes of a byte and of
BUF_LEN, the reset (10_state.md R25, R40, R41, 70_reset_and_hazards.md R300), and what they leave of BUF. -/

namespace Sys2Proof.Machine.HostProofs

open Sys2Proof.Machine.Laws Sys2Proof.Machine.StateProofs

/-- All that a host move can do where it does not stop. -/
inductive HostDid (s : State) : HostMove → State → Prop
  | dropped {mv : HostMove} (hb : s.status.busy = true) (hm : IsHostWrite mv) : HostDid s mv s
  | loaded {bytes : List Byte} (hb : s.status.busy = false) (hl : bytes.length ≤ s.params.bufMax) :
      HostDid s (.load bytes) (s.load bytes)
  | wroteByte {a : Nat} {b : Byte} (hb : s.status.busy = false) (ha : a < s.params.bufMax) :
      HostDid s (.writeByte a b) (s.writeByte a b)
  | wroteLen {n : Nat} (hb : s.status.busy = false) (hn : n ≤ s.params.bufMax) : HostDid s (.writeLen n) (s.writeLen n)
  | started {w : Word} (hb : s.status.busy = false) : HostDid s (.start w) (s.accept w)
  | saw {r : Reg} {v : HostValue} (hr : s.readReg r = some v) : HostDid s (.read r) { s with hostSaw := some v }
  | wasReset : HostDid s .reset s.hardReset
  | waited : HostDid s .await s
  | ticked {t : State} (ht : engineTick s = .next t) : HostDid s .tick t

theorem hostTurn_load_of_idle {s : State} {bytes : List Byte} (hb : s.status.busy = false) :
    hostTurn (.load bytes) s =
      if bytes.length > s.params.bufMax then .refused (.aboveBufMax bytes.length) else .next (s.load bytes) := by
  simp [hostTurn, hostLoad, hb]

theorem hostTurn_writeByte_of_idle {s : State} {a : Nat} {b : Byte} (hb : s.status.busy = false) :
    hostTurn (.writeByte a b) s = if a ≥ s.params.bufMax then .fault (.noSuchByte a) else .next (s.writeByte a b) := by
  simp [hostTurn, hostWriteByte, hb]

theorem hostTurn_writeLen_of_idle {s : State} {n : Nat} (hb : s.status.busy = false) :
    hostTurn (.writeLen n) s = if n > s.params.bufMax then .refused (.aboveBufMax n) else .next (s.writeLen n) := by
  simp [hostTurn, hostWriteLen, hb]

theorem hostTurn_start_of_idle {s : State} {w : Word} (hb : s.status.busy = false) :
    hostTurn (.start w) s = .next (s.accept w) := by
  simp [hostTurn, hostStart, hb]

theorem hostTurn_read_of_some {s : State} {r : Reg} {v : HostValue} (hv : s.readReg r = some v) :
    hostTurn (.read r) s = .next { s with hostSaw := some v } := by
  simp [hostTurn, hostRead, hv]

theorem hostTurn_read_of_none {s : State} {r : Reg} (hv : s.readReg r = none) :
    hostTurn (.read r) s = .refused (.holdsNoValue r) := by
  simp [hostTurn, hostRead, hv]

/-- Where a move stops, it is one to which the spec gives no meaning (log 4, log 9), or the engine's turn stops. -/
def HostStops (s : State) (mv : HostMove) : Prop :=
  (∃ r, mv = .read r ∧ s.readReg r = none) ∨ (∃ bytes, mv = .load bytes ∧ s.params.bufMax < bytes.length) ∨
  (∃ n, mv = .writeLen n ∧ s.params.bufMax < n) ∨ (∃ a b, mv = .writeByte a b ∧ s.params.bufMax ≤ a) ∨
  (mv = .tick ∧ ∀ t, engineTick s ≠ .next t)

theorem hostTurn_cases (mv : HostMove) (s : State) :
    (∃ t, hostTurn mv s = .next t ∧ HostDid s mv t) ∨ (HostStops s mv ∧ ∀ t, hostTurn mv s ≠ .next t) := by
  by_cases hdrop : s.status.busy = true ∧ IsHostWrite mv
  · exact .inl ⟨s, hostTurn_of_busy hdrop.1 hdrop.2, .dropped hdrop.1 hdrop.2⟩
  have hidle (hm : IsHostWrite mv) : s.status.busy = false := Bool.eq_false_iff.2 fun hb => hdrop ⟨hb, hm⟩
  cases mv with
  | load bytes =>
    have hb := hidle (.inr (.inl ⟨_, rfl⟩))
    rw [hostTurn_load_of_idle hb]
    split_ifs with hl
    · exact .inr ⟨.inr (.inl ⟨_, rfl, hl⟩), fun t h => by cases h⟩
    · exact .inl ⟨_, rfl, .loaded hb (Nat.not_lt.1 hl)⟩
  | writeByte a b =>
    have hb := hidle (.inr (.inr (.inl ⟨_, _, rfl⟩)))
    rw [hostTurn_writeByte_of_idle hb]
    split_ifs with ha
    · exact .inr ⟨.inr (.inr (.inr (.inl ⟨_, _, rfl, ha⟩))), fun t h => by cases h⟩
    · exact .inl ⟨_, rfl, .wroteByte hb (Nat.not_le.1 ha)⟩
  | writeLen n =>
    have hb := hidle (.inr (.inr (.inr ⟨_, rfl⟩)))
    rw [hostTurn_writeLen_of_idle hb]
    split_ifs with hn
    · exact .inr ⟨.inr (.inr (.inl ⟨_, rfl, hn⟩)), fun t h => by cases h⟩
    · exact .inl ⟨_, rfl, .wroteLen hb (Nat.not_lt.1 hn)⟩
  | start w =>
    have hb := hidle (.inl ⟨_, rfl⟩)
    exact .inl ⟨_, hostTurn_start_of_idle hb, .started hb⟩
  | read r =>
    cases hv : s.readReg r with
    | none =>
      rw [hostTurn_read_of_none hv]
      exact .inr ⟨.inl ⟨r, rfl, hv⟩, fun t h => by cases h⟩
    | some v => exact .inl ⟨_, hostTurn_read_of_some hv, .saw hv⟩
  | reset => exact .inl ⟨_, rfl, .wasReset⟩
  | await => exact .inl ⟨_, rfl, .waited⟩
  | tick =>
    by_cases ht : ∃ t, engineTick s = .next t
    · obtain ⟨t, ht⟩ := ht
      exact .inl ⟨t, ht, .ticked ht⟩
    · exact .inr ⟨.inr (.inr (.inr (.inr ⟨rfl, fun t h => ht ⟨t, h⟩⟩))), fun t h => ht ⟨t, h⟩⟩

theorem hostTurn_did {mv : HostMove} {s t : State} (h : hostTurn mv s = .next t) : HostDid s mv t := by
  obtain ⟨t', ht, hd⟩ | ⟨-, hno⟩ := hostTurn_cases mv s
  · cases ht.symm.trans h
    exact hd
  · exact absurd h (hno t)

/-- All that a step can do: the engine's turn, or a host move's. -/
theorem step_did {s t : State} (h : step s = .next t) :
    (s.EngineMoves ∧ engineTurn s = .next t) ∨ ∃ mv rest, s.host = mv :: rest ∧ HostDid (s.withHost rest) mv t := by
  obtain ⟨hm, he⟩ | ⟨mv, rest, hh, -, he⟩ := step_turn s
  · exact .inl ⟨hm, he.symm.trans h⟩
  · exact .inr ⟨mv, rest, hh, hostTurn_did (he.symm.trans h)⟩

/-! ## The bytes of BUF after a write -/

theorem byteAt_of_fields {s t : State} (hb : t.buf = s.buf) (hr : t.resets = s.resets) (a : Nat) : t.byteAt a = s.byteAt a := by
  rw [State.byteAt, hb, hr, State.byteAt]

theorem byteAt_load_inside (s : State) {bytes : List Byte} {i : Nat} (h : i < bytes.length) :
    (s.load bytes).byteAt i = bytes[i] := by
  have := find_putAll_inside (a := 0) bytes s.buf h
  rw [Nat.zero_add] at this
  simp [State.byteAt, this]

theorem byteAt_load_above (s : State) {bytes : List Byte} {a : Nat} (h : bytes.length ≤ a) :
    (s.load bytes).byteAt a = s.byteAt a := by
  rw [State.byteAt, load_buf, load_resets, find_putAll_above bytes s.buf (by rwa [Nat.zero_add]), State.byteAt]

theorem message_load (s : State) (bytes : List Byte) : (s.load bytes).message = bytes := by
  refine List.ext_getElem (message_length _) fun i _ hi => ?_
  rw [message_getElem, byteAt_load_inside s hi]

theorem byteAt_writeByte_same (s : State) (a : Nat) (b : Byte) : (s.writeByte a b).byteAt a = b := by
  simp [State.byteAt, find_put_same]

theorem byteAt_writeByte_other (s : State) {a a' : Nat} (b : Byte) (h : a' ≠ a) :
    (s.writeByte a b).byteAt a' = s.byteAt a' := by
  simp [State.byteAt, find_put_other b s.buf h]

/-! ## The statements -/

/-- Settles O7: a reset move is the host's turn, whatever the engine is doing. -/
theorem hardResetAbandonsAndRestores : Obligations.HardResetAbandonsAndRestores := by
  intro s rest hh
  rw [step_host hh nofun]
  rfl

/-- Settles O9: a LOAD that fits writes the bytes below its length and no others. -/
theorem loadMakesTheMessage : Obligations.LoadMakesTheMessage := by
  intro s bytes rest hh hb hl
  refine ⟨(s.withHost rest).load bytes, ?_, rfl, message_load _ _, fun a ha => byteAt_load_above (s.withHost rest) ha,
    rfl, rfl, rfl, rfl, rfl, rfl, rfl, rfl, rfl⟩
  rw [step_host hh nofun, hostTurn_load_of_idle (s := s.withHost rest) hb]
  exact if_neg (Nat.not_lt.2 hl)

/-- Settles O58: one byte, or the length, by the range test of each write. -/
theorem hostWritesAByteOrTheLength : Obligations.HostWritesAByteOrTheLength := by
  constructor
  · intro s a b rest hh hb
    rw [step_host hh nofun, hostTurn_writeByte_of_idle (s := s.withHost rest) hb]
    refine ⟨fun ha => ⟨(s.withHost rest).writeByte a b, if_neg (Nat.not_le.2 ha), byteAt_writeByte_same _ _ _,
      fun a' h => byteAt_writeByte_other (s.withHost rest) b h, rfl⟩, fun ha => if_pos ha⟩
  · intro s n rest hh hb
    rw [step_host hh nofun, hostTurn_writeLen_of_idle (s := s.withHost rest) hb]
    exact ⟨fun hn => if_neg (Nat.not_lt.2 hn), fun hn => if_pos hn⟩

/-- A turn of the engine changes no byte of BUF. -/
theorem Moved.byteAt {s t : State} (h : Moved s t) (a : Nat) : t.byteAt a = s.byteAt a := by
  obtain ⟨-, hbuf, -, -, -, -, hres⟩ := h.keeps
  exact byteAt_of_fields hbuf hres a

/-- Settles O18: of all that a step can do, only these write `buf` or `resets`. -/
theorem onlyTheIdleHostChangesTheBuffer : Obligations.OnlyTheIdleHostChangesTheBuffer := by
  rintro s t h ⟨a, ha⟩
  obtain ⟨-, he⟩ | ⟨mv, rest, hh, hd⟩ := step_did h
  · exact absurd (Moved.byteAt (moved_engineTurn he) a) ha
  cases hd with
  | wasReset => exact .inl ⟨rest, hh⟩
  | loaded hb _ => exact .inr ⟨hb, .inl ⟨_, rest, hh⟩⟩
  | wroteByte hb _ => exact .inr ⟨hb, .inr ⟨_, _, rest, hh⟩⟩
  | ticked ht => exact absurd (Moved.byteAt (moved_engineTick ht) a) ha
  | dropped | wroteLen | started | saw | waited => exact absurd rfl ha

theorem Moved.memoryOK {s t : State} (h : Moved s t) (hs : s.MemoryOK) : t.MemoryOK := by
  obtain ⟨hp, hbuf, hl, -⟩ := h.keeps
  rwa [State.MemoryOK, hp, hbuf, hl]

/-- Settles O51: LOAD and the byte write keep the form, their ranges are tested, and a reset empties BUF. -/
theorem stepKeepsTheBufferCanonical : Obligations.StepKeepsTheBufferCanonical := by
  rintro s t ⟨hwf, hlen⟩ h
  obtain ⟨-, he⟩ | ⟨mv, rest, -, hd⟩ := step_did h
  · exact Moved.memoryOK (moved_engineTurn he) ⟨hwf, hlen⟩
  cases hd with
  | loaded _ hl => exact ⟨wf_putAll 0 _ _ (by rwa [Nat.zero_add]) hwf, hl⟩
  | wroteByte _ ha => exact ⟨wf_put _ _ _ ha hwf, hlen⟩
  | wroteLen _ hn => exact ⟨hwf, hn⟩
  | wasReset => exact ⟨rfl, Nat.zero_le _⟩
  | ticked ht => exact Moved.memoryOK (moved_engineTick ht) ⟨hwf, hlen⟩
  | dropped | started | saw | waited => exact ⟨hwf, hlen⟩

end Sys2Proof.Machine.HostProofs

/-! SUPPORT. The statements about READ and the registers (10_state.md R22 to R35, R42), about `raise` (60_exceptions.md R262),
about the instruction a step runs (10_state.md R41, 42_name.md R173), and about the reads' values (20_memory.md R67,
40_primitive_reader.md R136). -/

namespace Sys2Proof.Machine.RegisterProofs

open Sys2Proof.Machine.Laws Sys2Proof.Machine.StateProofs Sys2Proof.Machine.HostProofs

/-! ## What a READ of a register returns (R42) -/

/-- Everything but the two stores is read as a word. -/
theorem readReg_of_width {s : State} {r : Reg} {n : Nat} (hw : r.width s.params = some n) :
    s.readReg r = (s.regNat r).map (fun v => .word (BitVec.ofNat 32 (v % 2 ^ n))) := by
  cases r
  case lbl | msgStore => cases hw
  all_goals
    simp only [State.readReg, State.regWord, hw]
    cases s.regNat _ <;> rfl

/-- A register that is a projection of something holds a value where that thing is there. -/
theorem isSome_readReg {s : State} {r : Reg} {n : Nat} {α : Type} {o : Option α} {f : α → Nat}
    (hw : r.width s.params = some n) (hv : s.regNat r = o.map f) : (s.readReg r).isSome ↔ o.isSome := by
  rw [readReg_of_width hw, hv, Option.isSome_map, Option.isSome_map]

theorem readReg_zero {s : State} {r : Reg} {n : Nat} (hw : r.width s.params = some n) (hv : s.regNat r = some 0) :
    s.readReg r = some (.word 0) := by
  rw [readReg_of_width hw, hv, Option.map_some, Nat.zero_mod]
  rfl

/-! ## What ControlOK says of a busy block, and of one with a result (R24, R27) -/

theorem status_eq_running {s : State} (h : s.ControlOK) (hb : s.status.busy = true) : s.status = .running := by
  have hl := h.statusLegal
  simp only [Status.legal, Bool.or_eq_true, decide_eq_true_eq] at hl
  rcases hl with ((hs | hs) | hs) | hs
  · rw [hs] at hb; cases hb
  · exact hs
  · rw [hs] at hb; cases hb
  · rw [hs] at hb; cases hb

theorem result_eq_none_of_running {s : State} (h : s.ControlOK) (hs : s.status = .running) : s.result = .none := by
  by_contra hr
  have := h.resultIff.2 hr
  rw [hs] at this
  cases this

theorem errKind_eq_noError {s : State} (h : s.ControlOK) (he : s.status.err = false) : s.errKind = .noError := by
  by_contra hk
  have := h.errIff.2 hk
  rw [he] at this
  cases this

theorem engine_idle_of_not_busy {s : State} (h : s.ControlOK) (hb : s.status.busy = false) : s.engine = .idle := by
  by_contra he
  have := h.busyIff.2 he
  rw [hb] at this
  cases this

theorem engine_idle_of_result {s : State} (h : s.ControlOK) (hr : s.result ≠ .none) : s.engine = .idle :=
  engine_idle_of_not_busy h (by rw [h.resultIff.2 hr]; rfl)

/-- While BUSY = 1 the host reads STATUS 1, RES_TAG 0, a zero error record, and no result (R42). -/
theorem readReg_of_busy {s : State} (h : s.ControlOK) (hb : s.status.busy = true) :
    s.readReg .status = some (.word 1) ∧ s.readReg .resTag = some (.word 0) ∧ s.readReg .errKind = some (.word 0) ∧
    s.readReg .errField = some (.word 0) ∧ s.readReg .errOffset = some (.word 0) ∧ s.readReg .errWidth = some (.word 0) ∧
    ∀ r : Reg, r.isResult = true → s.readReg r = none := by
  have hs : s.status = .running := status_eq_running h hb
  have herr : s.status.err = false := by rw [hs]; rfl
  have hres : s.result = .none := result_eq_none_of_running h hs
  have hkind : s.errKind = .noError := errKind_eq_noError h herr
  obtain ⟨hfield, hoff, hwidth⟩ := h.errZero herr
  refine ⟨?_, readReg_zero rfl ?_, readReg_zero rfl ?_, readReg_zero rfl ?_, readReg_zero rfl ?_, readReg_zero rfl ?_,
    fun r hr => readReg_eq_none hres hr⟩
  · rw [readReg_of_width rfl, State.regNat, hs]
    rfl
  · rw [State.regNat, hres]
    rfl
  · rw [State.regNat, hkind]
    rfl
  · rw [State.regNat, hfield]
    rfl
  · rw [State.regNat, hoff]
  · rw [State.regNat, hwidth]
    rfl

/-- Settles O10: a READ writes `hostSaw` alone; while BUSY = 1 the control invariant fixes what it returns. -/
theorem readChangesNothing : Obligations.ReadChangesNothing := by
  refine ⟨fun s r rest hh => ?_, fun s h hb => readReg_of_busy h hb⟩
  rw [step_host hh nofun]
  exact ⟨fun v hv => hostTurn_read_of_some (s := s.withHost rest) hv,
    fun hv => hostTurn_read_of_none (s := s.withHost rest) hv⟩

/-! ## Which tags cover a register (R27 to R33) -/

section
variable (r : Result)

theorem isSome_value : r.value.isSome ↔ r.tag = 1 := by cases r <;> simp [Result.value, Result.tag]

theorem isSome_consumed : r.consumed.isSome ↔ r.tag = 3 ∨ r.tag = 4 ∨ r.tag = 5 ∨ r.tag = 6 := by
  cases r <;> simp [Result.consumed, Result.tag]

theorem isSome_header : r.header.isSome ↔ r.tag = 2 ∨ r.tag = 6 := by cases r <;> simp [Result.header, Result.tag]

theorem isSome_name : r.name.isSome ↔ r.tag = 3 ∨ r.tag = 4 ∨ r.tag = 5 := by cases r <;> simp [Result.name, Result.tag]

theorem isSome_question : r.question.isSome ↔ r.tag = 4 := by cases r <;> simp [Result.question, Result.tag]

theorem isSome_record : r.record.isSome ↔ r.tag = 5 := by cases r <;> simp [Result.record, Result.tag]

theorem isSome_store : r.store.isSome ↔ r.tag = 6 := by cases r <;> simp [Result.store, Result.tag]

end

/-- Settles O11: each register is a projection of RESULT, whose tag says which projections it has. -/
theorem resultRegistersHoldValuesUnderTheirTags : Obligations.ResultRegistersHoldValuesUnderTheirTags := by
  intro s
  rw [← isSome_value, ← isSome_consumed, ← isSome_header, ← isSome_name, ← isSome_question, ← isSome_record, ← isSome_store]
  simp only [List.forall_mem_cons, List.not_mem_nil, false_imp_iff, implies_true, and_true]
  have hcons : s.regNat .resConsumed = s.result.consumed.map id := by rw [Option.map_id]; rfl
  exact ⟨isSome_readReg rfl rfl, isSome_readReg rfl hcons,
    ⟨isSome_readReg rfl rfl, isSome_readReg rfl rfl, isSome_readReg rfl rfl, isSome_readReg rfl rfl,
      isSome_readReg rfl rfl, isSome_readReg rfl rfl⟩,
    ⟨isSome_readReg rfl rfl, isSome_readReg rfl rfl, by rw [State.readReg, Option.isSome_map]⟩,
    ⟨isSome_readReg rfl rfl, isSome_readReg rfl rfl⟩,
    ⟨isSome_readReg rfl rfl, isSome_readReg rfl rfl, isSome_readReg rfl rfl, isSome_readReg rfl rfl, isSome_readReg rfl rfl⟩,
    by rw [State.readReg, Option.isSome_map]⟩

/-- Settles O14: each field as `raise` writes it or leaves it. -/
theorem raiseWritesTheErrorRecord : Obligations.RaiseWritesTheErrorRecord := by
  intro s k f off w hw
  exact ⟨rfl, rfl, rfl, Nat.mod_eq_of_lt hw, rfl, fun r hr => readReg_eq_none rfl hr, rfl, rfl, rfl, rfl, rfl⟩

/-! ## The instruction a step runs (R41, R173) -/

theorem engineTurn_naming {s : State} {w : Walk} {task : Task} (he : s.engine = .naming w task) :
    engineTurn s = engineTick s := by
  simp [engineTurn, he]

theorem engineTick_readLength {s : State} {w : Walk} {task : Task} (he : s.engine = .naming w task)
    (hst : w.st = .readLength) : engineTick s = readLength w s := by
  simp [engineTick, he, nameTick, hst]

theorem readLength_of_decode {w : Walk} {s : State} {i : Instr} {rest : List Byte}
    (h : decodeOctets (slice s.message w.pos 2) = some (i, rest)) : readLength w s = exec i s := by
  unfold readLength
  cases hs : slice s.message w.pos 2 with
  | nil => rw [hs] at h; cases h
  | cons b bs =>
    rw [hs] at h
    simp only [h]

/-- The octets at the position, by how many of the two are in the message. -/
theorem slice_two (m : List Byte) (a : Nat) : slice m a 2 = m[a]?.toList ++ m[a + 1]?.toList := by
  simp only [slice, List.take_add_one, List.take_zero, List.getElem?_drop, List.nil_append, Nat.add_zero]

theorem readLength_past_end {w : Walk} {s : State} (h : s.bufLen ≤ w.pos) :
    readLength w s = .next (s.raise .tooShort .nameLen w.pos 1) := by
  have hs : slice s.message w.pos 2 = [] := by
    simp [slice_two, Nat.not_lt.2 h, Nat.not_lt.2 (h.trans (Nat.le_succ _))]
  simp only [readLength, hs]
  rfl

theorem readLength_cut_pointer {w : Walk} {s : State} (h : w.pos + 1 = s.bufLen) (hb : 0xC0 ≤ (s.byteAt w.pos).toNat) :
    readLength w s = .next (s.raise .tooShort .namePtr2 (w.pos + 1) 1) := by
  have hs : slice s.message w.pos 2 = [s.byteAt w.pos] := by simp [slice_two, ← h, message_getElem]
  simp only [readLength, hs, decodeOctets_cut_pointer hb]
  rfl

/-- Settles O1: at either grain the engine's turn in ReadLength is `readLength`, and `readLength` runs what the octets give. -/
theorem stepRunsTheDecodedInstruction : Obligations.StepRunsTheDecodedInstruction := by
  refine ⟨fun s i hm he hd => ?_, fun s w task hm he hst => ?_, fun s w task moves hh he hst => ?_⟩
  · rw [step_engine hm, engineTurn_accepted he, runCommand, hd]
  · rw [step_engine hm, engineTurn_naming he, engineTick_readLength he hst]
    exact ⟨fun i rest h => readLength_of_decode h, readLength_past_end, readLength_cut_pointer⟩
  · have ht : hostTurn .tick (s.withHost moves) = readLength w (s.withHost moves) := engineTick_readLength he hst
    rw [step_host hh nofun, ht]
    exact ⟨fun i rest h => readLength_of_decode h, readLength_past_end (s := s.withHost moves),
      readLength_cut_pointer (s := s.withHost moves)⟩

end Sys2Proof.Machine.RegisterProofs

/-! SUPPORT. Proofs about the reads: spans (20_memory.md R67) and the width law (40_primitive_reader.md R136). -/

namespace Sys2Proof.Machine.ReadProofs

open Sys2Proof.Machine.Laws Sys2Proof.Machine.ReaderProofs

theorem slice_getElem? (m : List Byte) (a : Nat) {n i : Nat} (h : i < n) : (slice m a n)[i]? = m[a + i]? := by
  rw [slice, List.getElem?_take_of_lt h, List.getElem?_drop]

/-- Settles O23: the span's only test, and the slice it answers. -/
theorem memSpanIsTheBytesInBounds : Obligations.MemSpanIsTheBytesInBounds := by
  intro m a n k f
  exact ⟨memSpan_out k f, fun h => ⟨slice m a n, memSpan_in k f h, slice_length h, fun i hi => slice_getElem? m a hi⟩⟩

theorem be16_lt (s : State) (a : Nat) : s.be16 a < 2 ^ 16 := by
  have := (s.byteAt a).isLt
  have := (s.byteAt (a + 1)).isLt
  rw [State.be16]
  omega

theorem be32_eq (s : State) (a : Nat) : s.be32 a = 65536 * s.be16 a + s.be16 (a + 2) := by
  rw [State.be32, State.be16, State.be16, Nat.add_assoc a 2 1]
  omega

theorem toNat_ofNat_of_lt {n v : Nat} (h : v < 2 ^ n) : (BitVec.ofNat n v).toNat = v := Nat.mod_eq_of_lt h

/-- Settles O25: the values of R10 are made of one another, and none is cut by the 32 bits. -/
theorem wideReadsAreMadeOfNarrowOnes : Obligations.WideReadsAreMadeOfNarrowOnes := by
  intro s off
  have h16 := be16_lt s off
  have h16' := be16_lt s (off + 2)
  have h32 := be32_eq s off
  have h8 := (s.byteAt off).isLt
  have h8' := (s.byteAt (off + 1)).isLt
  constructor
  · intro h
    refine ⟨_, _, _, exec_rd32_in h, exec_rd16_in (by omega), exec_rd16_in (by omega), ?_⟩
    rw [toNat_ofNat_of_lt (by omega), toNat_ofNat_of_lt (by omega), toNat_ofNat_of_lt (by omega), h32]
  · intro h
    refine ⟨_, _, _, exec_rd16_in h, exec_rd8_in (by omega), exec_rd8_in (by omega), ?_⟩
    rw [toNat_ofNat_of_lt (by omega), toNat_ofNat_of_lt (by omega), toNat_ofNat_of_lt (by omega), State.be16]

end Sys2Proof.Machine.ReadProofs

/-! SUPPORT. A decode's specification: what it returns satisfies, and which errors it raises, at what offsets and of what widths
(60_exceptions.md R265, R266). -/

namespace Sys2Proof.Machine.SpecProofs

open Sys2Proof.Machine.Laws Sys2Proof.Machine.ReadProofs

/-- An error raised with one of the listed kinds and fields, at an offset of at most `lim`, of a width of at most `wid`. -/
def Raises (causes : List (ErrKind × ErrField)) (lim wid : Nat) (e : Stop) : Prop :=
  ∃ k f off w, e = .raise k f off w ∧ (k, f) ∈ causes ∧ off ≤ lim ∧ w ≤ wid

/-- What a decode returns satisfies `Q`, and what it raises is among the listed errors. -/
def Spec {α : Type} (causes : List (ErrKind × ErrField)) (lim wid : Nat) (Q : α → Prop) : Except Stop α → Prop
  | .ok a => Q a
  | .error e => Raises causes lim wid e

section
variable {α β : Type} {causes causes' : List (ErrKind × ErrField)} {lim lim' wid wid' : Nat} {Q : α → Prop} {R : β → Prop}

theorem Raises.mono {e : Stop} (h : Raises causes lim wid e) (hc : causes ⊆ causes') (hl : lim ≤ lim') (hw : wid ≤ wid') :
    Raises causes' lim' wid' e := by
  obtain ⟨k, f, off, w, rfl, hkf, hoff, hwid⟩ := h
  exact ⟨k, f, off, w, rfl, hc hkf, hoff.trans hl, hwid.trans hw⟩

theorem Spec.mono {x : Except Stop α} (h : Spec causes lim wid Q x) (hc : causes ⊆ causes') (hl : lim ≤ lim')
    (hw : wid ≤ wid') : Spec causes' lim' wid' Q x := by
  cases x with
  | ok a => exact h
  | error e => exact Raises.mono h hc hl hw

theorem Spec.imp {Q' : α → Prop} {x : Except Stop α} (h : Spec causes lim wid Q x) (hQ : ∀ a, Q a → Q' a) :
    Spec causes lim wid Q' x := by
  cases x with
  | ok a => exact hQ a h
  | error e => exact h

theorem Spec.bind {x : Except Stop α} {g : α → Except Stop β} (h : Spec causes lim wid Q x)
    (hg : ∀ a, x = .ok a → Q a → Spec causes lim wid R (g a)) : Spec causes lim wid R (x.bind g) := by
  cases x with
  | ok a => exact hg a rfl h
  | error e => exact h

theorem Spec.map {x : Except Stop α} {g : α → β} (h : Spec causes lim wid Q x) (hg : ∀ a, Q a → R (g a)) :
    Spec causes lim wid R (x.map g) := by
  cases x with
  | ok a => exact hg a h
  | error e => exact h

theorem Spec.of_ok {x : Except Stop α} {a : α} (h : Spec causes lim wid Q x) (hx : x = .ok a) : Q a := by
  rwa [hx] at h

theorem Spec.of_error {x : Except Stop α} {e : Stop} (h : Spec causes lim wid Q x) (hx : x = .error e) :
    Raises causes lim wid e := by
  rwa [hx] at h

theorem spec_raise {k : ErrKind} {f : ErrField} {off w : Nat} (hkf : (k, f) ∈ causes) (hoff : off ≤ lim) (hw : w ≤ wid) :
    Spec causes lim wid Q (.error (.raise k f off w)) := ⟨k, f, off, w, rfl, hkf, hoff, hw⟩

/-- A check: an error where the condition holds, else what comes after. -/
theorem spec_check {c : Prop} [Decidable c] {k : ErrKind} {f : ErrField} {off w : Nat} {x : Except Stop α}
    (hkf : (k, f) ∈ causes) (hoff : off ≤ lim) (hw : w ≤ wid) (hx : ¬c → Spec causes lim wid Q x) :
    Spec causes lim wid Q (if c then .error (.raise k f off w) else x) := by
  split_ifs with h
  · exact spec_raise hkf hoff hw
  · exact hx h

theorem spec_memRead {m : List Byte} {a n : Nat} {f : ErrField} (hkf : (ErrKind.tooShort, f) ∈ causes) (hoff : a ≤ lim)
    (hw : n ≤ wid) : Spec causes lim wid (fun v => a + n ≤ m.length ∧ v < 256 ^ n) (memRead m a n f) := by
  rcases memRead_cases m a n f with ⟨h, he⟩ | ⟨-, he⟩
  · rw [he]
    exact ⟨h, memRead_lt he⟩
  · rw [he]
    exact spec_raise hkf hoff hw

theorem spec_memSpan {m : List Byte} {a n : Nat} {k : ErrKind} {f : ErrField} (hkf : (k, f) ∈ causes) (hoff : a ≤ lim)
    (hw : n ≤ wid) : Spec causes lim wid (fun _ => a + n ≤ m.length) (memSpan m a n k f) := by
  rcases memSpan_cases m a n k f with ⟨h, he⟩ | ⟨-, he⟩
  · rw [he]
    exact h
  · rw [he]
    exact spec_raise hkf hoff hw

end

/-! ## What follows a name (R201, R211), whatever the name -/

/-- The errors of a question's own fields (43_question.md R204). -/
def questionCauses : List (ErrKind × ErrField) :=
  [(.tooShort, .qQtype), (.tooShort, .qQclass), (.invalidValue, .qQtype), (.invalidValue, .qQclass)]

/-- The errors of a record's own fields (44_resource_record.md R218). -/
def recordCauses : List (ErrKind × ErrField) :=
  [(.tooShort, .rrType), (.tooShort, .rrClass), (.tooShort, .rrTtl), (.invalidValue, .rrTtl), (.tooShort, .rrRdlength),
   (.inconsistentFields, .rrRdata), (.inconsistentFields, .rrRdlength)]

section
variable (m : List Byte) (o : Nat) (name : Name)

theorem questionFields_spec :
    Spec questionCauses (max (o + name.consumed) m.length) 2
      (fun x => x.1.name = name ∧ qtypeOK x.1.qtype.toNat = true ∧ qclassOK x.1.qclass.toNat = true ∧
        x.2 = name.consumed + Config.qFixed ∧ o + x.2 ≤ m.length)
      (questionFields m o name) := by
  refine Spec.bind (spec_memRead (by decide) (Nat.le_max_left _ _) le_rfl) fun qtype _ ⟨h1, ht⟩ => ?_
  refine Spec.bind (spec_memRead (by decide) (by omega) le_rfl) fun qclass _ ⟨h2, hk⟩ => ?_
  refine spec_check (by decide) (by omega) le_rfl fun hqt => ?_
  refine spec_check (by decide) (by omega) le_rfl fun hqk => ?_
  have hqtype : (BitVec.ofNat 16 qtype).toNat = qtype := toNat_ofNat_of_lt ht
  have hqclass : (BitVec.ofNat 16 qclass).toNat = qclass := toNat_ofNat_of_lt hk
  simp only [Spec, hqtype, hqclass, Config.qFixed]
  exact ⟨trivial, by simpa using hqt, by simpa using hqk, trivial, by omega⟩

theorem recordFields_spec :
    Spec recordCauses (max (o + name.consumed) m.length) 65535
      (fun x => x.1.name = name ∧ x.1.ttl.toNat ≤ Config.ttlMax ∧
        (x.1.rtype.toNat = Config.typeA → x.1.rdlength.toNat = Config.aRdlength) ∧
        x.2 = name.consumed + Config.rrFixed + x.1.rdlength.toNat ∧ o + x.2 = x.1.rdoff + x.1.rdlength.toNat ∧
        o + x.2 ≤ m.length)
      (recordFields m o name) := by
  refine Spec.bind (spec_memRead (by decide) (Nat.le_max_left _ _) (by decide)) fun rtype _ ⟨h1, ht⟩ => ?_
  refine Spec.bind (spec_memRead (by decide) (by omega) (by decide)) fun rclass _ ⟨h2, _⟩ => ?_
  refine Spec.bind (spec_memRead (by decide) (by omega) (by decide)) fun ttl _ ⟨h4, httl⟩ => ?_
  refine spec_check (by decide) (by omega) (by decide) fun hmax => ?_
  refine Spec.bind (spec_memRead (by decide) (by omega) (by decide)) fun rdlength _ ⟨h8, hlen⟩ => ?_
  refine Spec.bind (spec_memSpan (by decide) (by omega) (by omega)) fun _ _ hspan => ?_
  refine spec_check (by decide) (by omega) (by decide) fun ha => ?_
  have hrtype : (BitVec.ofNat 16 rtype).toNat = rtype := toNat_ofNat_of_lt ht
  have hrttl : (BitVec.ofNat 32 ttl).toNat = ttl := toNat_ofNat_of_lt httl
  have hrlen : (BitVec.ofNat 16 rdlength).toNat = rdlength := toNat_ofNat_of_lt hlen
  simp only [Spec, hrtype, hrttl, hrlen, Config.rrFixed]
  exact ⟨trivial, Nat.not_lt.1 hmax, by simpa using ha, trivial, by omega, by omega⟩

end

end Sys2Proof.Machine.SpecProofs

/-! SUPPORT. One pass of the name decode: what the loop of 42_name.md R184 repeats and what the name state machine does in
ReadLength (R173). What the passes keep, how many there are, and what the whole decode returns or raises. -/

namespace Sys2Proof.Machine.NamePassProofs

open Sys2Proof.Machine.Laws Sys2Proof.Machine.NameProofs Sys2Proof.Machine.MessageProofs Sys2Proof.Machine.RegisterProofs
  Sys2Proof.Machine.ReadProofs Sys2Proof.Machine.SpecProofs

/-- The pass at a walk's position, by the octets that stand there (R173 to R180). -/
def namePass (p : Config.Params) (m : List Byte) (w : Walk) : Except Stop Walk :=
  match m[w.pos]? with
  | none => .error (.raise .tooShort .nameLen w.pos 1)
  | some b =>
    if b.toNat = 0 then .ok w.terminate
    else if b.toNat ≤ 63 then w.readLabel p m b.toNat
    else if b.toNat < 192 then .error (.raise .invalidValue .nameLen w.pos 1)
    else match m[w.pos + 1]? with
      | none => .error (.raise .tooShort .namePtr2 (w.pos + 1) 1)
      | some b2 => w.followPointer m (256 * (b.toNat % 64) + b2.toNat) w.pos

section
variable {p : Config.Params} {m : List Byte} {w : Walk} {b b2 : Byte}

theorem namePass_end (h : m[w.pos]? = none) : namePass p m w = .error (.raise .tooShort .nameLen w.pos 1) := by
  simp only [namePass, h]

theorem namePass_terminator (h : m[w.pos]? = some b) (hb : b.toNat = 0) : namePass p m w = .ok w.terminate := by
  simp only [namePass, h, if_pos hb]

theorem namePass_label (h : m[w.pos]? = some b) (h1 : 1 ≤ b.toNat) (h63 : b.toNat ≤ 63) :
    namePass p m w = w.readLabel p m b.toNat := by
  simp only [namePass, h, if_neg (Nat.pos_iff_ne_zero.1 h1), if_pos h63]

theorem namePass_reserved (h : m[w.pos]? = some b) (h64 : 64 ≤ b.toNat) (h192 : b.toNat < 192) :
    namePass p m w = .error (.raise .invalidValue .nameLen w.pos 1) := by
  have ⟨h0, h63⟩ : b.toNat ≠ 0 ∧ ¬b.toNat ≤ 63 := by omega
  simp only [namePass, h, if_neg h0, if_neg h63, if_pos h192]

theorem namePass_cut_pointer (h : m[w.pos]? = some b) (h192 : 192 ≤ b.toNat) (h2 : m[w.pos + 1]? = none) :
    namePass p m w = .error (.raise .tooShort .namePtr2 (w.pos + 1) 1) := by
  have ⟨h0, h63⟩ : b.toNat ≠ 0 ∧ ¬b.toNat ≤ 63 := by omega
  simp only [namePass, h, if_neg h0, if_neg h63, if_neg (Nat.not_lt.2 h192), h2]

theorem namePass_pointer (h : m[w.pos]? = some b) (h192 : 192 ≤ b.toNat) (h2 : m[w.pos + 1]? = some b2) :
    namePass p m w = w.followPointer m (256 * (b.toNat % 64) + b2.toNat) w.pos := by
  have ⟨h0, h63⟩ : b.toNat ≠ 0 ∧ ¬b.toNat ≤ 63 := by omega
  simp only [namePass, h, if_neg h0, if_neg h63, if_neg (Nat.not_lt.2 h192), h2]

/-- The six classes of what stands at the position (30_encoding.md R99). -/
theorem pass_cases (m : List Byte) (a : Nat) :
    m[a]? = none ∨ ∃ b, m[a]? = some b ∧
      (b.toNat = 0 ∨ (1 ≤ b.toNat ∧ b.toNat ≤ 63) ∨ (64 ≤ b.toNat ∧ b.toNat < 192) ∨
        192 ≤ b.toNat ∧ (m[a + 1]? = none ∨ ∃ b2, m[a + 1]? = some b2)) := by
  cases h : m[a]? with
  | none => exact .inl rfl
  | some b =>
    refine .inr ⟨b, rfl, ?_⟩
    have h2 : m[a + 1]? = none ∨ ∃ b2, m[a + 1]? = some b2 := by cases m[a + 1]? <;> simp
    by_cases h192 : 192 ≤ b.toNat
    · exact .inr (.inr (.inr ⟨h192, h2⟩))
    · omega

/-! ## The pass in the loop and in the state machine -/

theorem st_of_readLabel {w' : Walk} {len : Nat} (h : w.readLabel p m len = .ok w') : w'.st = .readLength := by
  obtain ⟨-, -, -, rfl⟩ := readLabel_eq_ok_iff.1 h
  rfl

theorem st_of_followPointer {w' : Walk} {target at_ : Nat} (h : w.followPointer m target at_ = .ok w') :
    w'.st = .readLength := by
  obtain ⟨-, -, -, rfl⟩ := followPointer_eq_ok_iff.1 h
  rfl

theorem o_of_readLabel {w' : Walk} {len : Nat} (h : w.readLabel p m len = .ok w') : w'.o = w.o := by
  obtain ⟨-, -, -, rfl⟩ := readLabel_eq_ok_iff.1 h
  rfl

theorem o_of_followPointer {w' : Walk} {target at_ : Nat} (h : w.followPointer m target at_ = .ok w') : w'.o = w.o := by
  obtain ⟨-, -, -, rfl⟩ := followPointer_eq_ok_iff.1 h
  rfl

/-- The loop after a pass: it has ended, or it goes on. -/
def loopOn (p : Config.Params) (n : Nat) (m : List Byte) (w : Walk) : Except Stop Name :=
  if w.st = .done then .ok w.name else nameLoop p n m w

theorem bind_loopOn {n : Nat} {x : Except Stop Walk} (h : ∀ w', x = .ok w' → w'.st = .readLength) :
    x.bind (nameLoop p n m) = x.bind (loopOn p n m) := by
  cases x with
  | error e => rfl
  | ok w' =>
    have : w'.st ≠ .done := by rw [h w' rfl]; nofun
    exact (if_neg this).symm

theorem nameLoop_succ (n : Nat) : nameLoop p (n + 1) m w = (namePass p m w).bind (loopOn p n m) := by
  rcases nameLoop_cases p n m w with ⟨hp, he⟩ | ⟨hp, hc⟩
  · rw [he, namePass_end (List.getElem?_eq_none hp)]
    rfl
  have hb : m[w.pos]? = some m[w.pos] := List.getElem?_eq_getElem hp
  rcases hc with ⟨h0, he⟩ | ⟨h1, h63, he⟩ | ⟨h64, h192, he⟩ | ⟨h192, hl, he⟩ | ⟨h192, hl, he⟩ <;> rw [he]
  · rw [namePass_terminator hb h0]
    rfl
  · rw [namePass_label hb h1 h63, bind_loopOn fun _ => st_of_readLabel]
  · rw [namePass_reserved hb h64 h192]
    rfl
  · rw [namePass_cut_pointer hb h192 (List.getElem?_eq_none hl.le)]
    rfl
  · rw [namePass_pointer hb h192 (List.getElem?_eq_getElem hl), bind_loopOn fun _ => st_of_followPointer]

theorem readLength_eq_pass {s : State} {task : Task} (he : s.engine = .naming w task) (hst : w.st = .readLength) :
    readLength w s = s.settleWalk task (namePass s.params s.message w) := by
  have octet {i : Instr} {rest : List Byte} {tr : Walk → Except Stop Walk}
      (hd : decodeOctets (slice s.message w.pos 2) = some (i, rest)) (hi : exec i s = s.inReadLength tr) :
      readLength w s = s.settleWalk task (tr w) := by
    rw [readLength_of_decode hd, hi, inReadLength_eq tr he hst]
  have hs := slice_two s.message w.pos
  rcases pass_cases s.message w.pos with h | ⟨b, h, h0 | ⟨h1, h63⟩ | ⟨h64, h192⟩ | ⟨h192, h2 | ⟨b2, h2⟩⟩⟩
  · rw [namePass_end h, readLength_past_end (by rw [← message_length s]; exact List.getElem?_eq_none_iff.1 h)]
    rfl
  · have hb : b = 0 := BitVec.eq_of_toNat_eq h0
    rw [namePass_terminator h h0, octet (rest := s.message[w.pos + 1]?.toList) _ (exec_octTerm s)]
    rw [hs, h, hb]
    rfl
  · rw [namePass_label h h1 h63, octet (by rw [hs, h]; exact decodeOctets_label h1 h63) (exec_octLabel _ s), octetLow_toNat,
      Nat.mod_eq_of_lt (Nat.lt_succ_of_le h63)]
  · rw [namePass_reserved h h64 h192]
    rcases decodeOctets_reserved (rest := s.message[w.pos + 1]?.toList) h64 h192 with hd | hd
    · exact octet (by rw [hs, h]; exact hd) (exec_octRsv01 _ s)
    · exact octet (by rw [hs, h]; exact hd) (exec_octRsv10 _ s)
  · rw [namePass_cut_pointer h h192 h2]
    obtain ⟨hlt, hat⟩ := List.getElem?_eq_some_iff.1 h
    have hend := List.getElem?_eq_none_iff.1 h2
    rw [message_getElem] at hat
    rw [message_length] at hlt hend
    rw [readLength_cut_pointer (Nat.le_antisymm hlt hend) (by rwa [hat])]
    rfl
  · have hl : w.pos + 2 ≤ s.message.length := (List.getElem?_eq_some_iff.1 h2).1
    rw [namePass_pointer h h192 h2, octet (by rw [hs, h, h2]; exact decodeOctets_pointer h192) (exec_octPtr _ s),
      pointer_whole hl, pointerTarget_toNat]

/-! ## What a pass returns and raises -/

/-- A pass that returns: the terminator, a label, a pointer. -/
theorem namePass_ok_cases {w' : Walk} (h : namePass p m w = .ok w') :
    ∃ b, m[w.pos]? = some b ∧
      (b.toNat = 0 ∧ w' = w.terminate ∨
       (1 ≤ b.toNat ∧ b.toNat ≤ 63) ∧ w.readLabel p m b.toNat = .ok w' ∨
       w.pos + 2 ≤ m.length ∧ ∃ target, w.followPointer m target w.pos = .ok w') := by
  rcases pass_cases m w.pos with hb | ⟨b, hb, h0 | ⟨h1, h63⟩ | ⟨h64, h192⟩ | ⟨h192, h2 | ⟨b2, h2⟩⟩⟩
  · rw [namePass_end hb] at h
    cases h
  · rw [namePass_terminator hb h0] at h
    cases h
    exact ⟨b, hb, .inl ⟨h0, rfl⟩⟩
  · rw [namePass_label hb h1 h63] at h
    exact ⟨b, hb, .inr (.inl ⟨⟨h1, h63⟩, h⟩)⟩
  · rw [namePass_reserved hb h64 h192] at h
    cases h
  · rw [namePass_cut_pointer hb h192 h2] at h
    cases h
  · rw [namePass_pointer hb h192 h2] at h
    exact ⟨b, hb, .inr (.inr ⟨(List.getElem?_eq_some_iff.1 h2).1, _, h⟩)⟩

/-- The errors of ReadLabel (42_name.md R176). -/
def labelCauses : List (ErrKind × ErrField) :=
  [(.outOfBounds, .nameLabel), (.invalidLabelSyntax, .nameLabel), (.invalidValue, .nameTotal)]

/-- The errors of FollowPointer (R180). -/
def pointerCauses : List (ErrKind × ErrField) :=
  [(.recursivePointer, .namePtr), (.invalidValue, .namePtr), (.outOfBounds, .namePtr)]

/-- The errors of a name decode (R187). -/
def nameCauses : List (ErrKind × ErrField) :=
  [(.tooShort, .nameLen), (.tooShort, .namePtr2), (.invalidValue, .nameLen)] ++ (labelCauses ++ pointerCauses)

theorem readLabel_spec (len : Nat) :
    Spec labelCauses (w.pos + 1) (len + 1) (fun w' => w.readLabel p m len = .ok w') (w.readLabel p m len) := by
  rcases readLabel_cases p w m len with ⟨-, he⟩ | ⟨-, -, he⟩ | ⟨-, -, -, he⟩ | ⟨-, -, -, he⟩ <;> rw [he]
  · exact spec_raise (by decide) le_rfl (Nat.le_succ _)
  · exact spec_raise (by decide) le_rfl (Nat.le_succ _)
  · exact spec_raise (by decide) (Nat.le_succ _) le_rfl
  · rfl

theorem followPointer_spec (target at_ : Nat) :
    Spec pointerCauses at_ 2 (fun w' => w.followPointer m target at_ = .ok w') (w.followPointer m target at_) := by
  rcases followPointer_cases w m target at_ with ⟨-, he⟩ | ⟨-, -, he⟩ | ⟨-, -, -, he⟩ | ⟨-, -, -, he⟩ <;> rw [he]
  · exact spec_raise (by decide) le_rfl le_rfl
  · exact spec_raise (by decide) le_rfl le_rfl
  · exact spec_raise (by decide) le_rfl le_rfl
  · rfl

theorem namePass_spec :
    Spec nameCauses (max w.pos m.length) 64 (fun w' => namePass p m w = .ok w') (namePass p m w) := by
  rcases pass_cases m w.pos with hb | ⟨b, hb, h0 | ⟨h1, h63⟩ | ⟨h64, h192⟩ | ⟨h192, h2 | ⟨b2, h2⟩⟩⟩
  · rw [namePass_end hb]
    exact spec_raise (by decide) (Nat.le_max_left _ _) (by decide)
  · rw [namePass_terminator hb h0]
    rfl
  · have := (List.getElem?_eq_some_iff.1 hb).1
    rw [namePass_label hb h1 h63]
    exact Spec.mono (readLabel_spec b.toNat) (by decide) (by omega) (by omega)
  · rw [namePass_reserved hb h64 h192]
    exact spec_raise (by decide) (Nat.le_max_left _ _) (by decide)
  · have := (List.getElem?_eq_some_iff.1 hb).1
    rw [namePass_cut_pointer hb h192 h2]
    exact spec_raise (by decide) (by omega) (by decide)
  · rw [namePass_pointer hb h192 h2]
    exact Spec.mono (followPointer_spec _ _) (by decide) (Nat.le_max_left _ _) (by decide)

/-! ## How many passes there are (R186) -/

/-- The most passes that are left: each label takes two of the 255 bytes, one pointer can be followed, and one pass ends. -/
def passesLeft (w : Walk) : Nat := (255 - w.total) / 2 + (if w.jumped then 0 else 1) + 1

theorem passesLeft_of_namePass {w' : Walk} (h : namePass p m w = .ok w') :
    w'.st = .done ∨ w'.st = .readLength ∧ passesLeft w' + 1 ≤ passesLeft w := by
  obtain ⟨b, -, ⟨-, rfl⟩ | ⟨⟨h1, -⟩, hr⟩ | ⟨-, target, hf⟩⟩ := namePass_ok_cases h
  · exact .inl rfl
  · obtain ⟨-, -, ht, rfl⟩ := readLabel_eq_ok_iff.1 hr
    have ht : w.total + b.toNat + 1 ≤ 255 := ht
    have hstep : (255 - (w.total + b.toNat + 1)) / 2 + 1 ≤ (255 - w.total) / 2 := by omega
    have hjump : (appended w (slice m (w.pos + 1) b.toNat) b.toNat).jumped = w.jumped := rfl
    have htot : (appended w (slice m (w.pos + 1) b.toNat) b.toNat).total = w.total + b.toNat + 1 := rfl
    refine .inr ⟨rfl, ?_⟩
    rw [passesLeft, passesLeft, hjump, htot]
    omega
  · obtain ⟨hj, -, -, rfl⟩ := followPointer_eq_ok_iff.1 hf
    refine .inr ⟨rfl, ?_⟩
    simp [passesLeft, followed, hj]

theorem nameLoop_of_passesLeft {n : Nat} (hn : passesLeft w ≤ n) (k : Nat) :
    nameLoop p (n + k) m w = nameLoop p n m w ∧ nameLoop p n m w ≠ .error .unfinished := by
  induction n generalizing w with
  | zero => simp [passesLeft] at hn
  | succ n ih =>
    rw [Nat.add_right_comm, nameLoop_succ, nameLoop_succ]
    cases hp : namePass p m w with
    | error e =>
      obtain ⟨kind, f, off, wid, rfl, -⟩ := Spec.of_error namePass_spec hp
      exact ⟨rfl, nofun⟩
    | ok w' =>
      simp only [Except.bind, loopOn]
      obtain hd | ⟨-, hl⟩ := passesLeft_of_namePass hp
      · simp [hd]
      · split_ifs
        · exact ⟨rfl, nofun⟩
        · exact ih (Nat.le_of_succ_le_succ (hl.trans hn))

/-- Settles O40: from the start of a name at most 129 passes are left. -/
theorem nameDecodeTakesAtMost129Passes : Obligations.NameDecodeTakesAtMost129Passes := by
  intro p m o k
  have hstart : passesLeft (Walk.start o) ≤ 129 := by simp [passesLeft, Walk.start]
  exact nameLoop_of_passesLeft hstart k

theorem decodeName_ne_unfinished (p : Config.Params) (m : List Byte) (o : Nat) : decodeName p m o ≠ .error .unfinished :=
  (nameDecodeTakesAtMost129Passes p m o 0).2

/-! ## What every pass keeps, the whole decode keeps -/

section
variable {P : Walk → Prop} (hP : ∀ w w', P w → w.st = .readLength → namePass p m w = .ok w' → P w')
include hP

/-- A decode that returns has ended in a walk at Done. -/
theorem nameLoop_ok_induction {n : Nat} {name : Name} (hw : P w) (hst : w.st = .readLength)
    (h : nameLoop p n m w = .ok name) : ∃ w', P w' ∧ w'.st = .done ∧ w'.name = name := by
  induction n generalizing w with
  | zero => cases h
  | succ n ih =>
    rw [nameLoop_succ] at h
    obtain ⟨w', hp, h⟩ := bind_eq_ok_iff.1 h
    have hw' := hP w w' hw hst hp
    obtain hd | ⟨hr, -⟩ := passesLeft_of_namePass hp
    · rw [loopOn, if_pos hd] at h
      cases h
      exact ⟨w', hw', hd, rfl⟩
    · rw [loopOn, if_neg (by rw [hr]; nofun)] at h
      exact ih hw' hr h

/-- A decode that raises has met the error in a pass. -/
theorem nameLoop_error_induction {n : Nat} {e : Stop} (hw : P w) (hst : w.st = .readLength)
    (h : nameLoop p n m w = .error e) (he : e ≠ .unfinished) : ∃ w', P w' ∧ w'.st = .readLength ∧ namePass p m w' = .error e := by
  induction n generalizing w with
  | zero =>
    cases h
    exact absurd rfl he
  | succ n ih =>
    rw [nameLoop_succ] at h
    cases hp : namePass p m w with
    | error e' =>
      rw [hp] at h
      cases h
      exact ⟨w, hw, hst, hp⟩
    | ok w' =>
      rw [hp] at h
      have hw' := hP w w' hw hst hp
      obtain hd | ⟨hr, -⟩ := passesLeft_of_namePass hp
      · simp [Except.bind, loopOn, hd] at h
      · simp only [Except.bind, loopOn, if_neg (show w'.st ≠ .done by rw [hr]; nofun)] at h
        exact ih hw' hr h

end

end
end Sys2Proof.Machine.NamePassProofs

/-! SUPPORT. What a name decode keeps from pass to pass (42_name.md R178, R181, R190), and so what every returned name and every
error of a name satisfies. -/

namespace Sys2Proof.Machine.NameInvariantProofs

open Sys2Proof.Machine.Laws Sys2Proof.Machine.NameProofs Sys2Proof.Machine.MessageProofs Sys2Proof.Machine.ReadProofs
  Sys2Proof.Machine.SpecProofs Sys2Proof.Machine.NamePassProofs

/-! ## Labels and their wire form -/

theorem labelsLen_append (xs ys : List Label) : labelsLen (xs ++ ys) = labelsLen xs + labelsLen ys := by
  simp [labelsLen]

theorem labelBytes_append (xs ys : List Label) : labelBytes (xs ++ ys) = labelBytes xs ++ labelBytes ys := by
  simp [labelBytes]

theorem labelBytes_length (ls : List Label) : (labelBytes ls).length = labelsLen ls := by
  simp [labelBytes, labelsLen, List.length_flatMap]

theorem labelsLen_singleton (l : Label) : labelsLen [l] = l.length + 1 := by simp [labelsLen]

/-- Each label takes two bytes at least. -/
theorem two_mul_length_le_labelsLen {ls : List Label} (h : ∀ l ∈ ls, 1 ≤ l.length) : 2 * ls.length ≤ labelsLen ls := by
  induction ls with
  | nil => simp
  | cons l ls ih =>
    have := ih fun x hx => h x (List.mem_cons_of_mem _ hx)
    have := h l List.mem_cons_self
    simp only [labelsLen, List.map_cons, List.sum_cons, List.length_cons] at *
    omega

theorem length_le_of_labelsOK {p : Config.Params} {ls : List Label} (h : LabelsOK p ls) : ls.length ≤ 127 := by
  have hlen := two_mul_length_le_labelsLen fun l hl => (h.1 l hl).1
  have htotal : 1 + labelsLen ls ≤ 255 := h.2
  omega

theorem labelsOK_append {p : Config.Params} {xs ys : List Label} :
    LabelsOK p (xs ++ ys) ↔
      (∀ l ∈ xs, Label.OK p l) ∧ (∀ l ∈ ys, Label.OK p l) ∧ 1 + labelsLen xs + labelsLen ys ≤ 255 := by
  have : 1 + ((xs ++ ys).map (fun l => l.length + 1)).sum = 1 + labelsLen xs + labelsLen ys := by
    rw [Nat.add_assoc, ← labelsLen_append, labelsLen]
  rw [LabelsOK, this, List.forall_mem_append, and_assoc, Config.nameMax]

/-! ## The invariant of a walk: `Walk.OK` without the bound that ERR_OFFSET sets -/

/-- The labels are good, their size is counted, and the forward bytes were read inside the message. -/
structure Sound (p : Config.Params) (m : List Byte) (w : Walk) : Prop where
  labels : LabelsOK p w.labels
  total : w.total = 1 + labelsLen w.labels
  count : w.CountOK
  inside : w.fwd = 0 ∨ w.o + w.fwd ≤ m.length

section
variable {p : Config.Params} {m : List Byte} {w w' : Walk}

theorem Sound.total_le (h : Sound p m w) : w.total ≤ 255 := by
  rw [h.total]
  exact h.labels.2

/-- The count before Done and before a pointer (R181). -/
theorem Sound.forward (h : Sound p m w) (hd : w.st ≠ .done) (hj : w.jumped = false) :
    w.pos = w.o + w.fwd ∧ w.fwd + 1 = w.total := by
  have := h.count
  rwa [Walk.CountOK, hj, if_neg hd] at this

theorem Sound.jumped (h : Sound p m w) (hj : w.jumped = true) : 2 ≤ w.fwd ∧ w.fwd ≤ 256 := by
  have := h.count
  rwa [Walk.CountOK, hj] at this

theorem countOK_forward (hd : w.st ≠ .done) (hj : w.jumped = false) (h : w.pos = w.o + w.fwd ∧ w.fwd + 1 = w.total) :
    w.CountOK := by
  rw [Walk.CountOK, hj, if_neg hd]
  exact h

theorem countOK_jumped (hj : w.jumped = true) (h : 2 ≤ w.fwd ∧ w.fwd ≤ 256) : w.CountOK := by
  rw [Walk.CountOK, hj]
  exact h

theorem countOK_done (hd : w.st = .done) (hj : w.jumped = false) (h : w.fwd = w.total) : w.CountOK := by
  rw [Walk.CountOK, hj, if_pos hd]
  exact h

theorem sound_start (p : Config.Params) (m : List Byte) (o : Nat) : Sound p m (Walk.start o) :=
  { labels := ⟨by simp [Walk.start], by simp [Walk.start, Config.nameMax]⟩
    total := rfl
    count := countOK_forward nofun rfl ⟨rfl, rfl⟩
    inside := .inl rfl }

theorem Sound.readLabel {len : Nat} (h : Sound p m w) (hd : w.st ≠ .done) (h1 : 1 ≤ len) (h63 : len ≤ 63)
    (hr : w.readLabel p m len = .ok w') : Sound p m w' := by
  obtain ⟨hin, hok, ht, rfl⟩ := readLabel_eq_ok_iff.1 hr
  have hlen : (slice m (w.pos + 1) len).length = len := slice_length hin
  have hsize : labelsLen (appended w (slice m (w.pos + 1) len) len).labels = labelsLen w.labels + (len + 1) := by
    rw [appended, labelsLen_append, labelsLen_singleton, hlen]
  have htotal : w.total + len + 1 = 1 + labelsLen (appended w (slice m (w.pos + 1) len) len).labels := by
    rw [hsize, h.total, Nat.add_assoc, Nat.add_assoc]
  refine ⟨⟨?_, htotal.ge.trans ht⟩, htotal, ?_, ?_⟩
  · intro l hl
    obtain hl | hl := List.mem_append.1 hl
    · exact h.labels.1 l hl
    · cases List.mem_singleton.1 hl
      exact ⟨by rwa [hlen], by rwa [hlen], hok⟩
  · cases hj : w.jumped with
    | true => exact countOK_jumped hj (by simpa [appended, hj] using h.jumped hj)
    | false =>
      have := h.forward hd hj
      refine countOK_forward nofun hj ?_
      simp only [appended, hj]
      simp
      omega
  · cases hj : w.jumped with
    | true => simpa [appended, hj] using h.inside
    | false =>
      have := h.forward hd hj
      refine .inr ?_
      simp only [appended, hj]
      simp
      omega

theorem Sound.followPointer {target : Nat} (h : Sound p m w) (hd : w.st ≠ .done) (hin : w.pos + 2 ≤ m.length)
    (hf : w.followPointer m target w.pos = .ok w') : Sound p m w' := by
  obtain ⟨hj, -, -, rfl⟩ := followPointer_eq_ok_iff.1 hf
  have hfwd := h.forward hd hj
  have := h.total_le
  exact ⟨h.labels, h.total, countOK_jumped rfl (by simp only [followed]; omega), .inr (by simp only [followed]; omega)⟩

theorem Sound.terminate (h : Sound p m w) (hd : w.st ≠ .done) (hin : w.pos < m.length) : Sound p m w.terminate := by
  cases hj : w.jumped with
  | true =>
    rw [terminate_jumped hj]
    exact ⟨h.labels, h.total, countOK_jumped hj (h.jumped hj), h.inside⟩
  | false =>
    have := h.forward hd hj
    rw [terminate_forward hj]
    exact ⟨h.labels, h.total, countOK_done rfl hj this.2, .inr (by simp only; omega)⟩

theorem Sound.namePass (h : Sound p m w) (hd : w.st ≠ .done) (hp : namePass p m w = .ok w') : Sound p m w' := by
  obtain ⟨b, hb, ⟨-, rfl⟩ | ⟨⟨h1, h63⟩, hr⟩ | ⟨hin, target, hf⟩⟩ := namePass_ok_cases hp
  · exact h.terminate hd (List.getElem?_eq_some_iff.1 hb).1
  · exact h.readLabel hd h1 h63 hr
  · exact h.followPointer hd hin hf

/-- Done (R185): the name that a sound walk gives. -/
theorem Sound.name_ok (h : Sound p m w) (hd : w.st = .done) : w.name.OK p ∧ w.o + w.name.consumed ≤ m.length := by
  have hcount : 1 ≤ w.fwd ∧ w.fwd ≤ 256 := by
    cases hj : w.jumped with
    | true =>
      have := h.jumped hj
      omega
    | false =>
      have hc := h.count
      rw [Walk.CountOK, hj, if_pos hd] at hc
      have := h.total
      have := h.total_le
      simp only at hc
      omega
  have := h.inside
  exact ⟨⟨h.labels, hcount⟩, by simp only [Walk.name]; omega⟩

/-! ## Where the bytes of a name come from -/

/-- Before the first pointer the forward bytes are the labels' wire form; a pointer adds to the count what no terminator does,
so after it the count is not the wire size. -/
structure Traced (m : List Byte) (w : Walk) : Prop where
  forward : w.jumped = false → slice m w.o w.fwd = labelBytes w.labels ++ if w.st = .done then [0] else []
  jumped : w.jumped = true → 0 < w.o ∧ (w.fwd = w.total + 1 ∨ w.fwd < w.total)

theorem slice_add (m : List Byte) (a i j : Nat) : slice m a (i + j) = slice m a i ++ slice m (a + i) j := by
  rw [slice, List.take_add, List.drop_drop, slice, slice]

theorem slice_one {a : Nat} {b : Byte} (h : m[a]? = some b) : slice m a 1 = [b] := by
  rw [slice, List.take_one, List.head?_drop, h]
  rfl

theorem traced_start (m : List Byte) (o : Nat) : Traced m (Walk.start o) := ⟨fun _ => rfl, nofun⟩

theorem Traced.namePass (ht : Traced m w) (h : Sound p m w) (hst : w.st = .readLength) (hp : namePass p m w = .ok w') :
    Traced m w' := by
  have hd : w.st ≠ .done := by rw [hst]; nofun
  have hforward (hj : w.jumped = false) : slice m w.o w.fwd = labelBytes w.labels := by
    rw [ht.forward hj, if_neg hd, List.append_nil]
  obtain ⟨b, hb, ⟨h0, rfl⟩ | ⟨⟨h1, h63⟩, hr⟩ | ⟨hin, target, hf⟩⟩ := namePass_ok_cases hp
  · have hb0 : b = 0 := BitVec.eq_of_toNat_eq h0
    cases hj : w.jumped with
    | true =>
      rw [terminate_jumped hj]
      exact ⟨fun hf => absurd (hj.symm.trans hf) nofun, fun _ => ht.jumped hj⟩
    | false =>
      rw [terminate_forward hj]
      refine ⟨fun _ => ?_, fun ht => absurd (hj.symm.trans ht) nofun⟩
      rw [slice_add, ← (h.forward hd hj).1, slice_one hb, hforward hj, hb0]
      rfl
  · obtain ⟨hlen, -, -, rfl⟩ := readLabel_eq_ok_iff.1 hr
    constructor
    · intro hj
      have hfwd : (appended w (slice m (w.pos + 1) b.toNat) b.toNat).fwd = w.fwd + (1 + b.toNat) := by
        rw [appended_fwd_of_not_jumped (w := w) hj, Nat.add_comm 1]
      have hbytes : labelBytes [slice m (w.pos + 1) b.toNat] = b :: slice m (w.pos + 1) b.toNat := by
        simp [labelBytes, slice_length hlen]
      rw [hfwd, slice_add, slice_add]
      simp only [appended]
      rw [← (h.forward hd hj).1, slice_one hb, hforward hj, labelBytes_append, hbytes]
      simp
    · intro hj
      have := ht.jumped hj
      have hj : w.jumped = true := hj
      simp only [appended, hj, if_true]
      omega
  · obtain ⟨hj, hlt, -, rfl⟩ := followPointer_eq_ok_iff.1 hf
    have := h.forward hd hj
    refine ⟨nofun, fun _ => ?_⟩
    simp only [followed]
    omega

/-! ## The whole decode (R184) -/

/-- What every walk of the decode from `o` satisfies. -/
structure FromStart (p : Config.Params) (m : List Byte) (o : Nat) (w : Walk) : Prop where
  sound : Sound p m w
  traced : Traced m w
  start : w.o = o
  pos : w.pos ≤ max o m.length

theorem fromStart_start (p : Config.Params) (m : List Byte) (o : Nat) : FromStart p m o (Walk.start o) :=
  ⟨sound_start p m o, traced_start m o, rfl, Nat.le_max_left _ _⟩

theorem o_of_namePass (hp : namePass p m w = .ok w') : w'.o = w.o := by
  obtain ⟨b, -, ⟨-, rfl⟩ | ⟨-, hr⟩ | ⟨-, target, hf⟩⟩ := namePass_ok_cases hp
  · rfl
  · exact o_of_readLabel hr
  · exact o_of_followPointer hf

theorem pos_of_namePass (hp : namePass p m w = .ok w') : w'.pos ≤ m.length := by
  obtain ⟨b, hb, ⟨-, rfl⟩ | ⟨-, hr⟩ | ⟨-, target, hf⟩⟩ := namePass_ok_cases hp
  · exact (List.getElem?_eq_some_iff.1 hb).1.le
  · obtain ⟨hin, -, -, rfl⟩ := readLabel_eq_ok_iff.1 hr
    simp only [appended]
    omega
  · obtain ⟨-, -, hlt, rfl⟩ := followPointer_eq_ok_iff.1 hf
    exact hlt.le

theorem FromStart.namePass {o : Nat} (h : FromStart p m o w) (hst : w.st = .readLength) (hp : namePass p m w = .ok w') :
    FromStart p m o w' :=
  ⟨h.sound.namePass (by rw [hst]; nofun) hp, h.traced.namePass h.sound hst hp, (o_of_namePass hp).trans h.start,
    (pos_of_namePass hp).trans (Nat.le_max_right _ _)⟩

theorem decodeName_ok {o : Nat} {n : Name} (h : decodeName p m o = .ok n) :
    ∃ w, FromStart p m o w ∧ w.st = .done ∧ w.name = n :=
  nameLoop_ok_induction (fun _ _ hw hst hp => hw.namePass hst hp) (fromStart_start p m o) rfl h

theorem decodeName_error {o : Nat} {e : Stop} (h : decodeName p m o = .error e) :
    ∃ w, FromStart p m o w ∧ w.st = .readLength ∧ namePass p m w = .error e := by
  have he : e ≠ .unfinished := by
    rintro rfl
    exact decodeName_ne_unfinished p m o h
  exact nameLoop_error_induction (fun _ _ hw hst hp => hw.namePass hst hp) (fromStart_start p m o) rfl h he

theorem decodeName_spec (p : Config.Params) (m : List Byte) (o : Nat) :
    Spec nameCauses (max o m.length) 64 (fun n => n.OK p ∧ o + n.consumed ≤ m.length) (decodeName p m o) := by
  cases h : decodeName p m o with
  | ok n =>
    obtain ⟨w, hw, hd, rfl⟩ := decodeName_ok h
    rw [← hw.start]
    exact hw.sound.name_ok hd
  | error e =>
    obtain ⟨w, hw, -, hp⟩ := decodeName_error h
    exact Raises.mono (Spec.of_error namePass_spec hp) (List.Subset.refl _) (max_le hw.pos (Nat.le_max_right _ _)) le_rfl

end

/-! ## The statements -/

/-- Settles O39: what holds of the walk at Done; only a pointer, which must point before the name, makes the counts differ. -/
theorem decodedNamesAreBounded : Obligations.DecodedNamesAreBounded := by
  intro p m o n h
  obtain ⟨⟨hlabels, h1, h256⟩, hin⟩ := Spec.of_ok (decodeName_spec p m o) h
  refine ⟨hlabels.1, length_le_of_labelsOK hlabels, hlabels.2, h1, h256, hin, ?_⟩
  rintro rfl
  obtain ⟨w, hw, hd, rfl⟩ := decodeName_ok h
  cases hj : w.jumped with
  | true => exact absurd (hw.traced.jumped hj).1 (by rw [hw.start]; decide)
  | false =>
    have hc := hw.sound.count
    rw [Walk.CountOK, hj, if_pos hd] at hc
    exact hc.trans hw.sound.total

/-- Settles O38: good labels encode; with no pointer followed the forward bytes are their wire form. -/
theorem decodedNamesEncodeBack : Obligations.DecodedNamesEncodeBack := by
  intro p m o n h
  obtain ⟨⟨hlabels, -, -⟩, -⟩ := Spec.of_ok (decodeName_spec p m o) h
  have hshort : n.labels.any (fun l => l.length > Config.labelMax) = false := by
    simpa using fun l hl => (hlabels.1 l hl).2.1
  have hencode : encodeName n.labels = .ok (labelBytes n.labels ++ [0]) := by
    rw [encodeName, hshort, if_neg nofun, if_neg (Nat.not_lt.2 hlabels.2)]
  refine ⟨_, hencode, ?_, fun hcons => ?_⟩
  · rw [List.length_append, labelBytes_length, List.length_singleton, Nat.add_comm]
    rfl
  · obtain ⟨w, hw, hd, rfl⟩ := decodeName_ok h
    have hfwd : w.fwd = w.total := hcons.trans hw.sound.total.symm
    cases hj : w.jumped with
    | true =>
      have := hw.traced.jumped hj
      omega
    | false =>
      have := hw.traced.forward hj
      rw [if_pos hd, hw.start] at this
      exact this.symm

end Sys2Proof.Machine.NameInvariantProofs

/-! SUPPORT. What every command returns and raises (60_exceptions.md R265, R266, R269). -/

namespace Sys2Proof.Machine.CommandProofs

open Sys2Proof.Machine.Laws Sys2Proof.Machine.HeaderProofs Sys2Proof.Machine.MessageProofs Sys2Proof.Machine.SpecProofs
  Sys2Proof.Machine.NamePassProofs Sys2Proof.Machine.NameInvariantProofs

/-! ## Questions and records (R201, R211) -/

section
variable (p : Config.Params) (m : List Byte) (o : Nat)

theorem decodeQuestion_spec :
    Spec (nameCauses ++ questionCauses) (max o m.length) 65535
      (fun x => x.1.OK p ∧ x.2 = x.1.name.consumed + Config.qFixed ∧ o + x.2 ≤ m.length) (decodeQuestion p m o) := by
  refine Spec.bind (Spec.mono (decodeName_spec p m o) (by decide) le_rfl (by decide)) fun name _ ⟨hname, hin⟩ => ?_
  refine Spec.mono (Spec.imp (questionFields_spec m o name) ?_) (by decide) (by omega) (by decide)
  rintro ⟨q, k⟩ ⟨rfl, ht, hk, hcons, hend⟩
  exact ⟨⟨hname, ht, hk⟩, hcons, hend⟩

theorem decodeRecord_spec :
    Spec (nameCauses ++ recordCauses) (max o m.length) 65535
      (fun x => (m.length ≤ p.bufMax → x.1.OK p) ∧ x.2 = x.1.name.consumed + Config.rrFixed + x.1.rdlength.toNat ∧
        o + x.2 = x.1.rdoff + x.1.rdlength.toNat ∧ o + x.2 ≤ m.length) (decodeRecord p m o) := by
  refine Spec.bind (Spec.mono (decodeName_spec p m o) (by decide) le_rfl (by decide)) fun name _ ⟨hname, hin⟩ => ?_
  refine Spec.mono (Spec.imp (recordFields_spec m o name) ?_) (by decide) (by omega) (by decide)
  rintro ⟨r, k⟩ ⟨rfl, httl, ha, hcons, hrd, hend⟩
  exact ⟨fun hm => ⟨hname, httl, ha, (hrd.ge.trans hend).trans hm⟩, hcons, hrd, hend⟩

end

/-! ## The header (R151, R158) -/

/-- The errors of the header decode (R158). -/
def headerCauses : List (ErrKind × ErrField) :=
  [(.tooShort, .hdrLen), (.invalidValue, .hdrLen), (.invalidValue, .hdrOpcode), (.inconsistentFields, .hdrAa),
   (.invalidValue, .hdrZ), (.invalidValue, .hdrRcode)]

theorem checkHeader_spec (h : Header) : Spec headerCauses 3 12 (fun h' => h' = h ∧ h.Valid) (checkHeader h) := by
  refine spec_check (by decide) (by decide) (by decide) fun ho => ?_
  refine spec_check (by decide) (by decide) (by decide) fun ha => ?_
  refine spec_check (by decide) (by decide) (by decide) fun hz => ?_
  refine spec_check (by decide) (by decide) (by decide) fun hr => ?_
  exact ⟨rfl, Nat.not_lt.1 ho, not_not.1 hz, Nat.not_lt.1 hr, ha⟩

theorem decodeHeader_spec (m : List Byte) :
    Spec headerCauses 3 12 (fun h => m.length = 12 ∧ h = unpackHeader m ∧ h.Valid) (decodeHeader m) := by
  refine spec_check (by decide) (by decide) (by decide) fun hs => ?_
  refine spec_check (by decide) (by decide) (by decide) fun hl => ?_
  refine Spec.imp (checkHeader_spec _) ?_
  rintro h ⟨rfl, hv⟩
  exact ⟨Nat.le_antisymm (Nat.not_lt.1 hl) (Nat.not_lt.1 hs), rfl, hv⟩

theorem headerOfMessage_spec (m : List Byte) :
    Spec headerCauses 3 12 (fun h => 12 ≤ m.length ∧ h.Valid) (headerOfMessage m) := by
  refine spec_check (by decide) (by decide) (by decide) fun hs => ?_
  exact Spec.imp (decodeHeader_spec _) fun h ⟨_, _, hv⟩ => ⟨Nat.not_lt.1 hs, hv⟩

/-! ## The sections and the message (R231, R239) -/

/-- A section's items are good, as many as are due, and end inside the message. -/
theorem countedLoop_spec {α : Type} {dec : ItemDecode α} {m : List Byte} {causes : List (ErrKind × ErrField)} {Q : α → Prop}
    (hc : (.countMismatch, .msgCount) ∈ causes)
    (hdec : ∀ off < m.length, Spec causes m.length 65535 (fun x => Q x.1 ∧ off + x.2 ≤ m.length) (dec m off))
    (n : Nat) {off : Nat} {acc : List α} (hacc : ∀ x ∈ acc, Q x) (hoff : off ≤ m.length) :
    Spec causes m.length 65535
      (fun r => (∀ x ∈ r.1, Q x) ∧ r.1.length = acc.length + n ∧ off ≤ r.2 ∧ r.2 ≤ m.length)
      (countedLoop dec n m off acc) := by
  induction n generalizing off acc with
  | zero => exact ⟨hacc, rfl, le_rfl, hoff⟩
  | succ n ih =>
    refine spec_check hc hoff (by decide) fun hlt => ?_
    refine Spec.bind (hdec off (Nat.not_le.1 hlt)) fun x _ ⟨hx, hend⟩ => ?_
    have hacc' : ∀ y ∈ acc ++ [x.1], Q y := by
      intro y hy
      obtain hy | hy := List.mem_append.1 hy
      · exact hacc y hy
      · cases List.mem_singleton.1 hy
        exact hx
    refine Spec.imp (ih hacc' hend) ?_
    rintro r ⟨hr, hlen, hle, hin⟩
    refine ⟨hr, ?_, (Nat.le_add_right _ _).trans hle, hin⟩
    rw [hlen, List.length_append, List.length_singleton]
    omega

/-- The errors of MSG (R239, R235). -/
def messageCauses : List (ErrKind × ErrField) :=
  headerCauses ++ (nameCauses ++ (questionCauses ++ (recordCauses ++ [(.countMismatch, .msgCount)])))

theorem decodeMessage_spec (p : Config.Params) (m : List Byte) :
    Spec messageCauses (max 3 m.length) 65535
      (fun x => x.1.header.Valid ∧ (m.length ≤ p.bufMax → x.1.store.OK p) ∧ x.1.store.Counted x.1.header ∧
        Config.hdrBytes ≤ x.2 ∧ x.2 ≤ m.length) (decodeMessage p m) := by
  have question (off : Nat) (h : off < m.length) :
      Spec messageCauses m.length 65535 (fun x => x.1.OK p ∧ off + x.2 ≤ m.length) (decodeQuestion p m off) :=
    Spec.imp (Spec.mono (decodeQuestion_spec p m off) (by decide) (by omega) le_rfl) fun x hx => ⟨hx.1, hx.2.2⟩
  have record (off : Nat) (h : off < m.length) :
      Spec messageCauses m.length 65535 (fun x => (m.length ≤ p.bufMax → x.1.OK p) ∧ off + x.2 ≤ m.length)
        (decodeRecord p m off) :=
    Spec.imp (Spec.mono (decodeRecord_spec p m off) (by decide) (by omega) le_rfl) fun x hx => ⟨hx.1, hx.2.2.2⟩
  have records (n : Nat) {off : Nat} (hoff : off ≤ m.length) :=
    Spec.mono (countedLoop_spec (Q := fun r => m.length ≤ p.bufMax → Record.OK p r) (by decide) record n (acc := []) (by simp) hoff)
      (List.Subset.refl _) (Nat.le_max_right 3 _) le_rfl
  rw [decodeMessage_eq]
  refine Spec.bind (Spec.mono (headerOfMessage_spec m) (by decide) (by omega) (by decide)) fun h _ ⟨h12, hv⟩ => ?_
  refine Spec.bind (Spec.mono (countedLoop_spec (by decide) question h.qdcount.toNat (acc := []) (by simp) h12)
    (List.Subset.refl _) (Nat.le_max_right 3 _) le_rfl) fun qs _ ⟨hq, hql, hqs, hqe⟩ => ?_
  refine Spec.bind (records h.ancount.toNat hqe) fun ans _ ⟨ha, hal, has, hae⟩ => ?_
  refine Spec.bind (records h.nscount.toNat hae) fun auth _ ⟨hu, hul, hus, hue⟩ => ?_
  refine Spec.bind (records h.arcount.toNat hue) fun adds _ ⟨hd, hdl, hds, hde⟩ => ?_
  simp only [List.length_nil, Nat.zero_add] at hql hal hul hdl
  exact ⟨hv, fun hm => ⟨hq, fun r hr => ha r hr hm, fun r hr => hu r hr hm, fun r hr => hd r hr hm⟩,
    ⟨hql, hal, hul, hdl⟩, by simp only [Config.hdrBytes]; omega, hde⟩

/-! ## Every command -/

/-- The errors a command can raise (60_exceptions.md R266); the octet classes are no commands. -/
def commandCauses : Instr → List (ErrKind × ErrField)
  | .rd8 _ | .rd16 _ | .rd32 _ => [(.tooShort, .raw)]
  | .hdr => headerCauses
  | .name _ => nameCauses
  | .ques _ => nameCauses ++ questionCauses
  | .rr _ => nameCauses ++ recordCauses
  | .msg => messageCauses
  | .octTerm | .octLabel _ | .octRsv01 _ | .octRsv10 _ | .octPtr _ => []

/-- The least offset that a command's errors can be bound by, its message apart: its OFFSET, or the last byte of the header
that has a check of its own. -/
def commandOffset : Instr → Nat
  | .rd8 off | .rd16 off | .rd32 off | .name off | .ques off | .rr off => off
  | .hdr | .msg => 3
  | .octTerm | .octLabel _ | .octRsv01 _ | .octRsv10 _ | .octPtr _ => 0

theorem readRaw_spec {m : List Byte} {n off : Nat} (hn : n ≤ 65535) :
    Spec [(.tooShort, .raw)] (max off m.length) 65535 (fun r => ∃ v, r = .raw v) (readRaw m n off) := by
  refine Spec.bind (spec_memRead (by decide) (Nat.le_max_left _ _) hn) fun v _ _ => ?_
  exact ⟨_, rfl⟩

/-- What a command's decode returns is a result, good where BUF_LEN is in its range. -/
def GoodResult (p : Config.Params) (m : List Byte) (r : Result) : Prop := r ≠ .none ∧ (m.length ≤ p.bufMax → r.OK p)

theorem decodeOf_spec (p : Config.Params) (m : List Byte) {i : Instr} {x : Except Stop Result}
    (h : decodeOf p m i = some x) : Spec (commandCauses i) (max (commandOffset i) m.length) 65535 (GoodResult p m) x := by
  cases i with
  | rd8 off | rd16 off | rd32 off =>
    cases h
    refine Spec.imp (readRaw_spec (by decide)) ?_
    rintro _ ⟨v, rfl⟩
    exact ⟨nofun, fun _ => trivial⟩
  | hdr =>
    cases h
    exact Spec.map (Spec.mono (decodeHeader_spec m) (List.Subset.refl _) (Nat.le_max_left _ _) (by decide))
      fun h ⟨_, _, hv⟩ => ⟨nofun, fun _ => hv⟩
  | name off =>
    cases h
    exact Spec.map (Spec.mono (decodeName_spec p m off) (List.Subset.refl _) le_rfl (by decide))
      fun n hn => ⟨nofun, fun _ => hn.1⟩
  | ques off =>
    cases h
    exact Spec.map (decodeQuestion_spec p m off) fun x hx => ⟨nofun, fun _ => ⟨hx.1, hx.2.1⟩⟩
  | rr off =>
    cases h
    exact Spec.map (decodeRecord_spec p m off) fun x hx => ⟨nofun, fun hm => ⟨hx.1 hm, hx.2.1⟩⟩
  | msg =>
    cases h
    exact Spec.map (decodeMessage_spec p m) fun x ⟨hv, hs, hc, hl, he⟩ =>
      ⟨nofun, fun hm => ⟨hv, hs hm, hc, hl, he.trans hm⟩⟩
  | octTerm | octLabel | octRsv01 | octRsv10 | octPtr => cases h

theorem kind_ne_noError (i : Instr) : ∀ c ∈ commandCauses i, c.1 ≠ .noError := by
  cases i with
  | rd8 | rd16 | rd32 => exact (by decide : ∀ c ∈ [(ErrKind.tooShort, ErrField.raw)], c.1 ≠ .noError)
  | hdr => exact (by decide : ∀ c ∈ headerCauses, c.1 ≠ .noError)
  | name => exact (by decide : ∀ c ∈ nameCauses, c.1 ≠ .noError)
  | ques => exact (by decide : ∀ c ∈ nameCauses ++ questionCauses, c.1 ≠ .noError)
  | rr => exact (by decide : ∀ c ∈ nameCauses ++ recordCauses, c.1 ≠ .noError)
  | msg => exact (by decide : ∀ c ∈ messageCauses, c.1 ≠ .noError)
  | octTerm | octLabel | octRsv01 | octRsv10 | octPtr => exact fun c hc => absurd hc List.not_mem_nil

/-! ## The statements -/

/-- Settles O15: a command ends its decode, which never is unfinished, returns a result, and raises none but its own errors. -/
theorem everyCommandEnds : Obligations.EveryCommandEnds := by
  intro i s hi
  obtain ⟨x, hx, he⟩ := exec_command hi s
  have hspec := decodeOf_spec s.params s.message hx
  rw [he]
  cases x with
  | ok r => exact ⟨s.complete r, rfl, rfl, .inl ⟨rfl, hspec.1, rfl⟩⟩
  | error e =>
    obtain ⟨k, f, off, w, rfl, hkf, -⟩ := hspec
    exact ⟨s.raise k f off w, rfl, rfl, .inr ⟨rfl, rfl, kind_ne_noError i _ hkf⟩⟩

/-- Where a command ends with an error, it is one of its own. -/
theorem exists_cause_of_exec {i : Instr} (hi : i.isCommand = true) {s t : State} (ht : t.status = .doneError)
    (he : exec i s = .next t) : ∃ f, (t.errKind, f) ∈ commandCauses i := by
  obtain ⟨r, -, rfl⟩ | ⟨k, f, off, w, hx, rfl⟩ := exec_command_cases hi he
  · cases ht
  · obtain ⟨_, _, _, _, heq, hkf, -⟩ := decodeOf_spec s.params s.message hx
    cases heq
    exact ⟨f, hkf⟩

/-- Settles O20: the kinds in each command's list of errors. -/
theorem kindsEachCommandReports : Obligations.KindsEachCommandReports := by
  intro s t off ht
  have kind {i : Instr} {K : ErrKind → Prop} (he : exec i s = .next t) (hi : i.isCommand = true)
      (hK : ∀ c ∈ commandCauses i, K c.1) : K t.errKind := by
    obtain ⟨f, hf⟩ := exists_cause_of_exec hi ht he
    exact hK _ hf
  have raw : ∀ c ∈ [(ErrKind.tooShort, ErrField.raw)], c.1 = .tooShort := by decide
  have name : ∀ c ∈ nameCauses ++ questionCauses,
      c.1 ∈ [ErrKind.tooShort, .outOfBounds, .invalidValue, .invalidLabelSyntax, .recursivePointer] := by decide
  have rr : ∀ c ∈ nameCauses ++ recordCauses, c.1 ∈ [ErrKind.tooShort, .outOfBounds, .invalidValue, .invalidLabelSyntax,
      .recursivePointer, .inconsistentFields] := by decide
  refine ⟨?_, fun h => kind (K := (· ∈ _)) h rfl (by decide : ∀ c ∈ headerCauses, _), ?_,
    fun h => kind (K := (· ∈ _)) h rfl rr,
    fun h => kind (K := fun k => k ≠ .noError ∧ k ≠ .illegalCommand) h rfl (by decide : ∀ c ∈ messageCauses, _)⟩
  · rintro (h | h | h)
    · exact kind (K := (· = _)) h rfl raw
    · exact kind (K := (· = _)) h rfl raw
    · exact kind (K := (· = _)) h rfl raw
  · rintro (h | h)
    · exact kind (K := (· ∈ _)) h rfl fun c hc => name c (List.mem_append_left _ hc)
    · exact kind (K := (· ∈ _)) h rfl name

/-- Settles O21: each decode's bounds on the offset and the width of what it raises. -/
theorem raisedOffsetsAndWidthsFit : Obligations.RaisedOffsetsAndWidthsFit := by
  rintro p m o k f off w ⟨h12, haw⟩ hm ho h
  have hm : m.length < 2 ^ p.aw := hm.trans_lt haw
  have fits {causes : List (ErrKind × ErrField)} {lim wid : Nat} {α : Type} {Q : α → Prop} {x : Except Stop α}
      (hs : Spec causes lim wid Q x) (hl : lim < 2 ^ p.aw) (hw : wid ≤ 65535) (he : x = .error (.raise k f off w)) :
      off < 2 ^ p.aw ∧ w ≤ 65535 := by
    obtain ⟨_, _, _, _, heq, -, hoff, hwid⟩ := Spec.of_error hs he
    cases heq
    exact ⟨hoff.trans_lt hl, hwid.trans hw⟩
  obtain h | h | h | h | h | ⟨n, hn, h⟩ := h
  · exact fits (decodeHeader_spec m) (by omega) (by decide) h
  · exact fits (decodeName_spec p m o) (max_lt ho hm) (by decide) h
  · exact fits (decodeQuestion_spec p m o) (max_lt ho hm) le_rfl h
  · exact fits (decodeRecord_spec p m o) (max_lt ho hm) le_rfl h
  · exact fits (decodeMessage_spec p m) (max_lt (by omega) hm) le_rfl h
  · exact fits (spec_memRead (causes := [(.tooShort, .raw)]) (by decide) le_rfl le_rfl) ho (by omega) h

end Sys2Proof.Machine.CommandProofs

/-! SUPPORT. What a turn of the engine inside a command answers, said once for every place the engine can stand in, and the
invariants of the block that follow from it (10_state.md R24 to R27, 45_message.md R240, 70_reset_and_hazards.md R311). -/

namespace Sys2Proof.Machine.EngineProofs

open Sys2Proof.Machine.Laws Sys2Proof.Machine.StateProofs Sys2Proof.Machine.HeaderProofs Sys2Proof.Machine.NameProofs
  Sys2Proof.Machine.MessageProofs Sys2Proof.Machine.RoundTripProofs Sys2Proof.Machine.HostProofs
  Sys2Proof.Machine.RegisterProofs Sys2Proof.Machine.SpecProofs Sys2Proof.Machine.NamePassProofs
  Sys2Proof.Machine.NameInvariantProofs Sys2Proof.Machine.CommandProofs

/-- What the engine's values rest on: parameters and BUF_LEN in their ranges, and the engine's own state as it should be. -/
structure InRange (s : State) : Prop where
  params : s.params.Valid
  bufLen : s.bufLen ≤ s.params.bufMax
  engine : s.engine.OK s.params s.message

/-- All that a turn of the engine inside a command answers: never a fault or a refusal. -/
inductive Answer (s : State) : Host.Outcome State Fault Refusal → Prop
  | complete {r : Result} (hr : r ≠ .none) (hok : InRange s → r.OK s.params) : Answer s (.next (s.complete r))
  | raise {k : ErrKind} {f : ErrField} {off w : Nat} (hk : k ≠ .noError) (hoff : InRange s → off < 2 ^ s.params.aw) :
      Answer s (.next (s.raise k f off w))
  | goOn {e : Engine} (he : e ≠ .idle) (hok : InRange s → e.OK s.params s.message) : Answer s (.next (s.withEngine e))

section
variable {s : State}

/-! ## A decode, and what is done with what it returns -/

/-- A decode that raises ends the command; else its value goes on. -/
def after {α : Type} (s : State) (x : Except Stop α) (K : α → Host.Outcome State Fault Refusal) :
    Host.Outcome State Fault Refusal :=
  match x with
  | .ok a => K a
  | .error e => s.stop e

theorem settle_map_eq_after {α : Type} (x : Except Stop α) (g : α → Result) :
    s.settle (x.map g) = after s x (fun a => .next (s.complete (g a))) := by
  cases x <;> rfl

theorem settleWalk_eq_after (task : Task) (x : Except Stop Walk) :
    s.settleWalk task x = after s x (fun w => .next (s.withEngine (.naming w task))) := by
  cases x <;> rfl

theorem openMessage_eq_after (s : State) :
    openMessage s = after s (headerOfMessage s.message)
      (fun h => .next (s.withEngine (.records ⟨h, Config.hdrBytes, .questions, 0, .empty⟩))) := by
  rw [openMessage]
  cases headerOfMessage s.message <;> rfl

theorem finishRecord_questions {c : MsgCtx} (hs : c.sec = .questions) (name : Name) :
    finishRecord c name s = after s (questionFields s.message c.off name)
      (fun x => .next (s.withEngine (.records (c.addQuestion x.1 x.2)))) := by
  simp only [finishRecord, hs]
  cases questionFields s.message c.off name <;> rfl

theorem finishRecord_records {c : MsgCtx} (hs : c.sec ≠ .questions) (name : Name) :
    finishRecord c name s = after s (recordFields s.message c.off name)
      (fun x => .next (s.withEngine (.records (c.addRecord x.1 x.2)))) := by
  unfold finishRecord
  split
  · contradiction
  · cases recordFields s.message c.off name <;> rfl

/-! ## The ends of a decode as answers -/

theorem InRange.message (h : InRange s) : s.message.length ≤ s.params.bufMax := by
  rw [message_length]
  exact h.bufLen

theorem InRange.lt (h : InRange s) {n : Nat} (hn : n ≤ s.message.length) : n < 2 ^ s.params.aw :=
  (hn.trans h.message).trans_lt h.params.2

/-- Causes that are errors. -/
def Errors (causes : List (ErrKind × ErrField)) : Prop := ∀ c ∈ causes, c.1 ≠ .noError

section
variable {α : Type} {causes : List (ErrKind × ErrField)} {lim wid : Nat} {Q : α → Prop} (hc : Errors causes)
  (hl : InRange s → lim < 2 ^ s.params.aw)
include hc hl

theorem answer_stop {e : Stop} (h : Raises causes lim wid e) : Answer s (s.stop e) := by
  obtain ⟨k, f, off, w, rfl, hkf, hoff, -⟩ := h
  exact .raise (hc _ hkf) fun hs => hoff.trans_lt (hl hs)

theorem answer_after {x : Except Stop α} {K : α → Host.Outcome State Fault Refusal} (h : Spec causes lim wid Q x)
    (hK : ∀ a, Q a → Answer s (K a)) : Answer s (after s x K) := by
  cases x with
  | ok a => exact hK a h
  | error e => exact answer_stop hc hl h

theorem answer_settle {x : Except Stop α} {g : α → Result} (h : Spec causes lim wid Q x)
    (hQ : ∀ a, Q a → g a ≠ .none ∧ (InRange s → (g a).OK s.params)) : Answer s (s.settle (x.map g)) := by
  rw [settle_map_eq_after]
  exact answer_after hc hl h fun a ha => .complete (hQ a ha).1 (hQ a ha).2

end

/-! ## Whole commands -/

theorem commandOffset_lt {p : Config.Params} (hp : p.Valid) {i : Instr} (hw : i.wellFormed p = true) :
    commandOffset i < 2 ^ p.aw := by
  obtain ⟨h12, haw⟩ := hp
  cases i with
  | rd8 off | rd16 off | rd32 off | name off | ques off | rr off => exact of_decide_eq_true hw
  | hdr | msg => simp only [commandOffset]; omega
  | octTerm | octLabel | octRsv01 | octRsv10 | octPtr => exact Nat.two_pow_pos _

theorem answer_exec {i : Instr} (hd : decodeCommand s.params s.cmd = some i) : Answer s (exec i s) := by
  obtain ⟨x, hx, he⟩ := exec_command (isCommand_of_decodeCommand hd) s
  have hmap : x = x.map id := by cases x <;> rfl
  rw [he, hmap]
  refine answer_settle (kind_ne_noError i) (fun hs => ?_) (decodeOf_spec s.params s.message hx)
    fun r hr => ⟨hr.1, fun hs => hr.2 hs.message⟩
  exact max_lt (commandOffset_lt hs.params (encode_of_decodeCommand hd).1) (hs.lt le_rfl)

theorem answer_illegal : Answer s (.next (s.raise .illegalCommand .cmd 0 0)) := .raise nofun fun _ => Nat.two_pow_pos _

theorem answer_runCommand : Answer s (runCommand s) := by
  unfold runCommand
  cases hd : decodeCommand s.params s.cmd with
  | some i => exact answer_exec hd
  | none => exact answer_illegal

/-! ## The walk (R171 to R181) -/

theorem walkOK_of_sound {p : Config.Params} {m : List Byte} {w : Walk} (h : Sound p m w)
    (hst : w.st = .readLength ∨ w.st = .done) (hpos : w.pos < 2 ^ p.aw) : w.OK p m := by
  refine ⟨h.labels, h.total, h.count, h.inside, ?_, hpos⟩
  obtain hst | hst := hst <;> rw [Walk.StOK, hst] <;> trivial

theorem sound_of_walkOK {p : Config.Params} {m : List Byte} {w : Walk} (h : w.OK p m) : Sound p m w :=
  ⟨h.labels, h.total, h.count, h.inside⟩

theorem taskOK_congr {p : Config.Params} {m : List Byte} {w w' : Walk} {task : Task} (ho : w'.o = w.o)
    (h : task.OK p w m) : task.OK p w' m := by
  cases task with
  | name | ques | rr => trivial
  | msg c =>
    obtain ⟨hc, hoff, hlt⟩ := h
    exact ⟨hc, ho.trans hoff, hlt⟩

theorem engineOK_start {o : Nat} {task : Task} (ho : o < 2 ^ s.params.aw)
    (ht : task.OK s.params (Walk.start o) s.message) : Engine.OK s.params (.naming (Walk.start o) task) s.message :=
  ⟨walkOK_of_sound (sound_start _ _ o) (.inl rfl) ho, ht⟩

section
variable {w : Walk} {task : Task} (he : s.engine = .naming w task)
include he

theorem InRange.walk (hs : InRange s) : w.OK s.params s.message ∧ task.OK s.params w s.message := by
  have := hs.engine
  rwa [he] at this

/-- A transition of the name state machine, by what its result keeps. -/
theorem answer_settleWalk {x : Except Stop Walk} {causes : List (ErrKind × ErrField)} {lim wid : Nat}
    (h : Spec causes lim wid (fun w' => x = .ok w') x) (hc : Errors causes) (hl : InRange s → lim < 2 ^ s.params.aw)
    (hw : ∀ w', x = .ok w' → w'.o = w.o ∧ (w'.st = .readLength ∨ w'.st = .done) ∧ w'.pos ≤ s.message.length ∧
      (InRange s → Sound s.params s.message w')) : Answer s (s.settleWalk task x) := by
  rw [settleWalk_eq_after]
  refine answer_after hc hl h fun w' hx => ?_
  obtain ⟨ho, hst, hpos, hsound⟩ := hw w' hx
  exact .goOn nofun fun hs => ⟨walkOK_of_sound (hsound hs) hst (hs.lt hpos), taskOK_congr ho (hs.walk he).2⟩

theorem answer_readLength (hst : w.st = .readLength) : Answer s (readLength w s) := by
  have hd : w.st ≠ .done := by rw [hst]; nofun
  rw [readLength_eq_pass he hst]
  refine answer_settleWalk he namePass_spec (kind_ne_noError (.name 0)) (fun hs => ?_) fun w' hp => ?_
  · exact max_lt (hs.walk he).1.fits (hs.lt le_rfl)
  · refine ⟨o_of_namePass hp, ?_, pos_of_namePass hp, fun hs => (sound_of_walkOK (hs.walk he).1).namePass hd hp⟩
    exact (passesLeft_of_namePass hp).symm.imp_left And.left

theorem answer_readLabel {len : Nat} (hst : w.st = .readLabel len) :
    Answer s (s.settleWalk task (w.readLabel s.params s.message len)) := by
  have hd : w.st ≠ .done := by rw [hst]; nofun
  have range (hs : InRange s) : 1 ≤ len ∧ len ≤ 63 ∧ w.pos < s.message.length := by
    have := (hs.walk he).1.st
    rwa [Walk.StOK, hst] at this
  refine answer_settleWalk he (readLabel_spec len) (by unfold Errors; decide) (fun hs => hs.lt (range hs).2.2) fun w' hr => ?_
  refine ⟨o_of_readLabel hr, .inl (st_of_readLabel hr), ?_, fun hs => ?_⟩
  · obtain ⟨hin, -, -, rfl⟩ := readLabel_eq_ok_iff.1 hr
    simp only [appended]
    omega
  · exact (sound_of_walkOK (hs.walk he).1).readLabel hd (range hs).1 (range hs).2.1 hr

theorem answer_followPointer {target at_ : Nat} (hst : w.st = .followPointer target at_) :
    Answer s (s.settleWalk task (w.followPointer s.message target at_)) := by
  have hd : w.st ≠ .done := by rw [hst]; nofun
  have range (hs : InRange s) : at_ = w.pos ∧ w.pos + 2 ≤ s.message.length := by
    have := (hs.walk he).1.st
    rwa [Walk.StOK, hst] at this
  refine answer_settleWalk he (followPointer_spec target at_) (by unfold Errors; decide) (fun hs => ?_) fun w' hf => ?_
  · rw [(range hs).1]
    exact (hs.walk he).1.fits
  refine ⟨o_of_followPointer hf, .inl (st_of_followPointer hf), ?_, fun hs => ?_⟩
  · obtain ⟨-, -, hlt, rfl⟩ := followPointer_eq_ok_iff.1 hf
    exact hlt.le
  · rw [(range hs).1] at hf
    exact (sound_of_walkOK (hs.walk he).1).followPointer hd (range hs).2 hf

end

/-! ## The sections of a message (R232, R234, R240) -/

section
variable {p : Config.Params} {m : List Byte} {c : MsgCtx}

theorem filled_next {sec : Section} (h : c.Filled) (hfull : ¬c.index < c.count) (hn : c.sec.next = some sec) :
    MsgCtx.Filled { c with sec := sec, index := 0 } := by
  have hc : c.count ≤ c.index := Nat.not_lt.1 hfull
  obtain ⟨header, off, sec', index, store⟩ := c
  cases sec' with
  | questions =>
    cases hn
    obtain ⟨hq, hle, ha, hu, hd⟩ := h
    exact ⟨hq.trans (Nat.le_antisymm hle hc), congrArg List.length ha, Nat.zero_le _, hu, hd⟩
  | answers =>
    cases hn
    obtain ⟨hq, ha, hle, hu, hd⟩ := h
    exact ⟨hq, ha.trans (Nat.le_antisymm hle hc), congrArg List.length hu, Nat.zero_le _, hd⟩
  | authorities =>
    cases hn
    obtain ⟨hq, ha, hu, hle, hd⟩ := h
    exact ⟨hq, ha, hu.trans (Nat.le_antisymm hle hc), congrArg List.length hd, Nat.zero_le _⟩
  | additionals => cases hn

theorem counted_of_filled (h : c.Filled) (hfull : ¬c.index < c.count) (hn : c.sec.next = none) :
    c.store.Counted c.header := by
  obtain ⟨header, off, sec', index, store⟩ := c
  cases sec' <;> cases hn
  obtain ⟨hq, ha, hu, hd, hle⟩ := h
  exact ⟨hq, ha, hu, hd.trans (Nat.le_antisymm hle (Nat.not_lt.1 hfull))⟩

theorem filled_addQuestion {q : Question} {k : Nat} (h : c.Filled) (hs : c.sec = .questions) (hi : c.index < c.count) :
    (c.addQuestion q k).Filled := by
  obtain ⟨header, off, sec', index, store⟩ := c
  cases hs
  obtain ⟨hq, -, hrest⟩ := h
  exact ⟨by simp [MsgCtx.addQuestion, hq], hi, hrest⟩

theorem filled_addRecord {r : Record} {k : Nat} (h : c.Filled) (hs : c.sec ≠ .questions) (hi : c.index < c.count) :
    (c.addRecord r k).Filled := by
  obtain ⟨header, off, sec', index, store⟩ := c
  cases sec' <;> simp_all [MsgCtx.Filled, MsgCtx.addRecord, MsgCtx.count]

theorem storeOK_addQuestion {q : Question} {k : Nat} (h : c.store.OK p) (hq : q.OK p) : (c.addQuestion q k).store.OK p := by
  obtain ⟨h1, h2, h3, h4⟩ := h
  refine ⟨?_, h2, h3, h4⟩
  simpa [MsgCtx.addQuestion, or_imp, forall_and] using ⟨h1, hq⟩

theorem storeOK_addRecord {r : Record} {k : Nat} (h : c.store.OK p) (hr : r.OK p) : (c.addRecord r k).store.OK p := by
  obtain ⟨header, off, sec', index, store⟩ := c
  obtain ⟨h1, h2, h3, h4⟩ := h
  cases sec' <;> simp_all [MsgCtx.addRecord, MsgStore.OK, or_imp]

theorem ctxOK_addQuestion {q : Question} {k : Nat} (h : c.OK p m) (hs : c.sec = .questions) (hi : c.index < c.count)
    (hq : q.OK p) (hk : c.off + k ≤ m.length) : (c.addQuestion q k).OK p m :=
  ⟨h.header, storeOK_addQuestion h.store hq, filled_addQuestion h.filled hs hi, h.low.trans (Nat.le_add_right _ _), hk⟩

theorem ctxOK_addRecord {r : Record} {k : Nat} (h : c.OK p m) (hs : c.sec ≠ .questions) (hi : c.index < c.count)
    (hr : r.OK p) (hk : c.off + k ≤ m.length) : (c.addRecord r k).OK p m :=
  ⟨h.header, storeOK_addRecord h.store hr, filled_addRecord h.filled hs hi, h.low.trans (Nat.le_add_right _ _), hk⟩

theorem ctxOK_open {h : Header} (hv : h.Valid) (h12 : 12 ≤ m.length) :
    MsgCtx.OK p ⟨h, Config.hdrBytes, .questions, 0, .empty⟩ m :=
  ⟨hv, by simp [MsgStore.OK, MsgStore.empty], ⟨rfl, Nat.zero_le _, rfl, rfl, rfl⟩, le_rfl, h12⟩

end

theorem answer_recordsTop {c : MsgCtx} (he : s.engine = .records c) : Answer s (recordsTop c s) := by
  have ctx (hs : InRange s) : c.OK s.params s.message := by
    have := hs.engine
    rwa [he] at this
  unfold recordsTop
  split_ifs with hi hend
  · exact .raise nofun fun hs => hs.lt (ctx hs).high
  · exact .goOn nofun fun hs => engineOK_start (hs.lt (ctx hs).high) ⟨ctx hs, rfl, hi⟩
  · cases hn : c.sec.next with
    | some sec =>
      refine .goOn nofun fun hs => ?_
      obtain ⟨hh, hst, hf, hlow, hhigh⟩ := ctx hs
      exact ⟨hh, hst, filled_next hf hi hn, hlow, hhigh⟩
    | none =>
      refine .complete nofun fun hs => ?_
      obtain ⟨hh, hst, hf, hlow, hhigh⟩ := ctx hs
      exact ⟨hh, hst, counted_of_filled hf hi hn, hlow, hhigh.trans hs.message⟩

/-! ## Done (R185) -/

theorem errors_question : Errors questionCauses := by unfold Errors; decide
theorem errors_record : Errors recordCauses := by unfold Errors; decide

section
variable {o : Nat} {name : Name} (hname : InRange s → name.OK s.params ∧ o + name.consumed ≤ s.message.length)
include hname

theorem InRange.fieldsLimit (hs : InRange s) : max (o + name.consumed) s.message.length < 2 ^ s.params.aw := by
  rw [max_eq_right (hname hs).2]
  exact hs.lt le_rfl

theorem answer_questionFields {K : Question × Nat → Host.Outcome State Fault Refusal}
    (hK : ∀ x, (InRange s → x.1.OK s.params) → x.2 = x.1.name.consumed + Config.qFixed → o + x.2 ≤ s.message.length →
      Answer s (K x)) : Answer s (after s (questionFields s.message o name) K) := by
  refine answer_after errors_question (fun hs => hs.fieldsLimit hname) (questionFields_spec s.message o name) ?_
  rintro x ⟨rfl, ht, hk, hcons, hend⟩
  exact hK x (fun hs => ⟨(hname hs).1, ht, hk⟩) hcons hend

theorem answer_recordFields {K : Record × Nat → Host.Outcome State Fault Refusal}
    (hK : ∀ x, (InRange s → x.1.OK s.params) → x.2 = x.1.name.consumed + Config.rrFixed + x.1.rdlength.toNat →
      o + x.2 ≤ s.message.length → Answer s (K x)) : Answer s (after s (recordFields s.message o name) K) := by
  refine answer_after errors_record (fun hs => hs.fieldsLimit hname) (recordFields_spec s.message o name) ?_
  rintro x ⟨rfl, httl, ha, hcons, hrd, hend⟩
  exact hK x (fun hs => ⟨(hname hs).1, httl, ha, (hrd.ge.trans hend).trans hs.message⟩) hcons hend

end

theorem answer_finishRecord {c : MsgCtx} {name : Name}
    (hname : InRange s → name.OK s.params ∧ c.off + name.consumed ≤ s.message.length)
    (hctx : InRange s → c.OK s.params s.message ∧ c.index < c.count) : Answer s (finishRecord c name s) := by
  by_cases hsec : c.sec = .questions
  · rw [finishRecord_questions hsec]
    exact answer_questionFields hname fun x hx _ hend =>
      .goOn nofun fun hs => ctxOK_addQuestion (hctx hs).1 hsec (hctx hs).2 (hx hs) hend
  · rw [finishRecord_records hsec]
    exact answer_recordFields hname fun x hx _ hend =>
      .goOn nofun fun hs => ctxOK_addRecord (hctx hs).1 hsec (hctx hs).2 (hx hs) hend

theorem answer_deliver {w : Walk} {task : Task} (he : s.engine = .naming w task) (hst : w.st = .done) :
    Answer s (deliver w task s) := by
  have hname (hs : InRange s) : w.name.OK s.params ∧ w.o + w.name.consumed ≤ s.message.length :=
    (sound_of_walkOK (hs.walk he).1).name_ok hst
  cases task with
  | name => exact .complete nofun fun hs => (hname hs).1
  | ques =>
    rw [deliver, settle_map_eq_after]
    exact answer_questionFields hname fun x hx hcons _ => .complete nofun fun hs => ⟨hx hs, hcons⟩
  | rr =>
    rw [deliver, settle_map_eq_after]
    exact answer_recordFields hname fun x hx hcons _ => .complete nofun fun hs => ⟨hx hs, hcons⟩
  | msg c =>
    refine answer_finishRecord (fun hs => ?_) fun hs => ?_
    · obtain ⟨-, hoff, -⟩ := (hs.walk he).2
      exact hoff ▸ hname hs
    · obtain ⟨hc, -, hi⟩ := (hs.walk he).2
      exact ⟨hc, hi⟩

/-! ## The turn -/

theorem answer_openCommand {i : Instr} (hd : decodeCommand s.params s.cmd = some i) : Answer s (openCommand i s) := by
  have offset (hs : InRange s) : commandOffset i < 2 ^ s.params.aw :=
    commandOffset_lt hs.params (encode_of_decodeCommand hd).1
  cases i with
  | name off | ques off | rr off => exact .goOn nofun fun hs => engineOK_start (offset hs) trivial
  | msg =>
    rw [openCommand, openMessage_eq_after]
    exact answer_after (kind_ne_noError .hdr) offset (headerOfMessage_spec s.message)
      fun h ⟨h12, hv⟩ => .goOn nofun fun _ => ctxOK_open hv h12
  | rd8 | rd16 | rd32 | hdr => exact answer_exec hd
  | octTerm | octLabel | octRsv01 | octRsv10 | octPtr => cases isCommand_of_decodeCommand hd

theorem answer_openAccepted : Answer s (openAccepted s) := by
  unfold openAccepted
  cases hd : decodeCommand s.params s.cmd with
  | some i => exact answer_openCommand hd
  | none => exact answer_illegal

theorem answer_nameTick {w : Walk} {task : Task} (he : s.engine = .naming w task) : Answer s (nameTick w task s) := by
  unfold nameTick
  split
  case h_1 hst => exact answer_readLength he hst
  case h_2 hst => exact answer_readLabel he hst
  case h_3 hst => exact answer_followPointer he hst
  case h_4 hst => exact answer_deliver he hst

theorem answer_engineTick (hi : s.engine ≠ .idle) : Answer s (engineTick s) := by
  unfold engineTick
  split
  case h_1 he => exact absurd he hi
  case h_2 => exact answer_openAccepted
  case h_3 he => exact answer_nameTick he
  case h_4 he => exact answer_recordsTop he

theorem answer_engineTurn (hi : s.engine ≠ .idle) : Answer s (engineTurn s) := by
  unfold engineTurn
  split
  case h_1 => exact answer_runCommand
  all_goals exact answer_engineTick hi

theorem engineTick_idle (he : s.engine = .idle) : engineTick s = .next s := by
  simp only [engineTick, he]

theorem engineTurn_idle (he : s.engine = .idle) : engineTurn s = .next s := by
  simp only [engineTurn, he, engineTick_idle he]

/-- A turn of the engine: nothing where it is idle, else an answer. -/
theorem engineTurn_answers {t : State} (h : engineTurn s = .next t) :
    t = s ∧ s.engine = .idle ∨ s.engine ≠ .idle ∧ Answer s (.next t) := by
  by_cases he : s.engine = .idle
  · rw [engineTurn_idle he] at h
    cases h
    exact .inl ⟨rfl, he⟩
  · exact .inr ⟨he, h ▸ answer_engineTurn he⟩

theorem engineTick_answers {t : State} (h : engineTick s = .next t) :
    t = s ∧ s.engine = .idle ∨ s.engine ≠ .idle ∧ Answer s (.next t) := by
  by_cases he : s.engine = .idle
  · rw [engineTick_idle he] at h
    cases h
    exact .inl ⟨rfl, he⟩
  · exact .inr ⟨he, h ▸ answer_engineTick he⟩

theorem Answer.exists_next {o : Host.Outcome State Fault Refusal} (h : Answer s o) : ∃ t, o = .next t := by
  cases h with
  | complete | raise | goOn => exact ⟨_, rfl⟩

theorem exists_next_engineTick (s : State) : ∃ t, engineTick s = .next t := by
  by_cases he : s.engine = .idle
  · exact ⟨s, engineTick_idle he⟩
  · exact (answer_engineTick he).exists_next

theorem exists_next_engineTurn (s : State) : ∃ t, engineTurn s = .next t := by
  by_cases he : s.engine = .idle
  · exact ⟨s, engineTurn_idle he⟩
  · exact (answer_engineTurn he).exists_next

end
end Sys2Proof.Machine.EngineProofs

/-! SUPPORT. The invariants of the block: control, and all of it (10_state.md R24 to R27, 45_message.md R240). -/

namespace Sys2Proof.Machine.InvariantProofs

open Sys2Proof.Machine.Laws Sys2Proof.Machine.StateProofs Sys2Proof.Machine.MessageProofs Sys2Proof.Machine.HostProofs
  Sys2Proof.Machine.RegisterProofs Sys2Proof.Machine.NamePassProofs Sys2Proof.Machine.EngineProofs

/-! ## Control -/

section
variable {s t : State}

theorem controlOK_complete {r : Result} (hr : r ≠ .none) : (s.complete r).ControlOK :=
  { statusLegal := rfl
    busyIff := by simp [Status.doneOk]
    errIff := by simp [Status.doneOk]
    errZero := fun _ => ⟨rfl, rfl, rfl⟩
    resultIff := by simpa using hr }

theorem controlOK_raise {k : ErrKind} {f : ErrField} {off w : Nat} (hk : k ≠ .noError) : (s.raise k f off w).ControlOK :=
  { statusLegal := rfl
    busyIff := by simp [Status.doneError]
    errIff := by simpa [Status.doneError] using hk
    errZero := nofun
    resultIff := by simp [Status.doneError, Status.doneOk] }

theorem controlOK_withEngine {e : Engine} (h : s.ControlOK) (hs : s.engine ≠ .idle) (he : e ≠ .idle) :
    (s.withEngine e).ControlOK :=
  { h with busyIff := ⟨fun _ => he, fun _ => h.busyIff.2 hs⟩ }

theorem controlOK_accept (w : Word) : (s.accept w).ControlOK :=
  { statusLegal := rfl
    busyIff := by simp [Status.running]
    errIff := by simp [Status.running]
    errZero := fun _ => ⟨rfl, rfl, rfl⟩
    resultIff := by simp [Status.running, Status.doneOk] }

theorem controlOK_hardReset : s.hardReset.ControlOK :=
  { statusLegal := rfl
    busyIff := by simp [Status.idleFresh]
    errIff := by simp [Status.idleFresh]
    errZero := fun _ => ⟨rfl, rfl, rfl⟩
    resultIff := by simp [Status.idleFresh, Status.doneOk] }

theorem Answer.control (ha : Answer s (.next t)) (h : s.ControlOK) (hs : s.engine ≠ .idle) : t.ControlOK := by
  cases ha with
  | complete hr => exact controlOK_complete hr
  | raise hk => exact controlOK_raise hk
  | goOn he => exact controlOK_withEngine h hs he

/-- Settles O50: what ends a command writes all of the control state, what goes on inside it keeps it, and of the host's moves
only START and the reset write it. -/
theorem stepKeepsControl : Obligations.StepKeepsControl := by
  intro s t h hstep
  obtain ⟨-, he⟩ | ⟨mv, rest, -, hd⟩ := step_did hstep
  · obtain ⟨rfl, -⟩ | ⟨hi, ha⟩ := engineTurn_answers he
    · exact h
    · exact Answer.control ha h hi
  have hrest : (s.withHost rest).ControlOK := { h with }
  cases hd with
  | started => exact controlOK_accept _
  | wasReset => exact controlOK_hardReset
  | ticked ht =>
    obtain ⟨rfl, -⟩ | ⟨hi, ha⟩ := engineTick_answers ht
    · exact hrest
    · exact Answer.control ha hrest hi
  | dropped | loaded | wroteByte | wroteLen | saw | waited => exact { hrest with }

/-! ## The parameters -/

/-- No step changes the parameters (00_scope.md R8, log 8). -/
theorem params_of_step (h : step s = .next t) : t.params = s.params := by
  obtain ⟨-, he⟩ | ⟨mv, rest, -, hd⟩ := step_did h
  · exact (moved_engineTurn he).keeps.1
  cases hd with
  | ticked ht => exact (moved_engineTick ht).keeps.1
  | dropped | loaded | wroteByte | wroteLen | started | saw | wasReset | waited => rfl

/-! ## All of it -/

/-- The part of the invariant that is about values: the result's, the engine's, ERR_OFFSET's. -/
structure ValuesOK (p : Config.Params) (s : State) : Prop where
  result : s.result.OK p
  engine : s.engine.OK p s.message
  errFits : s.errOffset < 2 ^ p.aw

theorem inRange_of_inv (h : s.Inv) : InRange s := ⟨h.params, h.memory.2, h.engine⟩

theorem Answer.values (ha : Answer s (.next t)) (h : ValuesOK s.params s) (hs : InRange s) : ValuesOK s.params t := by
  cases ha with
  | complete hr hok => exact ⟨hok hs, trivial, Nat.two_pow_pos _⟩
  | raise hk hoff => exact ⟨trivial, trivial, hoff hs⟩
  | goOn he hok => exact ⟨h.result, hok hs, h.errFits⟩

/-- A write of BUF or BUF_LEN changes the message only, which an idle engine does not hold on to. -/
theorem values_of_idle {p : Config.Params} (h : ValuesOK p s) (hr : t.result = s.result) (he : t.errOffset = s.errOffset)
    (hi : t.engine = .idle) : ValuesOK p t :=
  ⟨hr ▸ h.result, by rw [hi]; trivial, he ▸ h.errFits⟩

theorem valuesOK_of_inv (h : s.Inv) : ValuesOK s.params s := ⟨h.result, h.engine, h.errFits⟩

theorem inv_withHost (h : s.Inv) (moves : List HostMove) : (s.withHost moves).Inv :=
  { params := h.params, control := { h.control with }, memory := h.memory, result := h.result, engine := h.engine,
    errFits := h.errFits }

theorem HostDid.values {mv : HostMove} (hd : HostDid s mv t) (hinv : s.Inv) : ValuesOK s.params t := by
  have h := valuesOK_of_inv hinv
  cases hd with
  | loaded hb | wroteByte hb | wroteLen hb =>
    have hi : s.engine = .idle := engine_idle_of_not_busy hinv.control hb
    exact values_of_idle h rfl rfl hi
  | started => exact ⟨trivial, trivial, Nat.two_pow_pos _⟩
  | wasReset => exact ⟨trivial, trivial, Nat.two_pow_pos _⟩
  | ticked ht =>
    obtain ⟨rfl, -⟩ | ⟨-, ha⟩ := engineTick_answers ht
    · exact h
    · exact Answer.values ha h (inRange_of_inv hinv)
  | dropped | waited => exact h
  | saw => exact ⟨h.result, h.engine, h.errFits⟩

theorem values_of_step (hinv : s.Inv) (h : step s = .next t) : ValuesOK s.params t := by
  obtain ⟨-, he⟩ | ⟨mv, rest, -, hd⟩ := step_did h
  · obtain ⟨rfl, -⟩ | ⟨-, ha⟩ := engineTurn_answers he
    · exact valuesOK_of_inv hinv
    · exact Answer.values ha (valuesOK_of_inv hinv) (inRange_of_inv hinv)
  · exact HostDid.values (s := s.withHost rest) hd (inv_withHost hinv rest)

/-- Settles O52: control (O50), BUF (O51) and the parameters are kept by every step; the values are what the engine's answers
make them, or those of an idle block. -/
theorem stepKeepsTheInvariant : Obligations.StepKeepsTheInvariant := by
  intro s t hinv h
  have hp : t.params = s.params := params_of_step h
  obtain ⟨hr, he, ho⟩ := values_of_step hinv h
  exact
    { params := hp ▸ hinv.params
      control := stepKeepsControl s t hinv.control h
      memory := stepKeepsTheBufferCanonical s t hinv.memory h
      result := hp ▸ hr
      engine := hp ▸ he
      errFits := hp ▸ ho }

/-- Settles O49: the values of the reset table. -/
theorem resetMeetsTheInvariant : Obligations.ResetMeetsTheInvariant :=
  { params := hw_valid
    control := { statusLegal := rfl, busyIff := by decide, errIff := by decide, errZero := fun _ => ⟨rfl, rfl, rfl⟩,
                 resultIff := by decide }
    memory := ⟨rfl, Nat.zero_le _⟩
    result := trivial
    engine := trivial
    errFits := Nat.two_pow_pos _ }

/-! ## What stops a step, and what ends a result -/

/-- Settles O54: the engine always answers, at both grains; the host's moves that stop are the four listed. -/
theorem onlyHostMovesStop : Obligations.OnlyHostMovesStop := by
  intro s _
  obtain ⟨-, he⟩ | ⟨mv, rest, hh, -, he⟩ := step_turn s
  · rw [he]
    exact .inl (exists_next_engineTurn s)
  rw [he]
  obtain ⟨t, ht, -⟩ | ⟨hstop, -⟩ := hostTurn_cases mv (s.withHost rest)
  · exact .inl ⟨t, ht⟩
  obtain ⟨r, rfl, hr⟩ | ⟨bytes, rfl, hl⟩ | ⟨n, rfl, hn⟩ | ⟨a, b, rfl, ha⟩ | ⟨rfl, hno⟩ := hstop
  · exact .inr (.inl ⟨r, rest, hh, hr⟩)
  · exact .inr (.inr (.inl ⟨bytes, rest, hh, hl⟩))
  · exact .inr (.inr (.inr (.inl ⟨n, rest, hh, hn⟩)))
  · exact .inr (.inr (.inr (.inr ⟨a, b, rest, hh, ha⟩)))
  · obtain ⟨t, ht⟩ := exists_next_engineTick (s.withHost rest)
    exact absurd ht (hno t)

/-- Settles O12: where there is a result the engine is idle, and a host's move other than these two does not write it. -/
theorem resultLastsUntilTheNextStart : Obligations.ResultLastsUntilTheNextStart := by
  intro s t hc hr h
  have hidle : s.engine = .idle := engine_idle_of_result hc hr
  obtain ⟨-, he⟩ | ⟨mv, rest, hh, hd⟩ := step_did h
  · rw [engineTurn_idle hidle] at he
    cases he
    exact .inl rfl
  cases hd with
  | started => exact .inr (.inl ⟨_, rest, hh⟩)
  | wasReset => exact .inr (.inr ⟨rest, hh⟩)
  | ticked ht =>
    rw [engineTick_idle (s := s.withHost rest) hidle] at ht
    cases ht
    exact .inl rfl
  | dropped | loaded | wroteByte | wroteLen | saw | waited => exact .inl rfl

/-! ## The frames of the instructions -/

/-- Settles O16: an instruction completes, raises or goes on, and none of the three writes these fields. -/
theorem instructionsLeaveBufferAndCommandAlone : Obligations.InstructionsLeaveBufferAndCommandAlone := by
  intro i s t h
  have hm : Moved s t := moved_exec h
  obtain ⟨hp, hbuf, hlen, hcmd, hhost, hsaw, hres⟩ := hm.keeps
  exact ⟨hcmd, hlen, Moved.byteAt hm, message_eq_of_fields hlen hbuf hres, hp, hhost, hsaw, hres⟩

/-- A transition that keeps the start of the name, where it does not end the decode. -/
theorem inReadLength_keeps {tr : Walk → Except Stop Walk} (htr : ∀ w w', tr w = .ok w' → w'.o = w.o)
    (h : s.inReadLength tr = .next t) (hne : t.engine ≠ .idle) :
    ∃ w w' task, s.engine = .naming w task ∧ w'.o = w.o ∧ t = s.withEngine (.naming w' task) := by
  obtain ⟨w, task, he, -, h⟩ := inReadLength_cases h
  obtain ⟨w', hw, rfl⟩ | ⟨k, f, off, wd, -, rfl⟩ := settleWalk_cases h
  · exact ⟨w, w', task, he, htr w w' hw, rfl⟩
  · exact absurd rfl hne

theorem exec_octet_keeps {i : Instr} (hi : i.isCommand = false) (h : exec i s = .next t) (hne : t.engine ≠ .idle) :
    ∃ w w' task, s.engine = .naming w task ∧ w'.o = w.o ∧ t = s.withEngine (.naming w' task) := by
  cases i with
  | octTerm => exact inReadLength_keeps (fun w w' hw => by cases hw; rfl) h hne
  | octLabel len => exact inReadLength_keeps (fun w w' hw => o_of_readLabel hw) h hne
  | octRsv01 any | octRsv10 any => exact inReadLength_keeps (tr := Walk.badLength) nofun h hne
  | octPtr target =>
    refine inReadLength_keeps (fun w w' hw => ?_) h hne
    obtain ⟨_, -, hf⟩ := bind_eq_ok_iff.1 hw
    exact o_of_followPointer hf
  | rd8 | rd16 | rd32 | hdr | name | ques | rr | msg => cases hi

/-- Settles O17: where an octet class does not end the name decode, it has moved the walk alone. -/
theorem octetsChangeOnlyTheWalk : Obligations.OctetsChangeOnlyTheWalk := by
  intro i s t hi h hne
  obtain ⟨w, w', task, he, ho, rfl⟩ := exec_octet_keeps hi h hne
  exact ⟨w, w', task, he, rfl, ho, rfl, rfl, rfl, rfl, rfl, rfl⟩

end
end Sys2Proof.Machine.InvariantProofs

/-! SUPPORT. That the sizes of a block do not matter to its instructions (00_scope.md R8). -/

namespace Sys2Proof.Machine.ParameterProofs

open Sys2Proof.Machine.Laws Sys2Proof.Machine.NameProofs Sys2Proof.Machine.MessageProofs Sys2Proof.Machine.InvariantProofs

/-! ## A decode looks at ACE_CASE_INSENSITIVE alone -/

section
variable {p q : Config.Params} (h : p.aceCaseInsensitive = q.aceCaseInsensitive)
include h

theorem readLabel_congr (w : Walk) (m : List Byte) (len : Nat) : w.readLabel p m len = w.readLabel q m len := by
  rw [Walk.readLabel, h, Walk.readLabel]

theorem nameLoop_congr (n : Nat) (m : List Byte) (w : Walk) : nameLoop p n m w = nameLoop q n m w := by
  induction n generalizing w with
  | zero => rfl
  | succ n ih => simp only [nameLoop, readLabel_congr h, ih]

theorem decodeName_congr (m : List Byte) (o : Nat) : decodeName p m o = decodeName q m o := nameLoop_congr h _ m _

theorem decodeQuestion_congr : decodeQuestion p = decodeQuestion q := by
  funext m o
  rw [decodeQuestion, decodeName_congr h, decodeQuestion]

theorem decodeRecord_congr : decodeRecord p = decodeRecord q := by
  funext m o
  rw [decodeRecord, decodeName_congr h, decodeRecord]

theorem decodeMessage_congr (m : List Byte) : decodeMessage p m = decodeMessage q m := by
  rw [decodeMessage_eq, decodeMessage_eq, decodeQuestion_congr h, decodeRecord_congr h]

theorem decodeOf_congr (m : List Byte) (i : Instr) : decodeOf p m i = decodeOf q m i := by
  cases i with
  | name off => rw [decodeOf, decodeName_congr h, decodeOf]
  | ques off => rw [decodeOf, decodeQuestion_congr h, decodeOf]
  | rr off => rw [decodeOf, decodeRecord_congr h, decodeOf]
  | msg => rw [decodeOf, decodeMessage_congr h, decodeOf]
  | rd8 | rd16 | rd32 | hdr | octTerm | octLabel | octRsv01 | octRsv10 | octPtr => rfl

end

/-! ## What ends or moves a command keeps other parameters -/

section
variable {s t : State} (p : Config.Params)

theorem settle_withParams {x : Except Stop Result} (h : s.settle x = .next t) :
    State.settle { s with params := p } x = .next { t with params := p } := by
  obtain ⟨r, rfl, rfl⟩ | ⟨k, f, off, w, rfl, rfl⟩ := settle_cases h
  · rfl
  · rfl

theorem inReadLength_withParams {tr tr' : Walk → Except Stop Walk} (htr : ∀ w, tr' w = tr w)
    (h : s.inReadLength tr = .next t) :
    State.inReadLength { s with params := p } tr' = .next { t with params := p } := by
  obtain ⟨w, task, he, hst, h⟩ := inReadLength_cases h
  rw [inReadLength_eq (s := { s with params := p }) tr' he hst, htr]
  obtain ⟨w', hw, rfl⟩ | ⟨k, f, off, wd, hw, rfl⟩ := settleWalk_cases h
  · rw [hw]
    rfl
  · rw [hw]
    rfl

variable {p} (hp : p.aceCaseInsensitive = s.params.aceCaseInsensitive)
include hp

theorem exec_command_withParams {i : Instr} (hi : i.isCommand = true) (h : exec i s = .next t) :
    exec i { s with params := p } = .next { t with params := p } := by
  obtain ⟨x, hx, he⟩ := exec_command hi s
  obtain ⟨x', hx', he'⟩ := exec_command hi { s with params := p }
  have hsame : some x' = some x := hx'.symm.trans ((decodeOf_congr hp s.message i).trans hx)
  cases hsame
  rw [he']
  exact settle_withParams p (he.symm.trans h)

theorem exec_octet_withParams {i : Instr} (hi : i.isCommand = false) (h : exec i s = .next t) :
    exec i { s with params := p } = .next { t with params := p } := by
  cases i with
  | octLabel len => exact inReadLength_withParams p (fun w => readLabel_congr hp w s.message len.toNat) h
  | octTerm | octRsv01 | octRsv10 | octPtr => exact inReadLength_withParams p (fun _ => rfl) h
  | rd8 | rd16 | rd32 | hdr | name | ques | rr | msg => cases hi

end

/-- Settles O59: no update of a step writes the parameters, and the decodes look at ACE_CASE_INSENSITIVE alone. -/
theorem parametersAreFixedAndSizesDoNotMatter : Obligations.ParametersAreFixedAndSizesDoNotMatter := by
  refine ⟨fun s t h => params_of_step h, fun i s t p hp h => ?_⟩
  cases hi : i.isCommand with
  | true => exact exec_command_withParams hp hi h
  | false => exact exec_octet_withParams hp hi h

end Sys2Proof.Machine.ParameterProofs

/-! SUPPORT. What a READ returns under the invariant (10_state.md R22 to R33): no value is cut by its register's width. -/

namespace Sys2Proof.Machine.ReadOutProofs

open Sys2Proof.Machine.Laws Sys2Proof.Machine.RegisterProofs Sys2Proof.Machine.NameInvariantProofs

/-! ## The values that a good result can hold (R28 to R32) -/

section
variable {p : Config.Params} {r : Result} (h : r.OK p)
include h

theorem nameOK_of_result {n : Name} (hn : r.name = some n) : n.OK p := by
  cases r with
  | nam n' => cases hn; exact h
  | que q k => cases hn; exact h.1.1
  | rr rec k => cases hn; exact h.1.1
  | none | raw | hdr | msg => cases hn

theorem recordOK_of_result {rec : Record} (hr : r.record = some rec) : rec.OK p := by
  cases r with
  | rr rec' k => cases hr; exact h.1
  | none | raw | hdr | nam | que | msg => cases hr

/-- The longest record takes 256 bytes of name, 10 of fields and 65535 of RDATA (R28). -/
theorem consumed_le_of_result {k : Nat} (hk : r.consumed = some k) : k ≤ max 65801 p.bufMax := by
  cases r with
  | nam n =>
    cases hk
    obtain ⟨-, -, h256⟩ := h
    omega
  | que q k =>
    cases hk
    obtain ⟨⟨⟨-, -, h256⟩, -⟩, rfl⟩ := h
    simp only [Config.qFixed]
    omega
  | rr rec k =>
    cases hk
    obtain ⟨⟨⟨-, -, h256⟩, -⟩, rfl⟩ := h
    have := rec.rdlength.isLt
    simp only [Config.rrFixed]
    omega
  | msg m e =>
    cases hk
    obtain ⟨-, -, -, -, he⟩ := h
    omega
  | none | raw | hdr => cases hk

end

theorem lt_two_pow_of_map {α : Type} {n v : Nat} {o : Option α} {f : α → BitVec n} (h : o.map (fun a => (f a).toNat) = some v) :
    v < 2 ^ n := by
  obtain ⟨a, -, rfl⟩ := Option.map_eq_some_iff.1 h
  exact (f a).isLt

/-- Settles O53: a bit vector fits its own width; the numbers are bounded by the invariant. -/
theorem registersHoldTheirValuesWhole : Obligations.RegistersHoldTheirValuesWhole := by
  intro s r v n hinv hv hw
  cases r with
  | lbl | msgStore => cases hw
  | cmd | status | errKind | errField | errWidth | resTag =>
    cases hw
    cases hv
    exact BitVec.isLt _
  | resValue | hId | hFlags | hQdcount | hAncount | hNscount | hArcount | qQtype | qQclass | rType | rClass | rTtl
      | rRdlength =>
    cases hw
    exact lt_two_pow_of_map hv
  | bufLen =>
    cases hw
    cases hv
    exact lt_two_pow_bitsFor hinv.memory.2
  | errOffset =>
    cases hw
    cases hv
    exact hinv.errFits
  | resConsumed =>
    cases hw
    exact lt_two_pow_bitsFor (consumed_le_of_result hinv.result hv)
  | nNlabels =>
    cases hw
    obtain ⟨name, hn, rfl⟩ := Option.map_eq_some_iff.1 hv
    exact Nat.lt_succ_of_le (length_le_of_labelsOK (nameOK_of_result hinv.result hn).1)
  | nWirelen =>
    cases hw
    obtain ⟨name, hn, rfl⟩ := Option.map_eq_some_iff.1 hv
    exact Nat.lt_succ_of_le (nameOK_of_result hinv.result hn).1.2
  | rRdoff =>
    cases hw
    obtain ⟨rec, hr, rfl⟩ := Option.map_eq_some_iff.1 hv
    obtain ⟨-, -, -, hend⟩ := recordOK_of_result hinv.result hr
    exact (Nat.le_of_add_right_le hend).trans_lt hinv.params.2

/-! ## What a READ returns -/

section
variable {s : State} (hinv : s.Inv)
include hinv

theorem readReg_of_inv {r : Reg} {v n : Nat} (hw : r.width s.params = some n) (hv : s.regNat r = some v) :
    s.readReg r = some (.word (BitVec.ofNat 32 v)) := by
  rw [readReg_of_width hw, hv, Option.map_some, Nat.mod_eq_of_lt (registersHoldTheirValuesWhole s r v n hinv hv hw)]

/-- A word-wide value is returned as it is. -/
theorem readReg_word_of_inv {r : Reg} {v : Word} {n : Nat} (hw : r.width s.params = some n) (hv : s.regNat r = some v.toNat) :
    s.readReg r = some (.word v) := by
  rw [readReg_of_inv hinv hw hv, BitVec.ofNat_toNat, BitVec.setWidth_eq]

theorem readReg_map_of_inv {r : Reg} {n : Nat} (hw : r.width s.params = some n) :
    s.readReg r = (s.regNat r).map (fun v => .word (BitVec.ofNat 32 v)) := by
  cases hv : s.regNat r with
  | none => rw [readReg_of_width hw, hv, Option.map_none, Option.map_none]
  | some v => rw [readReg_of_inv hinv hw hv, Option.map_some]

end

/-- STATUS bit by bit (R24). -/
theorem status_word_bits (t : Status) :
    t.word.getLsbD 0 = t.busy ∧ t.word.getLsbD 1 = t.done ∧ t.word.getLsbD 2 = t.err ∧
      ∀ i, 3 ≤ i → t.word.getLsbD i = false := by
  have hlow : t.word.toNat < 2 ^ 3 := by
    obtain ⟨_ | _, _ | _, _ | _⟩ := t <;> decide
  have hhigh (i : Nat) (hi : 3 ≤ i) : t.word.getLsbD i = false :=
    Nat.testBit_lt_two_pow (hlow.trans_le (Nat.pow_le_pow_right (by decide) hi))
  have hbits : t.word.getLsbD 0 = t.busy ∧ t.word.getLsbD 1 = t.done ∧ t.word.getLsbD 2 = t.err := by
    obtain ⟨_ | _, _ | _, _ | _⟩ := t <;> decide
  exact ⟨hbits.1, hbits.2.1, hbits.2.2, hhigh⟩

/-- Settles O55: the fields, which fit (O53), bit by bit for STATUS; the codes of the tables are evaluated. -/
theorem controlRegistersReadTheirFields : Obligations.ControlRegistersReadTheirFields := by
  refine ⟨fun s hinv => ?_, by decide, by decide⟩
  refine ⟨readReg_word_of_inv hinv rfl rfl, ⟨s.status.word, readReg_word_of_inv hinv rfl rfl, status_word_bits _⟩,
    readReg_of_inv hinv rfl rfl, readReg_of_inv hinv rfl rfl, readReg_of_inv hinv rfl rfl, readReg_of_inv hinv rfl rfl,
    readReg_of_inv hinv rfl rfl, ?_⟩
  rw [readReg_of_inv hinv rfl rfl]
  cases s.result <;> rfl

/-- Settles O56: each register is a projection of RESULT, and its value fits (O53). -/
theorem resultRegistersReadTheResult : Obligations.ResultRegistersReadTheResult := by
  intro s hinv
  refine ⟨fun v hv => ?_, fun h hh => ?_, fun n hn => ?_, fun q k hq => ?_, fun r k hr => ?_, fun k hk => ?_, fun m e hm => ?_⟩
  · exact readReg_word_of_inv hinv rfl (by rw [State.regNat, hv]; rfl)
  · have hh : s.result.header = some h := by
      obtain hh | ⟨store, e, hh⟩ := hh <;> rw [hh] <;> rfl
    refine ⟨?_, ?_, ?_, ?_, ?_, ?_⟩
    all_goals
      rw [readReg_map_of_inv hinv rfl, State.regNat, hh]
      rfl
  · have hn : s.result.name = some n := by
      obtain hn | ⟨q, k, hn, rfl⟩ | ⟨r, k, hn, rfl⟩ := hn <;> rw [hn] <;> rfl
    refine ⟨?_, ?_, by rw [State.readReg, hn]; rfl⟩
    all_goals
      rw [readReg_map_of_inv hinv rfl, State.regNat, hn]
      rfl
  · have hq : s.result.question = some q := by rw [hq]; rfl
    constructor
    all_goals
      rw [readReg_map_of_inv hinv rfl, State.regNat, hq]
      rfl
  · have hr : s.result.record = some r := by rw [hr]; rfl
    refine ⟨?_, ?_, readReg_word_of_inv hinv rfl (by rw [State.regNat, hr]; rfl), ?_, ?_⟩
    all_goals
      rw [readReg_map_of_inv hinv rfl, State.regNat, hr]
      rfl
  · refine readReg_of_inv hinv rfl ?_
    obtain ⟨n, hk, rfl⟩ | ⟨q, hk⟩ | ⟨r, hk⟩ | ⟨m, hk⟩ := hk <;> rw [State.regNat, hk] <;> rfl
  · rw [State.readReg, hm]
    rfl

end Sys2Proof.Machine.ReadOutProofs

/-! SUPPORT. What RR and MSG complete with (44_resource_record.md R217, 45_message.md R240). -/

namespace Sys2Proof.Machine.CompletionProofs

open Sys2Proof.Machine.Laws Sys2Proof.Machine.RecordProofs Sys2Proof.Machine.MessageProofs Sys2Proof.Machine.ReadProofs
  Sys2Proof.Machine.SpecProofs Sys2Proof.Machine.CommandProofs

/-- A command that leaves a result has completed with it. -/
theorem settle_map_eq_complete {α : Type} {s t : State} {x : Except Stop α} {g : α → Result} {r : Result} (hr : r ≠ .none)
    (h : s.settle (x.map g) = .next t) (ht : t.result = r) : ∃ a, x = .ok a ∧ g a = r ∧ t = s.complete r := by
  obtain ⟨r', hx, rfl⟩ | ⟨k, f, off, w, -, rfl⟩ := settle_cases h
  · cases x with
    | ok a => cases hx; exact ⟨a, rfl, ht, congrArg s.complete ht⟩
    | error e => cases hx
  · exact absurd ht.symm hr

/-- Settles O45: RR has returned the record, whose RDATA is a span inside the message. -/
theorem rdataIsTheSpanOfTheBuffer : Obligations.RdataIsTheSpanOfTheBuffer := by
  intro s t off r k h hr
  obtain ⟨⟨r', k'⟩, hx, heq, rfl⟩ := settle_map_eq_complete (r := .rr r k) nofun h hr
  obtain ⟨rfl, rfl⟩ : r' = r ∧ k' = k := by simpa using heq
  obtain ⟨-, -, hrd, hend⟩ := Spec.of_ok (decodeRecord_spec s.params s.message off) hx
  have hin : r'.rdoff + r'.rdlength.toNat ≤ s.message.length := hrd.ge.trans hend
  refine ⟨slice_length hin, fun i hi => ?_, hrd, hin.trans_eq (message_length s)⟩
  have hlt : r'.rdoff + i < s.message.length := (Nat.add_lt_add_left hi _).trans_le hin
  rw [Record.rdata, message_complete, slice_getElem? _ _ hi, List.getElem?_eq_getElem hlt, message_getElem]
  rfl

theorem exec_msg_eq_complete_iff {s : State} {m : Message} {e : Nat} :
    exec .msg s = .next (s.complete (.msg m e)) ↔ decodeMessage s.params s.message = .ok (m, e) := by
  constructor
  · intro h
    obtain ⟨⟨m', e'⟩, hx, heq, -⟩ := settle_map_eq_complete (r := .msg m e) nofun h rfl
    cases heq
    exact hx
  · intro h
    rw [exec_msg, h]
    rfl

/-- Settles O46: MSG completes as the message decode returns, section by section. -/
theorem messageIsHeaderAndCountedRecords : Obligations.MessageIsHeaderAndCountedRecords := by
  intro s h qs ans auth adds e
  simp only [questionsAt_iff_itemsAt, recordsAt_iff_itemsAt, exec_msg_eq_complete_iff, decodeMessage_eq_ok_iff]
  constructor
  · rintro ⟨hh, o1, o2, o3, ⟨hql, hq⟩, ⟨hal, ha⟩, ⟨hul, hu⟩, hdl, hd⟩
    exact ⟨hh, hql, hal, hul, hdl, o1, o2, o3, hq, ha, hu, hd⟩
  · rintro ⟨hh, hql, hal, hul, hdl, o1, o2, o3, hq, ha, hu, hd⟩
    exact ⟨hh, o1, o2, o3, ⟨hql, hq⟩, ⟨hal, ha⟩, ⟨hul, hu⟩, hdl, hd⟩

end Sys2Proof.Machine.CompletionProofs

/-! SUPPORT. NAME on names that stand in the message (42_name.md R176, R180, R184, R188): the decode passes over good labels, and
ends as what stands after them says. -/

namespace Sys2Proof.Machine.NameRunProofs

open Sys2Proof.Machine.Laws Sys2Proof.Machine.NameProofs Sys2Proof.Machine.MessageProofs Sys2Proof.Machine.ReadProofs
  Sys2Proof.Machine.SpecProofs Sys2Proof.Machine.NamePassProofs Sys2Proof.Machine.NameInvariantProofs

/-! ## Bytes that stand in a message -/

/-- A message holds a byte sequence at an offset. -/
def StandsAt (m : List Byte) (a : Nat) (bytes : List Byte) : Prop := ∀ i, (h : i < bytes.length) → m[a + i]? = some bytes[i]

theorem standsAt_of_holds {s : State} {a : Nat} {bytes : List Byte} (h : s.Holds a bytes) : StandsAt s.message a bytes := by
  intro i hi
  have hlt : a + i < s.message.length := (Nat.add_lt_add_left hi a).trans_le (message_length_of_holds h)
  rw [List.getElem?_eq_getElem hlt, message_getElem, h.2 i hi]

section
variable {m : List Byte} {a : Nat}

theorem standsAt_append {xs ys : List Byte} :
    StandsAt m a (xs ++ ys) ↔ StandsAt m a xs ∧ StandsAt m (a + xs.length) ys := by
  constructor
  · intro h
    constructor
    · intro i hi
      rw [h i (by rw [List.length_append]; omega), List.getElem_append_left hi]
    · intro i hi
      rw [Nat.add_assoc, h (xs.length + i) (by rw [List.length_append]; omega), List.getElem_append_right (by omega)]
      simp
  · rintro ⟨hx, hy⟩ i hi
    by_cases hlt : i < xs.length
    · rw [hx i hlt, List.getElem_append_left hlt]
    · have := hy (i - xs.length) (by rw [List.length_append] at hi; omega)
      rw [List.getElem_append_right (Nat.not_lt.1 hlt), ← this]
      congr 1
      omega

theorem standsAt_cons {b : Byte} {bs : List Byte} : StandsAt m a (b :: bs) ↔ m[a]? = some b ∧ StandsAt m (a + 1) bs := by
  have hone : StandsAt m a [b] ↔ m[a]? = some b := by
    constructor
    · intro h
      exact h 0 Nat.one_pos
    · intro h i hi
      obtain rfl : i = 0 := Nat.lt_one_iff.1 hi
      exact h
  rw [← List.singleton_append, standsAt_append, hone, List.length_singleton]

theorem slice_of_standsAt {bytes : List Byte} (h : StandsAt m a bytes) : slice m a bytes.length = bytes := by
  refine List.ext_getElem? fun i => ?_
  by_cases hi : i < bytes.length
  · rw [slice_getElem? m a hi, h i hi, List.getElem?_eq_getElem hi]
  · have hlen : (slice m a bytes.length).length ≤ bytes.length := by
      rw [slice, List.length_take]
      exact Nat.min_le_left _ _
    rw [List.getElem?_eq_none (Nat.not_lt.1 hi), List.getElem?_eq_none (hlen.trans (Nat.not_lt.1 hi))]

theorem le_length_of_standsAt {bytes : List Byte} (h : StandsAt m a bytes) (hne : bytes ≠ []) :
    a + bytes.length ≤ m.length := by
  have hpos : 0 < bytes.length := List.length_pos_iff.2 hne
  have := (List.getElem?_eq_some_iff.1 (h (bytes.length - 1) (by omega))).1
  omega

end

/-! ## Over good labels (R176) -/

/-- A walk after labels that stand at its position. -/
def passed (w : Walk) : List Label → Walk
  | [] => w
  | l :: ls => passed (appended w l l.length) ls

section
variable {p : Config.Params} {m : List Byte}

theorem passed_o (w : Walk) (ls : List Label) : (passed w ls).o = w.o := by
  induction ls generalizing w with
  | nil => rfl
  | cons l ls ih => exact ih _

theorem passed_jumped (w : Walk) (ls : List Label) : (passed w ls).jumped = w.jumped := by
  induction ls generalizing w with
  | nil => rfl
  | cons l ls ih => exact ih _

theorem labelsLen_cons (l : Label) (ls : List Label) : labelsLen (l :: ls) = l.length + 1 + labelsLen ls := by
  simp [labelsLen]

theorem passed_pos (w : Walk) (ls : List Label) : (passed w ls).pos = w.pos + labelsLen ls := by
  induction ls generalizing w with
  | nil => rfl
  | cons l ls ih =>
    rw [passed, ih, labelsLen_cons]
    simp only [appended]
    omega

theorem passed_total (w : Walk) (ls : List Label) : (passed w ls).total = w.total + labelsLen ls := by
  induction ls generalizing w with
  | nil => rfl
  | cons l ls ih =>
    rw [passed, ih, labelsLen_cons]
    simp only [appended]
    omega

theorem passed_labels (w : Walk) (ls : List Label) : (passed w ls).labels = w.labels ++ ls := by
  induction ls generalizing w with
  | nil => rw [passed, List.append_nil]
  | cons l ls ih =>
    rw [passed, ih]
    simp only [appended, List.append_assoc, List.singleton_append]

theorem passed_fwd_of_not_jumped {w : Walk} (hj : w.jumped = false) (ls : List Label) :
    (passed w ls).fwd = w.fwd + labelsLen ls := by
  induction ls generalizing w with
  | nil => rfl
  | cons l ls ih =>
    rw [passed, ih (w := appended w l l.length) hj, labelsLen_cons, appended_fwd_of_not_jumped hj]
    omega

theorem passed_fwd_of_jumped {w : Walk} (hj : w.jumped = true) (ls : List Label) : (passed w ls).fwd = w.fwd := by
  induction ls generalizing w with
  | nil => rfl
  | cons l ls ih =>
    rw [passed, ih (w := appended w l l.length) hj]
    simp [appended, hj]

/-- The length octet of a good label (30_encoding.md R99). -/
theorem toNat_length_octet {l : Label} (h : l.length ≤ Config.labelMax) : (BitVec.ofNat 8 l.length).toNat = l.length :=
  Nat.mod_eq_of_lt (lt_of_le_of_lt h (by decide))

/-- The loop passes over good labels that stand at the position and fit the size bound. -/
theorem nameLoop_passed (n : Nat) {w : Walk} {ls : List Label} (hok : ∀ l ∈ ls, Label.OK p l)
    (hs : StandsAt m w.pos (labelBytes ls)) (ht : w.total + labelsLen ls ≤ 255) :
    nameLoop p (ls.length + n) m w = nameLoop p n m (passed w ls) := by
  induction ls generalizing w with
  | nil => rw [List.length_nil, Nat.zero_add, passed]
  | cons l ls ih =>
    obtain ⟨⟨h1, h63, hgrammar⟩, hrest⟩ := List.forall_mem_cons.1 hok
    have hbytes : labelBytes (l :: ls) = BitVec.ofNat 8 l.length :: (l ++ labelBytes ls) := rfl
    rw [hbytes, standsAt_cons, standsAt_append] at hs
    obtain ⟨hb, hl, hs⟩ := hs
    rw [labelsLen_cons] at ht
    have hlen := toNat_length_octet h63
    have hin : w.pos + 1 + l.length ≤ m.length := le_length_of_standsAt hl (List.length_pos_iff.1 h1)
    have hpass : namePass p m w = .ok (appended w l l.length) := by
      rw [namePass_label hb (by rwa [hlen]) (by rwa [hlen]), hlen]
      exact readLabel_good hin (slice_of_standsAt hl) hgrammar (by omega)
    have hpos : (appended w l l.length).pos = w.pos + 1 + l.length := Nat.add_right_comm _ _ _
    have htotal : (appended w l l.length).total = w.total + (l.length + 1) := rfl
    rw [List.length_cons, Nat.add_right_comm, nameLoop_succ, hpass]
    exact ih hrest (by rwa [hpos]) (by omega)

/-- The whole decode is the loop with any number of passes that is large enough (R186). -/
theorem decodeName_eq_nameLoop {k : Nat} (hk : 129 ≤ k) (o : Nat) : decodeName p m o = nameLoop p k m (Walk.start o) := by
  obtain ⟨j, rfl⟩ := Nat.exists_eq_add_of_le hk
  exact (nameDecodeTakesAtMost129Passes p m o j).1.symm

/-- The decode after good labels at its start. -/
theorem decodeName_passed (n : Nat) {o : Nat} {ls : List Label} (hok : LabelsOK p ls) (hs : StandsAt m o (labelBytes ls)) :
    decodeName p m o = nameLoop p (129 + n) m (passed (Walk.start o) ls) := by
  rw [decodeName_eq_nameLoop (k := ls.length + (129 + n)) (by omega), nameLoop_passed _ hok.1 hs hok.2]

/-! ## What ends a decode -/

theorem nameLoop_of_pass_error {n : Nat} {w : Walk} {e : Stop} (h : namePass p m w = .error e) :
    nameLoop p (n + 1) m w = .error e := by
  rw [nameLoop_succ, h]
  rfl

theorem nameLoop_of_terminator {n : Nat} {w : Walk} (h : m[w.pos]? = some 0) :
    nameLoop p (n + 1) m w = .ok w.terminate.name := by
  rw [nameLoop_succ, namePass_terminator h rfl]
  rfl

/-- A pointer to an earlier place, with none followed yet (R180). -/
theorem nameLoop_of_pointer {n target : Nat} {w : Walk} {b b2 : Byte} (hb : m[w.pos]? = some b) (h192 : 192 ≤ b.toNat)
    (hb2 : m[w.pos + 1]? = some b2) (ht : target = 256 * (b.toNat % 64) + b2.toNat) (hj : w.jumped = false)
    (hlt : target < w.o) (hin : target < m.length) :
    nameLoop p (n + 1) m w = nameLoop p n m (followed w target) := by
  have hpass : namePass p m w = .ok (followed w target) := by
    rw [namePass_pointer hb h192 hb2, ← ht, followPointer_jump hj hlt hin]
  rw [nameLoop_succ, hpass]
  rfl

end

section
variable {s : State} {off : Nat}

theorem exec_name_of_ok {n : Name} (h : decodeName s.params s.message off = .ok n) :
    exec (.name off) s = .next (s.complete (.nam n)) := by
  rw [exec_name, h]
  rfl

theorem exec_name_of_raise {k : ErrKind} {f : ErrField} {o w : Nat}
    (h : decodeName s.params s.message off = .error (.raise k f o w)) : exec (.name off) s = .next (s.raise k f o w) := by
  rw [exec_name, h]
  rfl

end

/-! ## The statements -/

/-- Settles O36: over the labels, then the terminator. -/
theorem uncompressedNameDecodes : Obligations.UncompressedNameDecodes := by
  intro s off labels hok hh
  obtain ⟨hs, ht⟩ := standsAt_append.1 (standsAt_of_holds hh)
  have h0 : s.message[(passed (Walk.start off) labels).pos]? = some 0 := by
    rw [passed_pos, ← labelBytes_length]
    exact (standsAt_cons.1 ht).1
  refine exec_name_of_ok ((decodeName_passed 0 hok hs).trans ((nameLoop_of_terminator h0).trans ?_))
  have hj : (passed (Walk.start off) labels).jumped = false := passed_jumped _ _
  rw [terminate_forward hj]
  simp only [Walk.name, passed_labels, passed_fwd_of_not_jumped (w := Walk.start off) rfl]
  simp [Walk.start]

/-- Settles O37: over the first labels, the pointer, over the labels at its target, then the terminator. -/
theorem compressedNameDecodes : Obligations.CompressedNameDecodes := by
  intro s off front back target hok hlt h14 hfront hback
  obtain ⟨hfok, hbok, htotal⟩ := labelsOK_append.1 hok
  obtain ⟨hfs, hptr⟩ := standsAt_append.1 (standsAt_of_holds hfront)
  obtain ⟨hbs, hterm⟩ := standsAt_append.1 (standsAt_of_holds hback)
  rw [labelBytes_length] at hptr hterm
  obtain ⟨hb, hb2, -⟩ := standsAt_cons.1 hptr |>.imp_right standsAt_cons.1
  have hin : target < s.message.length := by
    have := message_length_of_holds hback
    rw [List.length_append, List.length_singleton] at this
    omega
  have hhigh : (BitVec.ofNat 8 (192 + target / 256)).toNat = 192 + target / 256 := toNat_ofNat_of_lt (by omega)
  have hlow : (BitVec.ofNat 8 (target % 256)).toNat = target % 256 := toNat_ofNat_of_lt (by omega)
  have hfront' : LabelsOK s.params front := ⟨hfok, by rw [← labelsLen, Config.nameMax]; omega⟩
  have hpos : (passed (Walk.start off) front).pos = off + labelsLen front := passed_pos _ _
  have hjump : nameLoop s.params (129 + (back.length + 1)) s.message (passed (Walk.start off) front) =
      nameLoop s.params (back.length + 129) s.message (followed (passed (Walk.start off) front) target) := by
    rw [show 129 + (back.length + 1) = back.length + 129 + 1 by omega]
    refine nameLoop_of_pointer (by rwa [hpos]) (by omega) (by rwa [hpos]) (by omega) (passed_jumped _ _) ?_ hin
    rwa [passed_o]
  have hlabels := nameLoop_passed (p := s.params) (m := s.message) 129
    (w := followed (passed (Walk.start off) front) target) hbok hbs (by
      simp only [followed, passed_total]
      simp only [Walk.start]
      omega)
  have h0 : s.message[(passed (followed (passed (Walk.start off) front) target) back).pos]? = some 0 := by
    rw [passed_pos]
    exact (standsAt_cons.1 hterm).1
  refine exec_name_of_ok ((decodeName_passed _ hfront' hfs).trans (hjump.trans (hlabels.trans
    ((nameLoop_of_terminator h0).trans ?_))))
  have hj : (passed (followed (passed (Walk.start off) front) target) back).jumped = true := passed_jumped _ _
  rw [terminate_jumped hj]
  simp only [Walk.name, passed_labels, passed_fwd_of_jumped (w := followed (passed (Walk.start off) front) target) rfl]
  simp only [followed, passed_labels, passed_fwd_of_not_jumped (w := Walk.start off) rfl]
  simp [Walk.start]

/-- Settles O57: over the labels, then the pass that misses its octet, its second octet, or its label. -/
theorem namesCutOffAtTheEnd : Obligations.NamesCutOffAtTheEnd := by
  intro s off front hok
  have hlen : s.message.length = s.bufLen := message_length s
  have hpos : (passed (Walk.start off) front).pos = off + labelsLen front := passed_pos _ _
  have none_of_le {a : Nat} (h : s.bufLen ≤ a) : s.message[a]? = none := List.getElem?_eq_none (by rwa [hlen])
  /- The decode fails in the pass after the labels. -/
  have fails {k : ErrKind} {f : ErrField} {o w : Nat} (hs : StandsAt s.message off (labelBytes front))
      (hp : namePass s.params s.message (passed (Walk.start off) front) = .error (.raise k f o w)) :
      exec (.name off) s = .next (s.raise k f o w) :=
    exec_name_of_raise ((decodeName_passed 0 hok hs).trans (nameLoop_of_pass_error hp))
  refine ⟨fun hl => ?_, fun hh hl => ?_, fun b hb hh hl => ?_, fun b h1 h63 hh hl => ?_⟩
  · exact exec_name_of_raise (nameLoop_of_pass_error (namePass_end (none_of_le hl)))
  · rw [← hpos]
    exact fails (standsAt_of_holds hh) (namePass_end (none_of_le (by rw [hpos, hl])))
  · obtain ⟨hs, hoct⟩ := standsAt_append.1 (standsAt_of_holds hh)
    rw [labelBytes_length, ← hpos] at hoct
    rw [← hpos]
    exact fails hs (namePass_cut_pointer (standsAt_cons.1 hoct).1 hb (none_of_le (by rw [hpos, hl])))
  · obtain ⟨hs, hoct⟩ := standsAt_append.1 (standsAt_of_holds hh)
    rw [labelBytes_length, ← hpos] at hoct
    rw [← hpos] at hl ⊢
    exact fails hs ((namePass_label (standsAt_cons.1 hoct).1 h1 h63).trans (readLabel_out (by rwa [hlen])))

/-- The third check of FollowPointer never fires (R180): a target before the name's start is before the pointer itself. -/
theorem namePass_ne_outOfBounds {p : Config.Params} {m : List Byte} {w : Walk} {off wd : Nat} (h : Sound p m w)
    (hst : w.st = .readLength) : namePass p m w ≠ .error (.raise .outOfBounds .namePtr off wd) := by
  intro he
  rcases pass_cases m w.pos with hb | ⟨b, hb, h0 | ⟨h1, h63⟩ | ⟨h64, h192⟩ | ⟨h192, h2 | ⟨b2, h2⟩⟩⟩
  · rw [namePass_end hb] at he
    cases he
  · rw [namePass_terminator hb h0] at he
    cases he
  · rw [namePass_label hb h1 h63] at he
    obtain ⟨_, _, _, _, heq, hc, -⟩ := Spec.of_error (readLabel_spec b.toNat) he
    cases heq
    exact absurd hc (by decide)
  · rw [namePass_reserved hb h64 h192] at he
    cases he
  · rw [namePass_cut_pointer hb h192 h2] at he
    cases he
  · rw [namePass_pointer hb h192 h2] at he
    have hlt := (List.getElem?_eq_some_iff.1 hb).1
    obtain ⟨-, hf⟩ | ⟨-, -, hf⟩ | ⟨hj, ht, hout, -⟩ | ⟨-, -, -, hf⟩ :=
      followPointer_cases w m (256 * (b.toNat % 64) + b2.toNat) w.pos
    · rw [hf] at he
      cases he
    · rw [hf] at he
      cases he
    · have := h.forward (by rw [hst]; nofun) hj
      omega
    · rw [hf] at he
      cases he

/-- Settles O35: the first pass at a pointer to itself or forward; the second pass at a pointer's pointer; and every walk of a
decode stands at or after its start until it jumps. -/
theorem selfForwardAndChainedPointersAreRejected : Obligations.SelfForwardAndChainedPointersAreRejected := by
  constructor
  · intro p m o off w h
    obtain ⟨w', hw, hst, hp⟩ := decodeName_error h
    exact namePass_ne_outOfBounds hw.sound hst hp
  intro s off b b2 h192 hh
  obtain ⟨hb, hb2, -⟩ := standsAt_cons.1 (standsAt_of_holds hh) |>.imp_right standsAt_cons.1
  refine ⟨fun hge => ?_, fun b' b2' hlt h192' hh' => ?_⟩
  · refine exec_name_of_raise (nameLoop_of_pass_error ((namePass_pointer (w := Walk.start off) hb h192 hb2).trans ?_))
    exact followPointer_not_backward rfl hge
  · obtain ⟨hb', hb2', -⟩ := standsAt_cons.1 (standsAt_of_holds hh') |>.imp_right standsAt_cons.1
    have hin := (List.getElem?_eq_some_iff.1 hb').1
    refine exec_name_of_raise ((nameLoop_of_pointer (w := Walk.start off) hb h192 hb2 rfl rfl hlt hin).trans
      (nameLoop_of_pass_error ?_))
    rw [namePass_pointer (w := followed (Walk.start off) _) hb' h192' hb2']
    exact followPointer_second rfl

end Sys2Proof.Machine.NameRunProofs

/-! SUPPORT. The two grains of a command (log 1): the engine run transition by transition ends as the command run at once
(42_name.md section 3, "The two must agree"; 45_message.md R231, R232). -/

namespace Sys2Proof.Machine.GrainProofs

open Sys2Proof.Machine.Laws Sys2Proof.Machine.StateProofs Sys2Proof.Machine.NameProofs Sys2Proof.Machine.QuestionProofs
  Sys2Proof.Machine.RecordProofs Sys2Proof.Machine.MessageProofs Sys2Proof.Machine.RegisterProofs Sys2Proof.Machine.SpecProofs
  Sys2Proof.Machine.NamePassProofs Sys2Proof.Machine.NameInvariantProofs Sys2Proof.Machine.CommandProofs
  Sys2Proof.Machine.EngineProofs

/-! ## Runs of the engine -/

theorem engineRun_idle {s : State} (h : s.engine = .idle) (k : Nat) : engineRun k s = .next s := by
  cases k with
  | zero => rfl
  | succ k => simp only [engineRun, h]

theorem engineRun_succ {s t : State} (h : s.engine ≠ .idle) (ht : engineTick s = .next t) (k : Nat) :
    engineRun (k + 1) s = engineRun k t := by
  rw [engineRun]
  split
  · contradiction
  · rw [ht]

theorem engineRun_end {s t : State} (h : s.engine ≠ .idle) (ht : engineTick s = .next t) (hi : t.engine = .idle) (k : Nat) :
    engineRun (k + 1) s = .next t := by
  rw [engineRun_succ h ht, engineRun_idle hi]

theorem engineRun_stop {s : State} {e : Stop} (h : s.engine ≠ .idle) (ht : engineTick s = s.stop e) (he : e ≠ .unfinished)
    (k : Nat) : engineRun (k + 1) s = s.stop e := by
  cases e with
  | raise kind f off w => exact engineRun_end h ht rfl k
  | unfinished => exact absurd rfl he

theorem withEngine_eq_self {s : State} {e : Engine} (h : s.engine = e) : s.withEngine e = s := by
  rw [← h]
  rfl

section
variable {s : State} {e e' : Engine}

theorem withEngine_naming_ne_idle {w : Walk} {task : Task} : (s.withEngine (.naming w task)).engine ≠ .idle := by
  rw [withEngine_engine]
  nofun

theorem stop_withEngine (x : Stop) : (s.withEngine e).stop x = s.stop x := by
  cases x <;> rfl

theorem after_withEngine {α : Type} (x : Except Stop α) (K : α → Host.Outcome State Fault Refusal) :
    after (s.withEngine e) x K = after s x K := by
  cases x with
  | ok a => rfl
  | error x => exact stop_withEngine x

theorem settle_withEngine (x : Except Stop Result) : (s.withEngine e).settle x = s.settle x := by
  cases x with
  | ok r => rfl
  | error x => exact stop_withEngine x

/-! ## A name decode, octet by octet -/

section
variable {w : Walk} {task : Task} {n : Nat} (hst : w.st = .readLength)
include hst

theorem engineTick_pass :
    engineTick (s.withEngine (.naming w task)) =
      after s (namePass s.params s.message w) (fun w' => .next (s.withEngine (.naming w' task))) := by
  rw [engineTick_readLength rfl hst, readLength_eq_pass rfl hst, settleWalk_eq_after]
  exact after_withEngine _ _

theorem engineRun_pass_ok {w' : Walk} (hp : namePass s.params s.message w = .ok w') (k : Nat) :
    engineRun (k + 1) (s.withEngine (.naming w task)) = engineRun k (s.withEngine (.naming w' task)) :=
  engineRun_succ withEngine_naming_ne_idle (by rw [engineTick_pass hst, hp]; rfl) k

theorem engineRun_pass_error {x : Stop} (hp : namePass s.params s.message w = .error x) (k : Nat) :
    engineRun (k + 1) (s.withEngine (.naming w task)) = s.stop x := by
  have hx : x ≠ .unfinished := by
    obtain ⟨_, _, _, _, rfl, -⟩ := Spec.of_error namePass_spec hp
    nofun
  rw [engineRun_stop (e := x) withEngine_naming_ne_idle _ hx, stop_withEngine]
  rw [engineTick_pass hst, hp, stop_withEngine]
  rfl

/-- Where the loop returns, the machine is at Done after as many transitions at most. -/
theorem engineRun_of_nameLoop_ok {name : Name} (h : nameLoop s.params n s.message w = .ok name) :
    ∃ w', w'.st = .done ∧ w'.o = w.o ∧ w'.name = name ∧ ∃ i ≤ n, ∀ j,
      engineRun (i + j) (s.withEngine (.naming w task)) = engineRun j (s.withEngine (.naming w' task)) := by
  induction n generalizing w with
  | zero => cases h
  | succ n ih =>
    rw [nameLoop_succ] at h
    obtain ⟨w1, hp, h⟩ := bind_eq_ok_iff.1 h
    obtain hd | ⟨hr, -⟩ := passesLeft_of_namePass hp
    · rw [loopOn, if_pos hd] at h
      cases h
      refine ⟨w1, hd, o_of_namePass hp, rfl, 1, by omega, fun j => ?_⟩
      rw [Nat.add_comm 1, engineRun_pass_ok hst hp]
    · rw [loopOn, if_neg (by rw [hr]; nofun)] at h
      obtain ⟨w', hd, ho, hname, i, hi, hrun⟩ := ih hr h
      refine ⟨w', hd, ho.trans (o_of_namePass hp), hname, i + 1, by omega, fun j => ?_⟩
      rw [Nat.add_right_comm, engineRun_pass_ok hst hp, hrun]

/-- Where the loop raises, the machine has raised the same after as many transitions. -/
theorem engineRun_of_nameLoop_error {x : Stop} (h : nameLoop s.params n s.message w = .error x) (hx : x ≠ .unfinished)
    {k : Nat} (hk : n ≤ k) : engineRun k (s.withEngine (.naming w task)) = s.stop x := by
  induction n generalizing w k with
  | zero =>
    cases h
    exact absurd rfl hx
  | succ n ih =>
    obtain ⟨k, rfl⟩ := Nat.exists_eq_add_of_lt (Nat.lt_of_lt_of_le n.succ_pos hk)
    rw [Nat.zero_add] at hk ⊢
    rw [nameLoop_succ] at h
    cases hp : namePass s.params s.message w with
    | error x' =>
      rw [hp] at h
      cases h
      exact engineRun_pass_error hst hp k
    | ok w1 =>
      rw [hp] at h
      rw [engineRun_pass_ok hst hp]
      obtain hd | ⟨hr, -⟩ := passesLeft_of_namePass hp
      · simp [Except.bind, loopOn, hd] at h
      · simp only [Except.bind, loopOn, if_neg (show w1.st ≠ .done by rw [hr]; nofun)] at h
        exact ih hr h (Nat.le_of_succ_le_succ hk)

end

theorem engineTick_done {w : Walk} {task : Task} (hst : w.st = .done) :
    engineTick (s.withEngine (.naming w task)) = deliver w task (s.withEngine (.naming w task)) := by
  simp only [engineTick, withEngine_engine, nameTick, hst]

end

/-- Settles O41: each transition is a pass of the loop, of which there are at most 129, and one more delivers the name. -/
theorem nameStateMachineComputesTheFunction : Obligations.NameStateMachineComputesTheFunction := by
  intro s o k he hk
  suffices engineRun k (s.withEngine (.naming (Walk.start o) .name)) =
      s.settle ((decodeName s.params s.message o).map .nam) by rwa [withEngine_eq_self he] at this
  cases h : decodeName s.params s.message o with
  | error x =>
    have hx : x ≠ .unfinished := by
      rintro rfl
      exact decodeName_ne_unfinished _ _ _ h
    exact engineRun_of_nameLoop_error rfl h hx (Nat.le_trans (by decide) hk)
  | ok name =>
    obtain ⟨w', hd, -, rfl, i, hi, hrun⟩ := engineRun_of_nameLoop_ok (task := .name) rfl h
    have hn : i ≤ 129 := hi
    obtain ⟨j, rfl⟩ : ∃ j, k = i + (j + 1) := ⟨k - i - 1, by omega⟩
    rw [hrun, engineRun_end withEngine_naming_ne_idle (engineTick_done hd) rfl j]
    rfl

/-! ## What a run ends with, whatever its length -/

/-- From an engine state on, all runs that are long enough have one outcome. -/
def RunsTo (s : State) (e : Engine) (o : Host.Outcome State Fault Refusal) : Prop :=
  ∃ n, ∀ k, n ≤ k → engineRun k (s.withEngine e) = o

section
variable {s : State} {e e' : Engine} {o : Host.Outcome State Fault Refusal} {α β : Type}

theorem runsTo_of_succ (h : ∀ k, engineRun (k + 1) (s.withEngine e) = o) : RunsTo s e o := by
  refine ⟨1, fun k hk => ?_⟩
  obtain ⟨k, rfl⟩ := Nat.exists_eq_add_of_le' hk
  exact h k

theorem runsTo_shift {i : Nat} (hrun : ∀ j, engineRun (i + j) (s.withEngine e) = engineRun j (s.withEngine e'))
    (h : RunsTo s e' o) : RunsTo s e o := by
  obtain ⟨n, hn⟩ := h
  refine ⟨i + n, fun k hk => ?_⟩
  obtain ⟨j, rfl⟩ := Nat.exists_eq_add_of_le hk
  rw [Nat.add_assoc, hrun, hn _ (Nat.le_add_right n j)]

theorem runsTo_tick (he : e ≠ .idle) (ht : engineTick (s.withEngine e) = .next (s.withEngine e')) (h : RunsTo s e' o) :
    RunsTo s e o :=
  runsTo_shift (i := 1) (fun j => by rw [Nat.add_comm 1, engineRun_succ he ht]) h

theorem runsTo_end {t : State} (he : e ≠ .idle) (ht : engineTick (s.withEngine e) = .next t) (hi : t.engine = .idle) :
    RunsTo s e (.next t) :=
  runsTo_of_succ fun k => engineRun_end he ht hi k

theorem runsTo_stop {x : Stop} (he : e ≠ .idle) (ht : engineTick (s.withEngine e) = s.stop x) (hx : x ≠ .unfinished) :
    RunsTo s e (s.stop x) := by
  rw [← stop_withEngine (e := e)] at ht ⊢
  exact runsTo_of_succ fun k => engineRun_stop he ht hx k

/-- A transition that decodes something: the run goes on with what it returns. -/
theorem runsTo_after {x : Except Stop α} {g : α → Engine} {K : α → Host.Outcome State Fault Refusal} (he : e ≠ .idle)
    (ht : engineTick (s.withEngine e) = after s x (fun a => .next (s.withEngine (g a)))) (hx : x ≠ .error .unfinished)
    (hK : ∀ a, RunsTo s (g a) (K a)) : RunsTo s e (after s x K) := by
  cases x with
  | ok a => exact runsTo_tick he ht (hK a)
  | error x => exact runsTo_stop he ht fun hu => hx (congrArg _ hu)

/-- A transition that ends the command. -/
theorem runsTo_settle {x : Except Stop Result} (he : e ≠ .idle) (ht : engineTick (s.withEngine e) = s.settle x)
    (hx : x ≠ .error .unfinished) : RunsTo s e (s.settle x) := by
  cases x with
  | ok r => exact runsTo_end he ht rfl
  | error x => exact runsTo_stop he ht fun hu => hx (congrArg _ hu)

theorem after_bind (x : Except Stop α) (f : α → Except Stop β) (K : β → Host.Outcome State Fault Refusal) :
    after s (x.bind f) K = after s x (fun a => after s (f a) K) := by
  cases x <;> rfl

theorem decodeQuestion_eq_bind (p : Config.Params) (m : List Byte) (off : Nat) :
    decodeQuestion p m off = (decodeName p m off).bind (questionFields m off) := rfl

theorem decodeRecord_eq_bind (p : Config.Params) (m : List Byte) (off : Nat) :
    decodeRecord p m off = (decodeName p m off).bind (recordFields m off) := rfl

theorem ne_unfinished_of_spec {causes : List (ErrKind × ErrField)} {lim wid : Nat} {Q : α → Prop} {x : Except Stop α}
    (h : Spec causes lim wid Q x) : x ≠ .error .unfinished := by
  rintro rfl
  obtain ⟨_, _, _, _, he, -⟩ := h
  cases he

theorem map_ne_unfinished {f : α → β} {x : Except Stop α} (h : x ≠ .error .unfinished) : x.map f ≠ .error .unfinished := by
  cases x with
  | ok a => nofun
  | error e => rintro ⟨⟩; exact h rfl

/-- A name decode, from its start to Done. -/
theorem runsTo_decodeName {o : Nat} {task : Task} {K : Name → Host.Outcome State Fault Refusal}
    (hK : ∀ w : Walk, w.st = .done → w.o = o → RunsTo s (.naming w task) (K w.name)) :
    RunsTo s (.naming (Walk.start o) task) (after s (decodeName s.params s.message o) K) := by
  cases h : decodeName s.params s.message o with
  | ok name =>
    obtain ⟨w, hd, ho, rfl, i, -, hrun⟩ := engineRun_of_nameLoop_ok (task := task) rfl h
    exact runsTo_shift hrun (hK w hd ho)
  | error x =>
    have hx : x ≠ .unfinished := by
      rintro rfl
      exact decodeName_ne_unfinished _ _ _ h
    exact ⟨_, fun k hk => engineRun_of_nameLoop_error rfl h hx hk⟩

/-! ## MSG's sections (R231 to R235) -/

section
variable {c : MsgCtx}

theorem engineTick_records : engineTick (s.withEngine (.records c)) = recordsTop c (s.withEngine (.records c)) := rfl

/-- A record is due and a byte is left: its name starts. -/
theorem runsTo_item {K : Name → Host.Outcome State Fault Refusal} (hi : c.index < c.count) (hlt : c.off < s.message.length)
    (hK : ∀ w : Walk, w.st = .done → RunsTo s (.naming w (.msg c)) (K w.name)) :
    RunsTo s (.records c) (after s (decodeName s.params s.message c.off) K) := by
  refine runsTo_tick nofun ?_ (runsTo_decodeName fun w hd _ => hK w hd)
  rw [engineTick_records, recordsTop, if_pos hi, message_withEngine, if_neg (Nat.not_le.2 hlt)]
  rfl

theorem runsTo_question {K : Question × Nat → Host.Outcome State Fault Refusal} (hs : c.sec = .questions)
    (hi : c.index < c.count) (hlt : c.off < s.message.length)
    (hK : ∀ x : Question × Nat, RunsTo s (.records (c.addQuestion x.1 x.2)) (K x)) :
    RunsTo s (.records c) (after s (decodeQuestion s.params s.message c.off) K) := by
  rw [decodeQuestion_eq_bind, after_bind]
  refine runsTo_item hi hlt fun w hd => runsTo_after nofun ?_ (ne_unfinished_of_spec (questionFields_spec _ _ _)) hK
  rw [engineTick_done hd, deliver, finishRecord_questions hs]
  exact after_withEngine _ _

theorem runsTo_record {K : Record × Nat → Host.Outcome State Fault Refusal} (hs : c.sec ≠ .questions)
    (hi : c.index < c.count) (hlt : c.off < s.message.length)
    (hK : ∀ x : Record × Nat, RunsTo s (.records (c.addRecord x.1 x.2)) (K x)) :
    RunsTo s (.records c) (after s (decodeRecord s.params s.message c.off) K) := by
  rw [decodeRecord_eq_bind, after_bind]
  refine runsTo_item hi hlt fun w hd => runsTo_after nofun ?_ (ne_unfinished_of_spec (recordFields_spec _ _ _)) hK
  rw [engineTick_done hd, deliver, finishRecord_records hs]
  exact after_withEngine _ _

theorem runsTo_countMismatch (hi : c.index < c.count) (hend : s.message.length ≤ c.off) :
    RunsTo s (.records c) (s.stop (countMismatch c.off)) := by
  refine runsTo_stop nofun ?_ nofun
  rw [engineTick_records, recordsTop, if_pos hi, message_withEngine, if_pos hend, stop_withEngine]

theorem runsTo_next {sec : Section} (hi : ¬c.index < c.count) (hn : c.sec.next = some sec)
    (h : RunsTo s (.records { c with sec := sec, index := 0 }) o) : RunsTo s (.records c) o := by
  refine runsTo_tick nofun ?_ h
  rw [engineTick_records, recordsTop, if_neg hi]
  simp only [hn]
  rfl

theorem runsTo_complete (hi : ¬c.index < c.count) (hn : c.sec.next = none) :
    RunsTo s (.records c) (.next (s.complete (.msg ⟨c.header, c.store⟩ c.off))) := by
  refine runsTo_end nofun ?_ rfl
  rw [engineTick_records, recordsTop, if_neg hi]
  simp only [hn]
  rfl

end

/-- A section as a whole: `fill xs off` is where MSG stands with the items `xs` of it and the offset `off`. -/
theorem runsTo_section {dec : ItemDecode α} {fill : List α → Nat → MsgCtx} {count : Nat}
    {K : List α × Nat → Host.Outcome State Fault Refusal}
    (hcount : ∀ xs off, (fill xs off).index = xs.length ∧ (fill xs off).count = count ∧ (fill xs off).off = off)
    (hitem : ∀ (xs : List α) (off : Nat) (K : α × Nat → Host.Outcome State Fault Refusal), xs.length < count →
      off < s.message.length → (∀ x : α × Nat, RunsTo s (.records (fill (xs ++ [x.1]) (off + x.2))) (K x)) →
      RunsTo s (.records (fill xs off)) (after s (dec s.message off) K))
    (hK : ∀ xs off, xs.length = count → RunsTo s (.records (fill xs off)) (K (xs, off)))
    (n : Nat) (xs : List α) (off : Nat) (hn : xs.length + n = count) :
    RunsTo s (.records (fill xs off)) (after s (countedLoop dec n s.message off xs) K) := by
  induction n generalizing xs off with
  | zero => exact hK xs off hn
  | succ n ih =>
    have hlt : xs.length < count := by omega
    obtain ⟨hindex, hc, hoff⟩ := hcount xs off
    rw [countedLoop]
    split_ifs with hend
    · have := runsTo_countMismatch (s := s) (c := fill xs off) (by omega) (by omega)
      rwa [hoff] at this
    · rw [after_bind]
      refine hitem xs off _ hlt (Nat.not_le.1 hend) fun x => ih _ _ ?_
      rw [List.length_append, List.length_singleton]
      omega

/-- A section of records, by where MSG stands in it. -/
theorem runsTo_records {fill : List Record → Nat → MsgCtx} {count : Nat} {K : List Record × Nat → Host.Outcome State Fault Refusal}
    (hcount : ∀ xs off, (fill xs off).index = xs.length ∧ (fill xs off).count = count ∧ (fill xs off).off = off)
    (hsec : ∀ xs off, (fill xs off).sec ≠ .questions)
    (hadd : ∀ xs off r k, (fill xs off).addRecord r k = fill (xs ++ [r]) (off + k))
    (hK : ∀ xs off, xs.length = count → RunsTo s (.records (fill xs off)) (K (xs, off))) (off : Nat) :
    RunsTo s (.records (fill [] off)) (after s (countedLoop (decodeRecord s.params) count s.message off []) K) := by
  refine runsTo_section hcount (fun xs off K hlt hin hx => ?_) hK count [] off (Nat.zero_add _)
  obtain ⟨hindex, hc, hoff⟩ := hcount xs off
  have := runsTo_record (s := s) (c := fill xs off) (K := K) (hsec xs off) (by omega) (by omega)
    fun x => by rw [hadd]; exact hx x
  rwa [hoff] at this

/-! ## MSG (R230) -/

theorem runsTo_sections (h : Header) :
    RunsTo s (.records ⟨h, Config.hdrBytes, .questions, 0, .empty⟩)
      (after s (countedLoop (decodeQuestion s.params) h.qdcount.toNat s.message 12 []) fun qs =>
       after s (countedLoop (decodeRecord s.params) h.ancount.toNat s.message qs.2 []) fun ans =>
       after s (countedLoop (decodeRecord s.params) h.nscount.toNat s.message ans.2 []) fun auth =>
       after s (countedLoop (decodeRecord s.params) h.arcount.toNat s.message auth.2 []) fun adds =>
       .next (s.complete (.msg ⟨h, ⟨qs.1, ans.1, auth.1, adds.1⟩⟩ adds.2))) := by
  refine runsTo_section (fill := fun qs off => ⟨h, off, .questions, qs.length, ⟨qs, [], [], []⟩⟩)
    (fun _ _ => ⟨rfl, rfl, rfl⟩) (fun qs off K hlt hin hx => ?_) (fun qs o1 hql => ?_) _ [] 12 (Nat.zero_add _)
  · refine runsTo_question (c := ⟨h, off, .questions, qs.length, ⟨qs, [], [], []⟩⟩) rfl hlt hin fun x => ?_
    have := hx x
    rwa [List.length_append] at this
  refine runsTo_next (Nat.not_lt.2 hql.ge) rfl ?_
  refine runsTo_records (fill := fun ans off => ⟨h, off, .answers, ans.length, ⟨qs, ans, [], []⟩⟩)
    (fun _ _ => ⟨rfl, rfl, rfl⟩) (fun _ _ => nofun) (fun _ _ _ _ => by simp [MsgCtx.addRecord]) (fun ans o2 hal => ?_) o1
  refine runsTo_next (Nat.not_lt.2 hal.ge) rfl ?_
  refine runsTo_records (fill := fun auth off => ⟨h, off, .authorities, auth.length, ⟨qs, ans, auth, []⟩⟩)
    (fun _ _ => ⟨rfl, rfl, rfl⟩) (fun _ _ => nofun) (fun _ _ _ _ => by simp [MsgCtx.addRecord]) (fun auth o3 hul => ?_) o2
  refine runsTo_next (Nat.not_lt.2 hul.ge) rfl ?_
  refine runsTo_records (fill := fun adds off => ⟨h, off, .additionals, adds.length, ⟨qs, ans, auth, adds⟩⟩)
    (fun _ _ => ⟨rfl, rfl, rfl⟩) (fun _ _ => nofun) (fun _ _ _ _ => by simp [MsgCtx.addRecord]) (fun adds o4 hdl => ?_) o3
  exact runsTo_complete (Nat.not_lt.2 hdl.ge) rfl

/-! ## The accepted word -/

theorem engineTick_accepted {i : Instr} (hd : decodeCommand s.params s.cmd = some i) :
    engineTick (s.withEngine .accepted) = openCommand i (s.withEngine .accepted) := by
  simp only [engineTick, withEngine_engine, openAccepted, withEngine_params, withEngine_cmd, hd]

theorem engineTick_illegal (hd : decodeCommand s.params s.cmd = none) :
    engineTick (s.withEngine .accepted) = .next (s.raise .illegalCommand .cmd 0 0) := by
  simp only [engineTick, withEngine_engine, openAccepted, withEngine_params, withEngine_cmd, hd]
  rfl

theorem runsTo_exec {i : Instr} (hd : decodeCommand s.params s.cmd = some i) : RunsTo s .accepted (exec i s) := by
  have htick := engineTick_accepted hd
  cases i with
  | rd8 off | rd16 off | rd32 off | hdr =>
    obtain ⟨x, hx, hexec⟩ := exec_command (isCommand_of_decodeCommand hd) s
    have hfin := ne_unfinished_of_spec (decodeOf_spec s.params s.message hx)
    cases hx
    rw [hexec]
    exact runsTo_settle nofun (htick.trans (settle_withEngine _)) hfin
  | name off =>
    rw [exec_name, settle_map_eq_after]
    refine runsTo_tick nofun htick (runsTo_decodeName fun w hw _ => ?_)
    exact runsTo_end nofun (engineTick_done hw) rfl
  | ques off =>
    rw [exec_ques, settle_map_eq_after, decodeQuestion_eq_bind, after_bind]
    refine runsTo_tick nofun htick (runsTo_decodeName fun w hw ho => ?_)
    obtain rfl : w.o = off := ho
    rw [← settle_map_eq_after]
    refine runsTo_settle nofun ((engineTick_done hw).trans (settle_withEngine _)) ?_
    exact map_ne_unfinished (ne_unfinished_of_spec (questionFields_spec _ _ _))
  | rr off =>
    rw [exec_rr, settle_map_eq_after, decodeRecord_eq_bind, after_bind]
    refine runsTo_tick nofun htick (runsTo_decodeName fun w hw ho => ?_)
    obtain rfl : w.o = off := ho
    rw [← settle_map_eq_after]
    refine runsTo_settle nofun ((engineTick_done hw).trans (settle_withEngine _)) ?_
    exact map_ne_unfinished (ne_unfinished_of_spec (recordFields_spec _ _ _))
  | msg =>
    rw [exec_msg, settle_map_eq_after, decodeMessage_eq]
    simp only [after_bind]
    refine runsTo_after nofun (htick.trans ((openMessage_eq_after _).trans (after_withEngine _ _)))
      (ne_unfinished_of_spec (headerOfMessage_spec _)) runsTo_sections
  | octTerm | octLabel | octRsv01 | octRsv10 | octPtr => cases isCommand_of_decodeCommand hd

end

/-- Settles O42: the first transition opens the command, and the run of each ends as its decode does. -/
theorem bothGrainsEndAlike : Obligations.BothGrainsEndAlike := by
  intro s he
  suffices ∀ o, RunsTo s .accepted o → ∃ n, ∀ k, n ≤ k → engineRun k s = o by
    cases hd : decodeCommand s.params s.cmd with
    | some i => exact this _ (runsTo_exec hd)
    | none => exact this _ (runsTo_end nofun (engineTick_illegal hd) rfl)
  rintro o ⟨n, hn⟩
  exact ⟨n, fun k hk => by rw [← hn k hk, withEngine_eq_self he]⟩

end Sys2Proof.Machine.GrainProofs

/-! SUPPORT. The header's code: H_FLAGS and bytes 2 and 3 (10_state.md R29, 30_encoding.md R96), the round trip
(46_reference_encoders.md R252) and the count of the words that are accepted (41_header.md R155). -/

namespace Sys2Proof.Machine.HeaderCodeProofs

open Sys2Proof.Machine.ReaderProofs Sys2Proof.Machine.HeaderProofs Sys2Proof.Machine.SpecProofs Sys2Proof.Machine.CommandProofs

/-! ## Numbers of bit fields -/

theorem toNat_append_eq {a b : Nat} (x : BitVec a) (y : BitVec b) : (x ++ y).toNat = 2 ^ b * x.toNat + y.toNat := by
  rw [BitVec.toNat_append, Nat.shiftLeft_eq, Nat.mul_comm, ← Nat.two_pow_add_eq_or_of_lt y.isLt]

theorem toNat_getLsbD {n : Nat} (x : BitVec n) (i : Nat) : (x.getLsbD i).toNat = x.toNat / 2 ^ i % 2 := by
  rw [← BitVec.testBit_toNat, Nat.toNat_testBit]

theorem toNat_bool_inj {a b : Bool} : a.toNat = b.toNat ↔ a = b := by
  cases a <;> cases b <;> decide

theorem toNat_extractLsb' {n : Nat} (x : BitVec n) (i k : Nat) : (x.extractLsb' i k).toNat = x.toNat / 2 ^ i % 2 ^ k := by
  rw [BitVec.extractLsb'_toNat, Nat.shiftRight_eq_div_pow]

/-! ## Bytes 2 and 3 -/

section
variable (h : Header)

theorem byte2_toNat : h.byte2.toNat =
    128 * h.qr.toNat + 8 * h.opcode.toNat + 4 * h.aa.toNat + 2 * h.tc.toNat + h.rd.toNat := by
  simp only [Header.byte2, toNat_append_eq, BitVec.toNat_ofBool]
  omega

theorem byte3_toNat : h.byte3.toNat = 128 * h.ra.toNat + 16 * h.z.toNat + h.rcode.toNat := by
  simp only [Header.byte3, toNat_append_eq, BitVec.toNat_ofBool]
  omega

theorem flags_toNat : h.flags.toNat = 256 * h.byte2.toNat + h.byte3.toNat := by
  simp only [byte2_toNat, byte3_toNat, Header.flags, toNat_append_eq, BitVec.toNat_ofBool]
  omega

end

/-- The fields of bytes 2 and 3, as numbers in their ranges. -/
theorem field_bounds (h : Header) :
    h.qr.toNat < 2 ∧ h.opcode.toNat < 16 ∧ h.aa.toNat < 2 ∧ h.tc.toNat < 2 ∧ h.rd.toNat < 2 ∧ h.ra.toNat < 2 ∧
      h.z.toNat < 8 ∧ h.rcode.toNat < 16 :=
  ⟨h.qr.toNat_lt, h.opcode.isLt, h.aa.toNat_lt, h.tc.toNat_lt, h.rd.toNat_lt, h.ra.toNat_lt, h.z.isLt, h.rcode.isLt⟩

theorem byte2_fields (h : Header) :
    h.byte2.getLsbD 7 = h.qr ∧ h.byte2.extractLsb' 3 4 = h.opcode ∧ h.byte2.getLsbD 2 = h.aa ∧
    h.byte2.getLsbD 1 = h.tc ∧ h.byte2.getLsbD 0 = h.rd := by
  obtain ⟨_, _, _, _, _, _, _, _⟩ := field_bounds h
  simp only [← toNat_bool_inj, ← BitVec.toNat_inj, toNat_getLsbD, toNat_extractLsb', byte2_toNat]
  omega

theorem byte3_fields (h : Header) :
    h.byte3.getLsbD 7 = h.ra ∧ h.byte3.extractLsb' 4 3 = h.z ∧ h.byte3.extractLsb' 0 4 = h.rcode := by
  obtain ⟨_, _, _, _, _, _, _, _⟩ := field_bounds h
  simp only [← toNat_bool_inj, ← BitVec.toNat_inj, toNat_getLsbD, toNat_extractLsb', byte3_toNat]
  omega

section
variable (m : List Byte)

theorem byte2_unpackHeader : (unpackHeader m).byte2 = byteOf m 2 := by
  have := (byteOf m 2).isLt
  apply BitVec.eq_of_toNat_eq
  simp only [byte2_toNat, unpackHeader, toNat_getLsbD, toNat_extractLsb']
  omega

theorem byte3_unpackHeader : (unpackHeader m).byte3 = byteOf m 3 := by
  have := (byteOf m 3).isLt
  apply BitVec.eq_of_toNat_eq
  simp only [byte3_toNat, unpackHeader, toNat_getLsbD, toNat_extractLsb']
  omega

end

/-! ## H_FLAGS -/

theorem flags_fields (h : Header) :
    h.flags.getLsbD 15 = h.qr ∧ h.flags.extractLsb' 11 4 = h.opcode ∧ h.flags.getLsbD 10 = h.aa ∧
    h.flags.getLsbD 9 = h.tc ∧ h.flags.getLsbD 8 = h.rd ∧ h.flags.getLsbD 7 = h.ra ∧
    h.flags.extractLsb' 4 3 = h.z ∧ h.flags.extractLsb' 0 4 = h.rcode := by
  obtain ⟨_, _, _, _, _, _, _, _⟩ := field_bounds h
  simp only [← toNat_bool_inj, ← BitVec.toNat_inj, toNat_getLsbD, toNat_extractLsb', flags_toNat, byte2_toNat, byte3_toNat]
  omega

/-- Settles O27: each field, and the word of bytes 2 and 3, by the value of H_FLAGS. -/
theorem headerFlagsAreTheWireWord : Obligations.HeaderFlagsAreTheWireWord :=
  ⟨flags_fields, fun m => by rw [flags_toNat, byte2_unpackHeader, byte3_unpackHeader]; rfl⟩

/-! ## The round trip -/

theorem u16Bytes_u16 (hi lo : Byte) : u16Bytes (u16 hi lo) = [hi, lo] := by
  have := hi.isLt
  have := lo.isLt
  simp only [u16Bytes, List.cons.injEq, and_true, ← BitVec.toNat_inj, toNat_extractLsb', u16_toNat]
  omega

theorem u16_extract (v : BitVec 16) : u16 (v.extractLsb' 8 8) (v.extractLsb' 0 8) = v := by
  have := v.isLt
  apply BitVec.eq_of_toNat_eq
  simp only [u16_toNat, toNat_extractLsb']
  omega

theorem encodeHeader_unpackHeader {m : List Byte} (hm : m.length = 12) : encodeHeader (unpackHeader m) = m := by
  match m, hm with
  | [b0, b1, b2, b3, b4, b5, b6, b7, b8, b9, b10, b11], _ =>
    rw [encodeHeader, byte2_unpackHeader, byte3_unpackHeader]
    simp only [unpackHeader, fieldOf, u16Bytes_u16]
    rfl

theorem unpackHeader_encodeHeader (h : Header) : unpackHeader (encodeHeader h) = h := by
  obtain ⟨hqr, hopcode, haa, htc, hrd⟩ := byte2_fields h
  obtain ⟨hra, hz, hrcode⟩ := byte3_fields h
  have h2 : byteOf (encodeHeader h) 2 = h.byte2 := rfl
  have h3 : byteOf (encodeHeader h) 3 = h.byte3 := rfl
  have hid : fieldOf (encodeHeader h) 0 = h.id := u16_extract _
  have hqd : fieldOf (encodeHeader h) 4 = h.qdcount := u16_extract _
  have han : fieldOf (encodeHeader h) 6 = h.ancount := u16_extract _
  have hns : fieldOf (encodeHeader h) 8 = h.nscount := u16_extract _
  have har : fieldOf (encodeHeader h) 10 = h.arcount := u16_extract _
  rw [unpackHeader, h2, h3, hid, hqd, han, hns, har, hqr, hopcode, haa, htc, hrd, hra, hz, hrcode]

theorem checkHeader_of_valid {h : Header} (hv : h.Valid) : checkHeader h = .ok h := by
  obtain ⟨ho, hz, hr, ha⟩ := hv
  rw [checkHeader, if_neg (Nat.not_lt.2 ho), if_neg ha, if_neg (not_not.2 hz), if_neg (Nat.not_lt.2 hr)]

/-- What HDR returns: the fields of the twelve bytes, all of them valid. -/
theorem of_decodeHeader {m : List Byte} {h : Header} (hd : decodeHeader m = .ok h) :
    m.length = 12 ∧ h = unpackHeader m ∧ h.Valid :=
  (decodeHeader_spec m).of_ok hd

/-- Settles O29: the codes of the fields are the bytes, and the fields of the code are the header. -/
theorem headerRoundTrips : Obligations.HeaderRoundTrips := by
  refine ⟨fun m h hd => ?_, fun h hv => ?_⟩
  · obtain ⟨hm, rfl, -⟩ := of_decodeHeader hd
    exact encodeHeader_unpackHeader hm
  · rw [decodeHeader_eq_check rfl, unpackHeader_encodeHeader, checkHeader_of_valid hv]

/-! ## The accepted values of bytes 2 and 3 -/

/-- Byte 2 passes steps 3 and 4 of R151. -/
def byte2OK (b : Nat) : Bool := b / 8 % 16 ≤ 2 && !(b / 128 = 0 && b / 4 % 2 = 1)

/-- Byte 3 passes steps 5 and 6. -/
def byte3OK (b : Nat) : Bool := b / 16 % 8 = 0 && b % 16 ≤ 5

theorem valid_unpackHeader_iff (m : List Byte) :
    (unpackHeader m).Valid ↔ (byte2OK (byteOf m 2).toNat && byte3OK (byteOf m 3).toNat) = true := by
  simp only [Header.Valid, unpackHeader_opcode, unpackHeader_z_eq_zero, unpackHeader_rcode, unpackHeader_aa_without_qr,
    Config.opcodeMax, Config.rcodeMax, byte2OK, byte3OK, Bool.and_eq_true, Bool.not_eq_true', Bool.and_eq_false_iff,
    decide_eq_true_iff, decide_eq_false_iff_not]
  omega

theorem decodeHeader_returns_iff {m : List Byte} (hm : m.length = 12) :
    (∃ h, decodeHeader m = .ok h) ↔ (unpackHeader m).Valid := by
  constructor
  · rintro ⟨h, hd⟩
    obtain ⟨-, rfl, hv⟩ := of_decodeHeader hd
    exact hv
  · exact fun hv => ⟨_, (decodeHeader_eq_check hm).trans (checkHeader_of_valid hv)⟩

/-- Counting row by row. -/
theorem countP_range_mul (f : Nat → Bool) (a n : Nat) :
    (List.range (a * n)).countP f = ((List.range a).map fun i => (List.range n).countP fun j => f (i * n + j)).sum := by
  induction a with
  | zero => rw [Nat.zero_mul]; rfl
  | succ a ih =>
    rw [Nat.succ_mul, List.range_add, List.countP_append, ih, List.countP_map, List.range_succ, List.map_append,
      List.sum_append, List.map_singleton, List.sum_singleton]
    rfl

theorem sum_map_ite (f : Nat → Bool) (c : Nat) (l : List Nat) :
    (l.map fun i => if f i = true then c else 0).sum = l.countP f * c := by
  induction l with
  | nil => rw [List.countP_nil, Nat.zero_mul]; rfl
  | cons i l ih =>
    rw [List.map_cons, List.sum_cons, ih, List.countP_cons]
    split_ifs
    · rw [Nat.succ_mul, Nat.add_comm]
    · rw [Nat.zero_add, Nat.add_zero]

theorem countP_divMod (f g : Nat → Bool) (a n : Nat) :
    (List.range (a * n)).countP (fun p => f (p / n) && g (p % n)) = (List.range a).countP f * (List.range n).countP g := by
  have hrow : ∀ i, (List.range n).countP (fun j => f ((i * n + j) / n) && g ((i * n + j) % n)) =
      if f i = true then (List.range n).countP g else 0 := by
    intro i
    have hij : ∀ j ∈ List.range n, (f ((i * n + j) / n) && g ((i * n + j) % n)) = (f i && g j) := by
      intro j hj
      have hj : j < n := List.mem_range.1 hj
      rw [Nat.mul_comm i n, Nat.mul_add_div (Nat.zero_lt_of_lt hj), Nat.mul_add_mod, Nat.div_eq_of_lt hj,
        Nat.mod_eq_of_lt hj, Nat.add_zero]
    rw [List.countP_congr fun j hj => by rw [hij j hj]]
    cases f i <;> simp
  rw [countP_range_mul, ← sum_map_ite]
  simp only [hrow]

theorem count_byte2OK : (List.range 256).countP byte2OK = 36 := by
  rw [countP_range_mul byte2OK 16 16]
  decide

theorem count_byte3OK : (List.range 256).countP byte3OK = 12 := by
  rw [countP_range_mul byte3OK 16 16]
  decide

/-- The sixteen bits of bytes 2 and 3 decide whether HDR returns. -/
theorem decodeHeader_accepts (b0 b1 b4 b5 b6 b7 b8 b9 b10 b11 : Byte) {p : Nat} (hp : p < 65536) :
    (∃ h, decodeHeader [b0, b1, BitVec.ofNat 8 (p / 256), BitVec.ofNat 8 p, b4, b5, b6, b7, b8, b9, b10, b11] = .ok h) ↔
      (byte2OK (p / 256) && byte3OK (p % 256)) = true := by
  have h2 : (BitVec.ofNat 8 (p / 256)).toNat = p / 256 := Nat.mod_eq_of_lt (by omega)
  rw [decodeHeader_returns_iff rfl, valid_unpackHeader_iff, show byteOf _ 2 = BitVec.ofNat 8 (p / 256) from rfl, h2]
  rfl

/-- Settles O28: the checks are the validity; they look at byte 2 and at byte 3 apart, and 36 values of the one and 12 of the
other pass. -/
theorem acceptedHeadersAreValid : Obligations.AcceptedHeadersAreValid := by
  refine ⟨fun m h hd => ?_, fun b0 b1 b4 b5 b6 b7 b8 b9 b10 b11 => ?_⟩
  · obtain ⟨-, -, hv⟩ := of_decodeHeader hd
    obtain ⟨-, -, -, -, -, -, hz, -⟩ := flags_fields h
    exact ⟨hv, hz.trans hv.2.1⟩
  · rw [← List.countP_eq_length_filter]
    calc _ = (List.range (256 * 256)).countP (fun p => byte2OK (p / 256) && byte3OK (p % 256)) := by
          refine List.countP_congr fun p hp => ?_
          rw [← decodeHeader_accepts b0 b1 b4 b5 b6 b7 b8 b9 b10 b11 (List.mem_range.1 hp)]
          split
          next h hd => exact ⟨fun _ => ⟨h, hd⟩, fun _ => rfl⟩
          next e hd => exact ⟨nofun, fun ⟨h, hok⟩ => nomatch hd.symm.trans hok⟩
      _ = 432 := by rw [countP_divMod, count_byte2OK, count_byte3OK]

end Sys2Proof.Machine.HeaderCodeProofs
